-- ==== Sys2Proof/Word.lean ====
section
/-! DEFINITION. The words of the node-control block: the unsigned integers `u8`, `u11`, `u16`, `u32` of rule R11. -/

namespace Sys2Proof

/-- `u8` (R11): one byte of a frame, a port or pin index, an error code. -/
abbrev Byte := BitVec 8

/-- `u11`: a node address (R41). -/
abbrev Addr := BitVec 11

/-- `u16`: a speed, an analog value, a CRC (R11). -/
abbrev Half := BitVec 16

/-- `u32`: a count of milliseconds of the wrapping clock (R12). -/
abbrev Time := BitVec 32

end Sys2Proof
end

