-- ==== Sys2Proof/Config.lean ====
section
/-! DEFINITION. The configuration record of rule R8, the transport's types that the open answers need, the free
values the environment draws (93_implementation_defined.md U8, U13), and the reference configurations `CFG_REF`. -/

namespace Sys2Proof

/-- The two roles of rule R370; a role is never entered or left at run time. -/
inductive Role where
  | coordinator
  | peer
deriving DecidableEq, Repr

/-- `CRC_STEP` (R295). The source does not give the function, so it stays a parameter: `configured` is the open
function `Config.crcStepOpen`. The two table shapes are those of rule R297, the table itself being part of the parameter
(PRESUMED: R297 takes them from general knowledge; log entry 4). -/
inductive CrcStep where
  /-- the function the inverter's maker fixed, not given by the source -/
  | configured
  /-- the left-shifting shape of rule R297 -/
  | tableHigh (table : Vector Half 16)
  /-- the right-shifting shape of rule R297 -/
  | tableLow (table : Vector Half 16)
deriving DecidableEq, Repr

/-- `ANALOG_TRANSFORM` (R199): the identity by default, or the configured function of pin and sample, which the source
does not give (`Config.analogTransformOpen`). -/
inductive AnalogTransform where
  | identity
  | configured
deriving DecidableEq, Repr

/-- A bus frame (R100): an 11-bit address and its data bytes, `data[0]` first. Its length is the length of `data`. -/
structure BusFrame where
  address : Addr
  data : List Byte
deriving DecidableEq, Repr

/-- The three outcomes of one `BusSend` (R152). -/
inductive SendOutcome where
  | ok
  | timeout
  | busOff
deriving DecidableEq, Repr, Inhabited

/-- The configuration record of rule R8: fixed when a node is configured, written by no operation (R39). -/
structure Config where
  /-- `ROLE` -/
  role : Role
  /-- `SELF_ADDRESS` -/
  selfAddress : Addr
  /-- `N_PORTS`: the output ports are `0 .. N_PORTS-1` (R42) -/
  nPorts : Nat
  /-- `N_ANALOG`: the analog pins are `0 .. N_ANALOG-1` (R42) -/
  nAnalog : Nat
  /-- `N_DIGITAL`: the digital pins are `0 .. N_DIGITAL-1` (R42) -/
  nDigital : Nat
  /-- `HAS_MOTOR` -/
  hasMotor : Bool
  /-- `ANALOG_TRANSFORM` (R199) -/
  analogTransform : AnalogTransform
  /-- `MAX_RPM` -/
  maxRpm : Half
  /-- `DECEL_STEP` -/
  decelStep : Half
  /-- `DECEL_INTERVAL`, milliseconds -/
  decelInterval : Nat
  /-- `KEEPALIVE_INTERVAL`, milliseconds -/
  keepAliveInterval : Nat
  /-- `STATUS_INTERVAL`, milliseconds; 0 disables the periodic status frame -/
  statusInterval : Nat
  /-- `SEND_TIMEOUT`, milliseconds; the second operand of every `BusSend` (R152), read by no rule of the block -/
  sendTimeout : Nat
  /-- `TABLE_SIZE`: the slots of the sensor table -/
  tableSize : Nat
  /-- `TABLE_PINS`: the pins per slot and kind -/
  tablePins : Nat
  /-- `RX_DEPTH`: the bytes `rxFifo` holds -/
  rxDepth : Nat
  /-- `BUS_U16_HIGH_FIRST` (R71): true in this spec (D5; log entry 7) -/
  busU16HighFirst : Bool
  /-- `CRC_STEP` (R295) -/
  crcStep : CrcStep
  /-- `CRC_HIGH_NIBBLE_FIRST` (R295) -/
  crcHighNibbleFirst : Bool
  /-- `INV_ACK` (R132) -/
  invAck : Byte
  /-- `INV_NAK` (R132) -/
  invNak : Byte
  /-- `ERR_UNKNOWN_OPCODE` (R351) -/
  errUnknownOpcode : Byte
  /-- `ERR_INVALID_PORT` (R352) -/
  errInvalidPort : Byte
  /-- `ERR_INVALID_PIN` (R353) -/
  errInvalidPin : Byte
  /-- `ERR_LENGTH` (R354) -/
  errLength : Byte
  /-- The MODEL's own flag (DESIGN CHOICE, log entry 11): whether the host "is given" an operation that sends the
  inverter commands `0x27`, `0xB0`, `0xA0`, the premise of rule R304's conditional sentence. -/
  hostInverterQueries : Bool
deriving DecidableEq, Repr

/-- The open `CRC_STEP` (R295, R299): a free value, a function of the register and the half-byte alone. -/
opaque Config.crcStepOpen : Half → BitVec 4 → Half

/-- The open `ANALOG_TRANSFORM` (R199): a free value, a function of the pin and the sample alone. -/
opaque Config.analogTransformOpen : Byte → Half → Half

/-- The frame or none that `BusTryReceive` returns when no input is listed (U8), by draw number. -/
opaque Config.freeReceive : Nat → Option BusFrame

/-- The time since the last clock reading when no input is listed (U8, U17), below `2^31` (R330), by draw number. -/
opaque Config.freeAdvance : Nat → BitVec 31

/-- The outcome of a `BusSend` when no answer is listed (U8), by draw number. -/
opaque Config.freeSend : Nat → SendOutcome

/-- The answer of `GpioReadAnalog(pin)` when none is listed (U8), by draw number. -/
opaque Config.freeAnalog : Nat → Byte → Half

/-- The answer of `GpioReadDigital(pin)` when none is listed (U8), by draw number. -/
opaque Config.freeDigital : Nat → Byte → Bool

/-- The table of `CRC_REF` (R298), polynomial 0x1021. For the spec's test vectors only (D24). -/
def Config.crcRefTable : Vector Half 16 :=
  #v[0x0000#16, 0x1021#16, 0x2042#16, 0x3063#16, 0x4084#16, 0x50A5#16, 0x60C6#16, 0x70E7#16,
     0x8108#16, 0x9129#16, 0xA14A#16, 0xB16B#16, 0xC18C#16, 0xD1AD#16, 0xE1CE#16, 0xF1EF#16]

/-- `CFG_REF` of rule R8, the motor peer 0x020. -/
def Config.refMotorPeer : Config where
  role := .peer
  selfAddress := 0x020#11
  nPorts := 0
  nAnalog := 0
  nDigital := 0
  hasMotor := true
  analogTransform := .identity
  maxRpm := 3000#16
  decelStep := 30#16
  decelInterval := 600
  keepAliveInterval := 1000
  statusInterval := 0
  sendTimeout := 10
  tableSize := 8
  tablePins := 16
  rxDepth := 64
  busU16HighFirst := true
  crcStep := .tableHigh Config.crcRefTable
  crcHighNibbleFirst := true
  invAck := 0x06#8
  invNak := 0x15#8
  errUnknownOpcode := 0x01#8
  errInvalidPort := 0x02#8
  errInvalidPin := 0x03#8
  errLength := 0x04#8
  hostInverterQueries := false

/-- `CFG_REF` of rule R8, the sensor/output peer 0x010. -/
def Config.refSensorPeer : Config :=
  { Config.refMotorPeer with
    selfAddress := 0x010#11, nPorts := 4, nAnalog := 8, nDigital := 8, hasMotor := false }

/-- `CFG_REF` of rule R8, the coordinator 0x001. -/
def Config.refCoordinator : Config :=
  { Config.refMotorPeer with role := .coordinator, selfAddress := 0x001#11, hasMotor := false }

/-- The configuration of `State.reset` (DESIGN CHOICE, unsafe, log entry 3: the spec says "as configured"): one peer with
the capabilities of both reference peers, and the open `CRC_STEP`. No statement about reset rests on it: they speak of
`State.resetOf cfg t0` for every `cfg`. -/
def Config.node : Config :=
  { Config.refMotorPeer with nPorts := 4, nAnalog := 8, nDigital := 8, crcStep := .configured }

end Sys2Proof
end

