-- ==== Sys2Proof/Syntax.lean ====
section
/-! DEFINITION. The operations of the block as syntax: one constructor of `Instr` per row of spec/opcode_table.json
(R102, R129, R130), and the 21 bus opcodes as a type of their own. -/

namespace Sys2Proof

/-- `CW` (clockwise) or `CCW` (counter-clockwise), the values of the direction register (R22). -/
inductive Direction where
  | cw
  | ccw
deriving DecidableEq, Repr

/-- One (pin, value) triple of `ALL_ANALOG_DATA` (R118). -/
structure AnalogReading where
  pin : Byte
  value : Half
deriving DecidableEq, Repr

/-- The 21 opcodes of rule R102, commands first. -/
inductive BusOp where
  | activate | deactivate | readAnalog | readDigital | readAllAnalog | readAllDigital
  | motorSetRpm | motorSetDir | motorStop | motorStatus
  | ackActivate | ackDeactivate | analogData | digitalData | allAnalogData | allDigitalData
  | ackMotorRpm | ackMotorDir | ackMotorStop | motorStatusData | errorResponse
deriving DecidableEq, Repr

/-- The operations of the hardware, one constructor per row of the opcode table. -/
inductive Instr where
  /-- `ACTIVATE` 0x01 (R103, R189) -/
  | activate (port : Byte)
  /-- `DEACTIVATE` 0x02 (R104, R190) -/
  | deactivate (port : Byte)
  /-- `READ_ANALOG` 0x03 (R105, R191) -/
  | readAnalog (pin : Byte)
  /-- `READ_DIGITAL` 0x04 (R106, R192) -/
  | readDigital (pin : Byte)
  /-- `READ_ALL_ANALOG` 0x05 (R107, R193) -/
  | readAllAnalog
  /-- `READ_ALL_DIGITAL` 0x06 (R108, R194) -/
  | readAllDigital
  /-- `MOTOR_SET_RPM` 0x30 (R109, R206) -/
  | motorSetRpm (rpm : Half)
  /-- `MOTOR_SET_DIR` 0x31 (R110, R207) -/
  | motorSetDir (clockwise : Bool)
  /-- `MOTOR_STOP` 0x32 (R111, R208) -/
  | motorStop
  /-- `MOTOR_STATUS` 0x33 (R112, R211) -/
  | motorStatus
  /-- `ACK_ACTIVATE` 0x10 (R114, R222) -/
  | ackActivate (port status : Byte)
  /-- `ACK_DEACTIVATE` 0x11 (R115, R223) -/
  | ackDeactivate (port status : Byte)
  /-- `ANALOG_DATA` 0x20 (R116, R224) -/
  | analogData (pin : Byte) (value : Half)
  /-- `DIGITAL_DATA` 0x21 (R117, R225) -/
  | digitalData (pin : Byte) (high : Bool)
  /-- `ALL_ANALOG_DATA` 0x22 (R118, R226): one or two triples -/
  | allAnalogData (first : AnalogReading) (second : Option AnalogReading)
  /-- `ALL_DIGITAL_DATA` 0x23 (R119, R227) -/
  | allDigitalData (bits : Byte)
  /-- `ACK_MOTOR_RPM` 0x40 (R120, R228) -/
  | ackMotorRpm (rpm : Half) (status : Byte)
  /-- `ACK_MOTOR_DIR` 0x41 (R121, R229) -/
  | ackMotorDir (dir : Direction) (status : Byte)
  /-- `ACK_MOTOR_STOP` 0x42 (R122, R230) -/
  | ackMotorStop (status : Byte)
  /-- `MOTOR_STATUS_DATA` 0x43 (R123, R128, R231) -/
  | motorStatusData (actualRpm : Half) (dir : Direction) (setRpm : BitVec 15) (fault : Byte)
  /-- `ERROR_RESPONSE` 0xFF (R124, R232) -/
  | errorResponse (subject code : Byte)
  /-- inverter command `CW`, byte 0 = 0x14 (R129, R302) -/
  | invCw (speed : Half)
  /-- inverter command `CCW`, byte 0 = 0x18 (R129, R303) -/
  | invCcw (speed : Half)
  /-- inverter command `unbalance-query`, byte 0 = 0x27 (R129, R304); bytes 1 and 2 are the frame shape's speed field -/
  | invUnbalanceQuery (speed : Half)
  /-- inverter command `load-query`, byte 0 = 0xB0 (R129, R305) -/
  | invLoadQuery (speed : Half)
  /-- inverter command `accel-profile`, byte 0 = 0xA0 (R129, R306) -/
  | invAccelProfile (speed : Half)
  /-- inverter reply (R130, R311): its ten bytes, bytes 2 and 3 and bytes 8 and 9 joined high byte first -/
  | invReply (cls echo : Byte) (actual : Half) (byte4 fault byte6 byte7 : Byte) (crc : Half)
deriving DecidableEq, Repr

end Sys2Proof
end

