-- ==== Sys2Proof/Machine/State.lean ====
section
/-! DEFINITION. The state of one node (10_state.md R20 to R48), the inputs and answers of its environment (R7, R45), what
can be observed of it (R380), the named stops, and reset (R47, R48, R400). -/

namespace Sys2Proof.Machine

/-- The level last driven onto an output port (R32); a port never driven is not listed. -/
inductive Level where
  | on
  | off
deriving DecidableEq, Repr

/-- The dispatcher state (R33). -/
inductive DState where
  | idle
  | processing (op : Byte)
deriving DecidableEq, Repr

/-- The class of the latest valid reply frame (R30). -/
inductive ReplyClass where
  | none
  | ack
  | nak
  | other
deriving DecidableEq, Repr

/-- A valid entry of `analogTab` (R36). -/
structure AnalogEntry where
  value : Half
  timestamp : Time
deriving DecidableEq, Repr

/-- A valid entry of `digitalTab` (R36). -/
structure DigitalEntry where
  level : Bool
  timestamp : Time
deriving DecidableEq, Repr

/-- The result of `SendWithRetry` (R154). -/
inductive SendResult where
  | sent
  | dropped
deriving DecidableEq, Repr

/-- The fields of a `Response` host event, by response opcode (R222, R223, R228 to R232). -/
inductive Response where
  | ackActivate (port status : Byte)
  | ackDeactivate (port status : Byte)
  | ackMotorRpm (rpm : Half) (status : Byte)
  | ackMotorDir (dir : Direction) (status : Byte)
  | ackMotorStop (status : Byte)
  | motorStatusData (actualRpm : Half) (dir : Direction) (setRpm : BitVec 15) (fault : Byte)
  | errorResponse (subject code : Byte)
deriving DecidableEq, Repr

/-- The host events (R380): `TxDropped` (R154) and `Response` (R222 to R232). -/
inductive HostEvent where
  | txDropped (frame : BusFrame) (first second : SendOutcome)
  | response (address : Addr) (r : Response)
deriving DecidableEq, Repr

/-- What `get` returns (R252): `Invalid`, or a reading of the kind asked for. -/
inductive Reading where
  | invalid
  | analog (value : Half) (timestamp : Time)
  | digital (level : Bool) (timestamp : Time)
deriving DecidableEq, Repr

/-- The registers `status()` returns (R278). -/
structure LocalStatus where
  currentRpm : Half
  targetRpm : Half
  commandedRpm : Half
  direction : Direction
  decelerating : Bool
  actualRpm : Half
  fault : Byte
  lastReply : ReplyClass
deriving DecidableEq, Repr

/-- What a host call returns. -/
inductive HostResult where
  /-- `setRpm`, `setDirection`, `stop` (R282) and the conditional operation of R304 return nothing -/
  | done
  /-- the client functions (R233 to R241) -/
  | sent (r : SendResult)
  /-- `get` (R252) -/
  | reading (r : Reading)
  /-- `status` (R278) -/
  | status (r : LocalStatus)
deriving DecidableEq, Repr

/-- The three commands no rule of the block sends (R304 to R306). -/
inductive InverterQuery where
  | unbalance
  | load
  | accelProfile
deriving DecidableEq, Repr

/-- The operations exposed to the node's host (R336): on the coordinator `get` and the nine client functions, on a motor
node `setRpm`, `setDirection`, `stop`, `status`; and the operation of R304's conditional ("if a host is given one"). -/
inductive HostCall where
  | get (address : Addr) (pin : Byte) (isAnalog : Bool)
  | requestAnalog (address : Addr) (pin : Byte)
  | requestDigital (address : Addr) (pin : Byte)
  | requestAllAnalog (address : Addr)
  | requestAllDigital (address : Addr)
  | setOutput (address : Addr) (port : Byte) (on : Bool)
  | setMotorRpm (address : Addr) (rpm : Half)
  | setMotorDirection (address : Addr) (clockwise : Bool)
  | stopMotor (address : Addr)
  | requestMotorStatus (address : Addr)
  | setRpm (rpm : Half)
  | setDirection (direction : Direction)
  | stop
  | status
  | inverterQuery (query : InverterQuery)
deriving DecidableEq, Repr

/-- What happens next to a node (R7): an iteration with the clock's advance since the last reading (below `2^31`, R330)
and `BusTryReceive`'s answer; a host call with its own reading of the clock (R336); a byte from the inverter (R307); the
boot of the node at clock value `t0` (R47, R400). -/
inductive Input where
  | iteration (advance : BitVec 31) (received : Option BusFrame)
  | hostCall (advance : BitVec 31) (call : HostCall)
  | rxPush (byte : Byte)
  | boot (t0 : Time)
deriving DecidableEq, Repr

/-- One interface call of the block with its answer, or one notification to its host (R13, R380). -/
inductive Observation where
  /-- `BusSend(frame)`, with the `SEND_TIMEOUT` handed to it (milliseconds), and its outcome (R152) -/
  | busSend (frame : BusFrame) (timeout : Nat) (outcome : SendOutcome)
  /-- `BusRecover()` (R153) -/
  | busRecover
  /-- `GpioSet(port, level)` (R376) -/
  | gpioSet (port : Byte) (level : Level)
  /-- `GpioReadAnalog(pin)` and its answer -/
  | gpioReadAnalog (pin : Byte) (sample : Half)
  /-- `GpioReadDigital(pin)` and its answer -/
  | gpioReadDigital (pin : Byte) (level : Bool)
  /-- `SerialSend(bytes)` (R314) -/
  | serialSend (bytes : List Byte)
  /-- `HostEvent(e)` (R13) -/
  | hostEvent (e : HostEvent)
  /-- the result of a host call (R336) -/
  | hostReturn (r : HostResult)
deriving DecidableEq, Repr

/-- The environment of the node, the MODEL's own record (log entries 1 and 2), not the spec's state: what happens next,
the answers to the block's calls in call order, the index of the next free value, and the trace of the block's calls,
oldest first. No meaning reads the trace. -/
structure Env where
  inputs : List Input
  sendAnswers : List SendOutcome
  analogAnswers : List Half
  digitalAnswers : List Bool
  draws : Nat
  trace : List Observation
deriving DecidableEq, Repr

/-- Nothing listed, nothing drawn, nothing observed. -/
def Env.empty : Env := ⟨[], [], [], [], 0, []⟩

/-- The state of one node (R20): the configuration (R8), the motor state (R21 to R26), the link registers and receive FIFO
(R29 to R31), the output latch (R32), the dispatcher state (R33), the sensor table (R35 to R37); then the model's own
fields, the clock's latest value (R12), the address of the frame in dispatch (R85) and the environment. The output latch
and the two tables are sparse lists with strictly rising keys (log entry 8): a port not listed is `Unwritten`, an
entry not listed is invalid. -/
structure State where
  cfg : Config
  commandedRpm : Half
  currentRpm : Half
  targetRpm : Half
  direction : Direction
  decelerating : Bool
  lastStepTime : Time
  lastKeepAlive : Time
  lastStatus : Time
  actualRpm : Half
  fault : Byte
  lastReply : ReplyClass
  lastEcho : Byte
  rxFifo : List Byte
  outLatch : List (Nat × Level)
  dstate : DState
  analogTab : List (Nat × AnalogEntry)
  digitalTab : List (Nat × DigitalEntry)
  now : Time
  rxAddr : Addr
  env : Env
deriving DecidableEq, Repr

/-- The faults that stop the machine: none. "Nothing in this core is fatal" (R338), "there is no global error state"
(R365); every error of the spec has a local, non-fatal reaction (R350). -/
inductive Fault where
deriving DecidableEq, Repr

/-- The named stops of the model: cases the spec takes as absent by premise, or operations it gives to no such node. Each
is safe: the model stops where the spec says nothing of the hardware. -/
inductive Refusal where
  /-- raised by `exec` for an instruction without a meaning (none is left); safe -/
  | notModelled (mnemonic : String)
  /-- raised by the dispatchers for a delivered frame of length 0, which R100 and U1 exclude by premise; safe -/
  | emptyBusFrame
  /-- raised by the dispatchers for a delivered frame of more than 8 bytes, which does not exist (R100); safe -/
  | oversizedBusFrame
  /-- raised by `step` for a configuration outside rule R8's constraints, which has no meaning (R39, R406, U6); safe -/
  | illegalConfiguration
  /-- raised by a host call that the node's role and capabilities do not expose (R336); safe -/
  | hostCallNotExposed
  /-- raised by an inverter command, a reply or a received byte on a node without a motor, which has no inverter link
  (R20); safe -/
  | noInverterLink
  /-- raised by `0x27`, `0xB0`, `0xA0` when the host is given no operation that sends them (R304 to R306, U11); safe -/
  | inverterQueryNotGiven
  /-- raised by `0x27`, `0xB0`, `0xA0` with a speed field other than 0, a payload not in the source (R304, U11); safe -/
  | inverterPayloadUnknown
deriving DecidableEq, Repr

/-- A node right after its boot at clock value `t0` (R47), in an environment that goes on as it was. -/
def State.boot (cfg : Config) (t0 : Time) (env : Env) : State where
  cfg := cfg
  commandedRpm := 0#16
  currentRpm := 0#16
  targetRpm := 0#16
  direction := .cw
  decelerating := false
  lastStepTime := t0
  lastKeepAlive := t0
  lastStatus := t0
  actualRpm := 0#16
  fault := 0#8
  lastReply := .none
  lastEcho := 0#8
  rxFifo := []
  outLatch := []
  dstate := .idle
  analogTab := []
  digitalTab := []
  now := t0
  rxAddr := 0#11
  env := env

/-- Reset of a node configured as `cfg` at clock value `t0` (R47), nothing listed in its environment. -/
def State.resetOf (cfg : Config) (t0 : Time) : State := State.boot cfg t0 Env.empty

/-- The machine right after reset, for the configuration `Config.node` (log entry 3) and `t0 = 0` ("a model may take
`t0 = 0`", R47). -/
def State.reset : State := State.resetOf Config.node 0#32

end Sys2Proof.Machine
end

