-- ==== Sys2Proof/Machine/Flags.lean ====
section
/-! DEFINITION. Flags and timers: elapsed time (R12), due timers (R374), the ramp state (R27), the reply class (R132). There
are no condition codes (R38). -/

namespace Sys2Proof.Machine

/-- `elapsed(t1, t0) = (t1 - t0) mod 2^32` (R12). -/
def elapsed (t1 t0 : Time) : Nat := (t1 - t0).toNat

/-- "At least `interval` ms have elapsed since `t0`" (R12). -/
def due (now t0 : Time) (interval : Nat) : Bool := decide (interval ≤ elapsed now t0)

/-- The ramp states of rule R27. -/
inductive RampState where
  | stopped
  | holding (rpm : Half)
  | decelerating (current target : Half)
deriving DecidableEq, Repr

/-- The ramp state is a view of the registers (R27). -/
def rampState (s : State) : RampState :=
  if s.decelerating then .decelerating s.currentRpm s.targetRpm
  else if s.currentRpm = 0#16 then .stopped
  else .holding s.currentRpm

/-- The class of a reply by its byte 0 (R132, R312). -/
def replyClass (c : Config) (b : Byte) : ReplyClass :=
  if b = c.invAck then .ack else if b = c.invNak then .nak else .other

/-- "Within one step of target" (R272): `currentRpm - targetRpm <= DECEL_STEP`, on natural numbers (R11). -/
def withinOneStep (s : State) : Bool :=
  decide (s.currentRpm.toNat - s.targetRpm.toNat ≤ s.cfg.decelStep.toNat)

end Sys2Proof.Machine
end

