-- ==== Sys2Proof/Machine/Bytes.lean ====
section
/-! DEFINITION. Byte order and byte values of fields: rules R11, R70, R71, R72, R126, R128. -/

namespace Sys2Proof.Machine

/-- `hi8(v) = v[15:8]` (R11). -/
def hi8 (v : Half) : Byte := v.extractLsb' 8 8

/-- `lo8(v) = v[7:0]` (R11). -/
def lo8 (v : Half) : Byte := v.extractLsb' 0 8

/-- `u16be(h, l) = {h, l}` (R11, R70). -/
def u16be (h l : Byte) : Half := h ++ l

/-- A `u16` field of a bus frame as its two bytes (R71, R125): high byte first when `BUS_U16_HIGH_FIRST`. -/
def putBus16 (highFirst : Bool) (v : Half) : List Byte :=
  if highFirst then [hi8 v, lo8 v] else [lo8 v, hi8 v]

/-- A `u16` field of a bus frame read from its two bytes (R71, R125). -/
def getBus16 (highFirst : Bool) (first second : Byte) : Half :=
  if highFirst then u16be first second else u16be second first

/-- A boolean as a byte: 1 for true, 0 for false (R126). -/
def putBool (b : Bool) : Byte := if b then 1#8 else 0#8

/-- A byte as a boolean: any non-zero byte is true (R126). -/
def getBool (b : Byte) : Bool := b != 0#8

/-- The direction that `clockwise` names: true for `CW` (R126). -/
def directionOf (clockwise : Bool) : Direction := if clockwise then .cw else .ccw

/-- Whether a direction is `CW` (R126). -/
def isClockwise : Direction → Bool
  | .cw => true
  | .ccw => false

/-- The packed word `(dir|setRpm)` of `MOTOR_STATUS_DATA` (R128): bit 15 is 1 for `CW`, bits 14:0 are the set speed. -/
def packStatusWord (dir : Direction) (setRpm : BitVec 15) : Half :=
  BitVec.ofBool (isClockwise dir) ++ setRpm

/-- The direction in a packed word (R128): `CW` when `w[15] = 1`. -/
def statusWordDirection (w : Half) : Direction := directionOf (w.getLsbD 15)

/-- The set speed in a packed word (R128): `w[14:0]`. -/
def statusWordSpeed (w : Half) : BitVec 15 := w.extractLsb' 0 15

end Sys2Proof.Machine
end

