-- ==== Sys2Proof/Machine/Crc.lean ====
section
/-! DEFINITION. The CRC16 of the inverter link: rules R295 to R298. -/

namespace Sys2Proof.Machine

/-- Entry `k` of a nibble table. -/
def crcEntry (table : Vector Half 16) (k : BitVec 4) : Half :=
  table[k.toNat]'(k.isLt)

/-- One call of `CRC_STEP`: the open function, or one of the two table shapes of rule R297. -/
def crcStep (c : Config) (crc : Half) (nibble : BitVec 4) : Half :=
  match c.crcStep with
  | .configured => Config.crcStepOpen crc nibble
  | .tableHigh table => (crc <<< 4) ^^^ crcEntry table (crc.extractLsb' 12 4 ^^^ nibble)
  | .tableLow table => (crc >>> 4) ^^^ crcEntry table (crc.extractLsb' 0 4 ^^^ nibble)

/-- The two half-bytes of a byte in the order `CRC_HIGH_NIBBLE_FIRST` gives (R296). -/
def crcNibbles (c : Config) (b : Byte) : BitVec 4 × BitVec 4 :=
  if c.crcHighNibbleFirst then (b.extractLsb' 4 4, b.extractLsb' 0 4) else (b.extractLsb' 0 4, b.extractLsb' 4 4)

/-- "Half-byte processed twice per input byte" (R295, R296). -/
def crcByte (c : Config) (crc : Half) (b : Byte) : Half :=
  crcStep c (crcStep c crc (crcNibbles c b).1) (crcNibbles c b).2

/-- `crc16` (R296): seeded `0xFFFF`, the bytes in wire order, complemented at the end. -/
def crc16 (c : Config) (bytes : List Byte) : Half :=
  bytes.foldl (crcByte c) 0xFFFF#16 ^^^ 0xFFFF#16

/-- The bytes of an inverter frame: eight bytes and their CRC, high byte first (R129, R130). -/
def withCrc (c : Config) (bytes : List Byte) : List Byte :=
  bytes ++ [hi8 (crc16 c bytes), lo8 (crc16 c bytes)]

/-- `BuildCommandFrame(cmd, speed)` (R300). -/
def buildCommandFrame (c : Config) (cmd : Byte) (speed : Half) : List Byte :=
  withCrc c [cmd, hi8 speed, lo8 speed, 0#8, 0#8, 0#8, 0#8, 0#8]

end Sys2Proof.Machine
end

