-- ==== Sys2Proof/WellFormed.lean ====
section
/-! DEFINITION. The checks: a legal configuration (R8, R10, R371, R406), a deliverable bus frame (R100), a well-formed
instruction. -/

namespace Sys2Proof

/-- The constraint column of rule R8 with rules R10 and R371. A node outside it has no meaning in the spec (R39, R406). -/
abbrev Config.Legal (c : Config) : Prop :=
  c.nPorts ≤ 256 ∧ c.nAnalog ≤ 256 ∧ c.nDigital ≤ 8 ∧ c.maxRpm.toNat ≤ 0x7FFF ∧ 1 ≤ c.decelStep.toNat ∧
  c.decelInterval < 2 ^ 31 ∧ 1 ≤ c.keepAliveInterval ∧ c.keepAliveInterval < 2 ^ 31 ∧ c.statusInterval < 2 ^ 31 ∧
  1 ≤ c.tableSize ∧ 1 ≤ c.tablePins ∧ 10 ≤ c.rxDepth ∧ c.invAck ≠ c.invNak ∧
  [c.errUnknownOpcode, c.errInvalidPort, c.errInvalidPin, c.errLength].Nodup ∧
  (c.role = .coordinator → c.nPorts = 0 ∧ c.nAnalog = 0 ∧ c.nDigital = 0 ∧ c.hasMotor = false)

/-- The premise on delivered frames (R100, U1): `length` is 1 to 8. -/
abbrev BusFrame.Deliverable (f : BusFrame) : Prop := 1 ≤ f.data.length ∧ f.data.length ≤ 8

/-- Well-formed instructions. Every operand of a bus instruction and of an inverter reply is within its type; the three
commands whose payload the source does not give exist only in the frame `BuildCommandFrame(cmd, 0)` of rule R304. -/
def Instr.wellFormed : Instr → Bool
  | .activate _ => true
  | .deactivate _ => true
  | .readAnalog _ => true
  | .readDigital _ => true
  | .readAllAnalog => true
  | .readAllDigital => true
  | .motorSetRpm _ => true
  | .motorSetDir _ => true
  | .motorStop => true
  | .motorStatus => true
  | .ackActivate _ _ => true
  | .ackDeactivate _ _ => true
  | .analogData _ _ => true
  | .digitalData _ _ => true
  | .allAnalogData _ _ => true
  | .allDigitalData _ => true
  | .ackMotorRpm _ _ => true
  | .ackMotorDir _ _ => true
  | .ackMotorStop _ => true
  | .motorStatusData _ _ _ _ => true
  | .errorResponse _ _ => true
  | .invCw _ => true
  | .invCcw _ => true
  | .invUnbalanceQuery speed => speed == 0#16
  | .invLoadQuery speed => speed == 0#16
  | .invAccelProfile speed => speed == 0#16
  | .invReply _ _ _ _ _ _ _ _ => true

end Sys2Proof
end

