-- ==== Sys2Proof/Decode.lean ====
section
/-! DEFINITION. Decoding and encoding: the opcode map of rule R102, the layouts of rules R103 to R130, the minimum
lengths of rule R167; total on any bytes, rejecting by name; then the encoder, from the same layouts. -/

namespace Sys2Proof

open Sys2Proof.Machine

/-- Why a list of bytes is no instruction. -/
inductive Reject where
  /-- a bus frame with no byte (U1) -/
  | emptyFrame
  /-- `Unknown(b)` of rule R166: `data[0]` is none of the 21 opcodes -/
  | unknownOpcode (b : Byte)
  /-- `LengthError(op)` of rule R166: shorter than `minlen(op)` -/
  | lengthError (op : BusOp)
  /-- an inverter frame is always ten bytes (R135) -/
  | notTenBytes
  /-- byte 0 of an inverter command frame is none of the five of rule R131 -/
  | unknownCommand (b : Byte)
  /-- bytes 3 to 7 of a command frame are 0x00 (R129) -/
  | nonzeroFiller
  /-- a payload of `0x27`, `0xB0` or `0xA0` that the source does not give (R304 to R306) -/
  | payloadNotInSource (cmd : Byte)
  /-- bytes 8 and 9 are not the CRC of bytes 0 to 7 (R129) -/
  | crcMismatch
deriving DecidableEq, Repr

/-- A decoder's answer. -/
inductive DecodeResult where
  | decoded (i : Instr)
  | reject (r : Reject)
deriving DecidableEq, Repr

/-- The 21 opcodes (R102). -/
def BusOp.all : List BusOp :=
  [.activate, .deactivate, .readAnalog, .readDigital, .readAllAnalog, .readAllDigital,
   .motorSetRpm, .motorSetDir, .motorStop, .motorStatus,
   .ackActivate, .ackDeactivate, .analogData, .digitalData, .allAnalogData, .allDigitalData,
   .ackMotorRpm, .ackMotorDir, .ackMotorStop, .motorStatusData, .errorResponse]

/-- The opcode byte (R102). -/
def BusOp.code : BusOp → Byte
  | .activate => 0x01#8
  | .deactivate => 0x02#8
  | .readAnalog => 0x03#8
  | .readDigital => 0x04#8
  | .readAllAnalog => 0x05#8
  | .readAllDigital => 0x06#8
  | .motorSetRpm => 0x30#8
  | .motorSetDir => 0x31#8
  | .motorStop => 0x32#8
  | .motorStatus => 0x33#8
  | .ackActivate => 0x10#8
  | .ackDeactivate => 0x11#8
  | .analogData => 0x20#8
  | .digitalData => 0x21#8
  | .allAnalogData => 0x22#8
  | .allDigitalData => 0x23#8
  | .ackMotorRpm => 0x40#8
  | .ackMotorDir => 0x41#8
  | .ackMotorStop => 0x42#8
  | .motorStatusData => 0x43#8
  | .errorResponse => 0xFF#8

/-- Command opcodes flow from the coordinator to a node; the others are response opcodes (R102). -/
def BusOp.isCommand : BusOp → Bool
  | .activate | .deactivate | .readAnalog | .readDigital | .readAllAnalog | .readAllDigital
  | .motorSetRpm | .motorSetDir | .motorStop | .motorStatus => true
  | .ackActivate | .ackDeactivate | .analogData | .digitalData | .allAnalogData | .allDigitalData
  | .ackMotorRpm | .ackMotorDir | .ackMotorStop | .motorStatusData | .errorResponse => false

/-- The command opcodes a peer acts on only with a motor (R186, R197). -/
def BusOp.needsMotor : BusOp → Bool
  | .motorSetRpm | .motorSetDir | .motorStop | .motorStatus => true
  | .activate | .deactivate | .readAnalog | .readDigital | .readAllAnalog | .readAllDigital
  | .ackActivate | .ackDeactivate | .analogData | .digitalData | .allAnalogData | .allDigitalData
  | .ackMotorRpm | .ackMotorDir | .ackMotorStop | .motorStatusData | .errorResponse => false

/-- `minlen(op)` (R167), in bytes including the opcode. -/
def BusOp.minLen : BusOp → Nat
  | .activate => 2
  | .deactivate => 2
  | .readAnalog => 2
  | .readDigital => 2
  | .readAllAnalog => 1
  | .readAllDigital => 1
  | .motorSetRpm => 3
  | .motorSetDir => 2
  | .motorStop => 1
  | .motorStatus => 1
  | .ackActivate => 3
  | .ackDeactivate => 3
  | .analogData => 4
  | .digitalData => 3
  | .allAnalogData => 4
  | .allDigitalData => 2
  | .ackMotorRpm => 4
  | .ackMotorDir => 3
  | .ackMotorStop => 2
  | .motorStatusData => 6
  | .errorResponse => 3

/-- The opcode a byte is, if it is one of the 21 (R102, R133). -/
def BusOp.ofByte (b : Byte) : Option BusOp := BusOp.all.find? (fun op => op.code == b)

/-- The bus opcode of an instruction; `none` for the six of the inverter link. -/
def Instr.busOp : Instr → Option BusOp
  | .activate _ => some .activate
  | .deactivate _ => some .deactivate
  | .readAnalog _ => some .readAnalog
  | .readDigital _ => some .readDigital
  | .readAllAnalog => some .readAllAnalog
  | .readAllDigital => some .readAllDigital
  | .motorSetRpm _ => some .motorSetRpm
  | .motorSetDir _ => some .motorSetDir
  | .motorStop => some .motorStop
  | .motorStatus => some .motorStatus
  | .ackActivate _ _ => some .ackActivate
  | .ackDeactivate _ _ => some .ackDeactivate
  | .analogData _ _ => some .analogData
  | .digitalData _ _ => some .digitalData
  | .allAnalogData _ _ => some .allAnalogData
  | .allDigitalData _ => some .allDigitalData
  | .ackMotorRpm _ _ => some .ackMotorRpm
  | .ackMotorDir _ _ => some .ackMotorDir
  | .ackMotorStop _ => some .ackMotorStop
  | .motorStatusData _ _ _ _ => some .motorStatusData
  | .errorResponse _ _ => some .errorResponse
  | .invCw _ => none
  | .invCcw _ => none
  | .invUnbalanceQuery _ => none
  | .invLoadQuery _ => none
  | .invAccelProfile _ => none
  | .invReply _ _ _ _ _ _ _ _ => none

/-- The fields of `op` read from the bytes after the opcode, by the layout rule of `op` (R103 to R124); bytes past the
layout are ignored (R168). `none` when a field is missing. -/
def readFields (highFirst : Bool) (op : BusOp) (rest : List Byte) : Option Instr :=
  match op with
  | .activate => match rest with | port :: _ => some (.activate port) | _ => none
  | .deactivate => match rest with | port :: _ => some (.deactivate port) | _ => none
  | .readAnalog => match rest with | pin :: _ => some (.readAnalog pin) | _ => none
  | .readDigital => match rest with | pin :: _ => some (.readDigital pin) | _ => none
  | .readAllAnalog => some .readAllAnalog
  | .readAllDigital => some .readAllDigital
  | .motorSetRpm => match rest with | a :: b :: _ => some (.motorSetRpm (getBus16 highFirst a b)) | _ => none
  | .motorSetDir => match rest with | cw :: _ => some (.motorSetDir (getBool cw)) | _ => none
  | .motorStop => some .motorStop
  | .motorStatus => some .motorStatus
  | .ackActivate => match rest with | port :: status :: _ => some (.ackActivate port status) | _ => none
  | .ackDeactivate => match rest with | port :: status :: _ => some (.ackDeactivate port status) | _ => none
  | .analogData =>
    match rest with
    | pin :: a :: b :: _ => some (.analogData pin (getBus16 highFirst a b))
    | _ => none
  | .digitalData => match rest with | pin :: value :: _ => some (.digitalData pin (getBool value)) | _ => none
  | .allAnalogData =>
    match rest with
    | p :: a :: b :: q :: c :: d :: _ =>
      some (.allAnalogData ⟨p, getBus16 highFirst a b⟩ (some ⟨q, getBus16 highFirst c d⟩))
    | p :: a :: b :: _ => some (.allAnalogData ⟨p, getBus16 highFirst a b⟩ none)
    | _ => none
  | .allDigitalData => match rest with | bits :: _ => some (.allDigitalData bits) | _ => none
  | .ackMotorRpm =>
    match rest with
    | a :: b :: status :: _ => some (.ackMotorRpm (getBus16 highFirst a b) status)
    | _ => none
  | .ackMotorDir =>
    match rest with
    | dir :: status :: _ => some (.ackMotorDir (directionOf (getBool dir)) status)
    | _ => none
  | .ackMotorStop => match rest with | status :: _ => some (.ackMotorStop status) | _ => none
  | .motorStatusData =>
    match rest with
    | a :: b :: c :: d :: fault :: _ =>
      some (.motorStatusData (getBus16 highFirst a b) (statusWordDirection (getBus16 highFirst c d))
        (statusWordSpeed (getBus16 highFirst c d)) fault)
    | _ => none
  | .errorResponse => match rest with | subject :: code :: _ => some (.errorResponse subject code) | _ => none

/-- `decode` (R166) of a bus frame's data bytes: opcode, then length, then fields. -/
def decodeBus (highFirst : Bool) (data : List Byte) : DecodeResult :=
  match data with
  | [] => .reject .emptyFrame
  | b :: rest =>
    match BusOp.ofByte b with
    | none => .reject (.unknownOpcode b)
    | some op =>
      if data.length < op.minLen then .reject (.lengthError op)
      else match readFields highFirst op rest with
        | some i => .decoded i
        | none => .reject (.lengthError op)

/-- One of the three commands the source lists without a payload (R304 to R306): only the frame of speed 0 is given. -/
def unexercised (cmd : Byte) (speed : Half) (i : Instr) : DecodeResult :=
  if speed = 0#16 then .decoded i else .reject (.payloadNotInSource cmd)

/-- The inverter command that byte 0 and the speed field name (R131). -/
def commandOf (cmd : Byte) (speed : Half) : DecodeResult :=
  if cmd = 0x14#8 then .decoded (.invCw speed)
  else if cmd = 0x18#8 then .decoded (.invCcw speed)
  else if cmd = 0x27#8 then unexercised cmd speed (.invUnbalanceQuery speed)
  else if cmd = 0xB0#8 then unexercised cmd speed (.invLoadQuery speed)
  else if cmd = 0xA0#8 then unexercised cmd speed (.invAccelProfile speed)
  else .reject (.unknownCommand cmd)

/-- Bytes 0 to 7 of an inverter command frame (R129). -/
def decodeCommandBody (bytes : List Byte) : DecodeResult :=
  match bytes with
  | cmd :: h :: l :: z3 :: z4 :: z5 :: z6 :: z7 :: _ =>
    if [z3, z4, z5, z6, z7] = [0#8, 0#8, 0#8, 0#8, 0#8] then commandOf cmd (u16be h l) else .reject .nonzeroFiller
  | _ => .reject .notTenBytes

/-- A whole inverter command frame (R129): ten bytes, the CRC first, then the body. -/
def decodeCommand (c : Config) (bytes : List Byte) : DecodeResult :=
  match bytes with
  | [b0, b1, b2, b3, b4, b5, b6, b7, h, l] =>
    if u16be h l = crc16 c [b0, b1, b2, b3, b4, b5, b6, b7] then decodeCommandBody [b0, b1, b2, b3, b4, b5, b6, b7]
    else .reject .crcMismatch
  | _ => .reject .notTenBytes

/-- The first ten bytes of a received stream as a reply frame (R130); every byte 0 is accepted (R134), and the CRC is
judged when the frame is executed (R310). -/
def decodeReply (bytes : List Byte) : DecodeResult :=
  match bytes with
  | cls :: echo :: ah :: al :: b4 :: fault :: b6 :: b7 :: ch :: cl :: _ =>
    .decoded (.invReply cls echo (u16be ah al) b4 fault b6 b7 (u16be ch cl))
  | _ => .reject .notTenBytes

/-- The bytes of a word numbered as spec/opcode_table.json numbers bits: byte `k` is bits `8k+7 .. 8k`. -/
def wordBytes : Nat → Nat → List Byte
  | 0, _ => []
  | n + 1, w => BitVec.ofNat 8 w :: wordBytes n (w / 256)

/-- The bytes of an instruction of `nbits` table bits: the bits above `nbits` are 0. -/
def tableBytes (len nbits w : Nat) : List Byte := wordBytes len (w % 2 ^ nbits)

/-- The length of the bus frame that a table word stands in: the bytes the table gives, at least `minlen(op)` and at
most 8 (R100, R167). -/
def busWordLength (op : BusOp) (nbits : Nat) : Nat := min 8 (max (nbits / 8) op.minLen)

/-- The five inverter command bytes (R131). -/
def isCommandByte (b : Byte) : Bool := [0x14#8, 0x18#8, 0x27#8, 0xB0#8, 0xA0#8].contains b

/-- Which of the three encodings a table word is read in (log entry 13): its first byte is one of the 21 bus opcodes,
or one of the five inverter command bytes, or the first byte of a reply frame. The first two sets are disjoint. -/
inductive WordKind where
  | bus (op : BusOp)
  | command
  | reply
deriving DecidableEq, Repr

/-- The kind of a table word, by its first byte. -/
def wordKind (w : Nat) : WordKind :=
  match BusOp.ofByte (BitVec.ofNat 8 w) with
  | some op => .bus op
  | none => if isCommandByte (BitVec.ofNat 8 w) then .command else .reply

/-- The instruction that the word `w` of `nbits` bits stands for, in the spec's byte order (R71). The table gives a
command frame no CRC bits, so its CRC is not read here (log entry 13). -/
def decodeWord (nbits w : Nat) : DecodeResult :=
  match wordKind (w % 2 ^ nbits) with
  | .bus op => decodeBus true (tableBytes (busWordLength op nbits) nbits w)
  | .command => decodeCommandBody (tableBytes 8 nbits w)
  | .reply => decodeReply (tableBytes 10 nbits w)

/-- The instruction the decoder reads from a word of spec/opcode_table.json. -/
def decodeTableWord (nbits w : Nat) : Option Instr :=
  match decodeWord nbits w with
  | .decoded i => some i
  | .reject _ => none

/-! ### The encoder -/

/-- The bytes of one (pin, value) triple (R118). -/
def encodeReading (highFirst : Bool) (r : AnalogReading) : List Byte := r.pin :: putBus16 highFirst r.value

/-- `encode` (R165): the data bytes of a bus frame, or the ten bytes of an inverter frame (R129, R130). A reply is
written with the CRC it carries, a command with the CRC of its first eight bytes. -/
def encode (c : Config) : Instr → List Byte
  | .activate port => [0x01#8, port]
  | .deactivate port => [0x02#8, port]
  | .readAnalog pin => [0x03#8, pin]
  | .readDigital pin => [0x04#8, pin]
  | .readAllAnalog => [0x05#8]
  | .readAllDigital => [0x06#8]
  | .motorSetRpm rpm => 0x30#8 :: putBus16 c.busU16HighFirst rpm
  | .motorSetDir clockwise => [0x31#8, putBool clockwise]
  | .motorStop => [0x32#8]
  | .motorStatus => [0x33#8]
  | .ackActivate port status => [0x10#8, port, status]
  | .ackDeactivate port status => [0x11#8, port, status]
  | .analogData pin value => 0x20#8 :: pin :: putBus16 c.busU16HighFirst value
  | .digitalData pin high => [0x21#8, pin, putBool high]
  | .allAnalogData first none => 0x22#8 :: encodeReading c.busU16HighFirst first
  | .allAnalogData first (some second) =>
    0x22#8 :: (encodeReading c.busU16HighFirst first ++ encodeReading c.busU16HighFirst second)
  | .allDigitalData bits => [0x23#8, bits]
  | .ackMotorRpm rpm status => 0x40#8 :: (putBus16 c.busU16HighFirst rpm ++ [status])
  | .ackMotorDir dir status => [0x41#8, putBool (isClockwise dir), status]
  | .ackMotorStop status => [0x42#8, status]
  | .motorStatusData actualRpm dir setRpm fault =>
    0x43#8 :: (putBus16 c.busU16HighFirst actualRpm
      ++ putBus16 c.busU16HighFirst (packStatusWord dir setRpm) ++ [fault])
  | .errorResponse subject code => [0xFF#8, subject, code]
  | .invCw speed => buildCommandFrame c 0x14#8 speed
  | .invCcw speed => buildCommandFrame c 0x18#8 speed
  | .invUnbalanceQuery speed => buildCommandFrame c 0x27#8 speed
  | .invLoadQuery speed => buildCommandFrame c 0xB0#8 speed
  | .invAccelProfile speed => buildCommandFrame c 0xA0#8 speed
  | .invReply cls echo actual byte4 fault byte6 byte7 crc =>
    [cls, echo, hi8 actual, lo8 actual, byte4, fault, byte6, byte7, hi8 crc, lo8 crc]

end Sys2Proof
end

