-- ==== Sys2Proof/Machine/Operands.lean ====
section
/-! DEFINITION. Operand forms: index ranges (R42), supported opcodes (R186), the clamp (R266), table keys (R79), packing of
bitfields and readings (R170, R171), the analog transform (R199), fields built from registers (R209, R301). -/

namespace Sys2Proof.Machine

/-- A port index is valid exactly when it is below `N_PORTS` (R42). -/
def portValid (c : Config) (port : Byte) : Bool := decide (port.toNat < c.nPorts)

/-- An analog pin index is valid exactly when it is below `N_ANALOG` (R42). -/
def analogPinValid (c : Config) (pin : Byte) : Bool := decide (pin.toNat < c.nAnalog)

/-- A digital pin index is valid exactly when it is below `N_DIGITAL` (R42). -/
def digitalPinValid (c : Config) (pin : Byte) : Bool := decide (pin.toNat < c.nDigital)

/-- The supported opcodes of a peer (R186). -/
def supported (c : Config) (op : BusOp) : Bool := op.isCommand && (!op.needsMotor || c.hasMotor)

/-- The clamp `c = min(r, MAX_RPM)` (R266). -/
def clampRpm (c : Config) (r : Half) : Half := if r.toNat ≤ c.maxRpm.toNat then r else c.maxRpm

/-- `slot(address) = address mod TABLE_SIZE`, on the address as a natural number (R79). -/
def slotOf (c : Config) (address : Addr) : Nat := address.toNat % c.tableSize

/-- The key of the entry at a slot and pin: a pin is a `u8`, so no two entries share a key (log entry 8). -/
def tabKey (slot : Nat) (pin : Byte) : Nat := slot * 256 + pin.toNat

/-- A pin of the sensor table is below `TABLE_PINS` (R251). -/
def tablePinValid (c : Config) (pin : Byte) : Bool := decide (pin.toNat < c.tablePins)

/-- `ANALOG_TRANSFORM(pin, raw)` (R199). -/
def analogValue (c : Config) (pin : Byte) (raw : Half) : Half :=
  match c.analogTransform with
  | .identity => raw
  | .configured => Config.analogTransformOpen pin raw

/-- The indices `0 .. n-1` as bytes, in ascending order. -/
def pinsBelow (n : Nat) : List Byte := (List.range n).map (BitVec.ofNat 8)

/-- `packDigital` (R170), the bits from position `i` up. -/
def packFrom (i : Nat) : List Bool → Byte
  | [] => 0#8
  | l :: ls => (if l then 1#8 <<< i else 0#8) ||| packFrom (i + 1) ls

/-- `packDigital(levels)` (R170): `bits[i] = 1` for each HIGH pin `i`, 0 elsewhere. -/
def packDigital (levels : List Bool) : Byte := packFrom 0 levels

/-- `unpackDigital(bits)` (R170): always eight levels. -/
def unpackDigital (bits : Byte) : List Bool := (List.range 8).map fun i => bits.getLsbD i

/-- `packAllAnalog(readings)` (R171): two readings at a time from the front, an odd last one alone. -/
def packAllAnalog : List AnalogReading → List Instr
  | [] => []
  | [a] => [.allAnalogData a none]
  | a :: b :: rest => .allAnalogData a (some b) :: packAllAnalog rest

/-- The readings an `ALL_ANALOG_DATA` frame carries, in frame order (R226). -/
def frameReadings (first : AnalogReading) : Option AnalogReading → List AnalogReading
  | none => [first]
  | some second => [first, second]

/-- The status byte of every acknowledgement (R127). -/
def ackStatus : Byte := 0#8

/-- The status frame of the registers as they are (R209): the set speed is `currentRpm[14:0]`. -/
def statusInstr (s : State) : Instr :=
  .motorStatusData s.actualRpm s.direction (s.currentRpm.extractLsb' 0 15) s.fault

/-- The command byte of a direction (R301). -/
def commandByte : Direction → Byte
  | .cw => 0x14#8
  | .ccw => 0x18#8

/-- The registers `status()` returns (R278). -/
def localStatus (s : State) : LocalStatus where
  currentRpm := s.currentRpm
  targetRpm := s.targetRpm
  commandedRpm := s.commandedRpm
  direction := s.direction
  decelerating := s.decelerating
  actualRpm := s.actualRpm
  fault := s.fault
  lastReply := s.lastReply

end Sys2Proof.Machine
end

