-- ==== Sys2Proof/Machine/Table.lean ====
section
/-! DEFINITION. Sparse tables: lists of (key, entry) pairs with strictly rising keys, the one canonical form of the output
latch and of the sensor table (log entry 8). -/

namespace Sys2Proof.Machine

/-- The canonical form: strictly rising keys, so that equal tables are equal lists. -/
abbrev Table.Sorted {α : Type} (l : List (Nat × α)) : Prop := (l.map Prod.fst).Pairwise (· < ·)

/-- The entry at a key, if one is listed. -/
def Table.find {α : Type} (k : Nat) : List (Nat × α) → Option α
  | [] => none
  | (a, v) :: t => if a = k then some v else Table.find k t

/-- The table with the entry at `k` replaced by `v`, every other entry as before. -/
def Table.insert {α : Type} (k : Nat) (v : α) : List (Nat × α) → List (Nat × α)
  | [] => [(k, v)]
  | (a, w) :: t =>
    if k < a then (k, v) :: (a, w) :: t
    else if k = a then (k, v) :: t
    else (a, w) :: Table.insert k v t

end Sys2Proof.Machine
end

