-- ==== Sys2Proof/Machine/Ops.lean ====
section
/-! DEFINITION. The named operations: interface calls (R13, R150 to R157), the output latch (R32), the sensor table (R250 to
R252), the receive FIFO (R307), replies (R187), taking a protocol error and the return from it (R356, R365). -/

namespace Sys2Proof.Machine

/-! ### The environment's answers -/

/-- The next input (R7). With none listed the node iterates (R337) and the environment's answers are free (U8). -/
def Env.nextInput (e : Env) : Input × Env :=
  match e.inputs with
  | i :: rest => (i, { e with inputs := rest })
  | [] => (.iteration (Config.freeAdvance e.draws) (Config.freeReceive e.draws), { e with draws := e.draws + 1 })

/-- The outcome of the next `BusSend` (R152), free when none is listed (U8). -/
def Env.nextSend (e : Env) : SendOutcome × Env :=
  match e.sendAnswers with
  | r :: rest => (r, { e with sendAnswers := rest })
  | [] => (Config.freeSend e.draws, { e with draws := e.draws + 1 })

/-- The answer of the next `GpioReadAnalog(pin)` (R376), free when none is listed (U8). -/
def Env.nextAnalog (pin : Byte) (e : Env) : Half × Env :=
  match e.analogAnswers with
  | v :: rest => (v, { e with analogAnswers := rest })
  | [] => (Config.freeAnalog e.draws pin, { e with draws := e.draws + 1 })

/-- The answer of the next `GpioReadDigital(pin)` (R376), free when none is listed (U8). -/
def Env.nextDigital (pin : Byte) (e : Env) : Bool × Env :=
  match e.digitalAnswers with
  | v :: rest => (v, { e with digitalAnswers := rest })
  | [] => (Config.freeDigital e.draws pin, { e with draws := e.draws + 1 })

/-- One more observation at the end of the trace. -/
def Env.observe (o : Observation) (e : Env) : Env := { e with trace := e.trace ++ [o] }

/-! ### The bus transport -/

/-- `BusSend(frame)` (R152): its operands are the frame and the timeout, its outcome the environment's answer, which the
timeout does not decide for the model. -/
def Env.busSend (f : BusFrame) (timeout : Nat) (e : Env) : SendOutcome × Env :=
  (e.nextSend.1, e.nextSend.2.observe (.busSend f timeout e.nextSend.1))

/-- `BusRecover()` (R153). -/
def Env.busRecover (e : Env) : Env := e.observe .busRecover

/-- The second attempt of rule R154 and, when it fails too, the drop (R155). -/
def Env.retrySend (f : BusFrame) (timeout : Nat) (first : SendOutcome) (e : Env) : SendResult × Env :=
  match (e.busSend f timeout).1 with
  | .ok => (.sent, (e.busSend f timeout).2)
  | .timeout => (.dropped, (e.busSend f timeout).2.observe (.hostEvent (.txDropped f first .timeout)))
  | .busOff => (.dropped, (e.busSend f timeout).2.observe (.hostEvent (.txDropped f first .busOff)))

/-- `SendWithRetry(frame)` (R154): one retry after either failure, `BusRecover` after a first `BusOff` only. -/
def Env.sendWithRetry (f : BusFrame) (timeout : Nat) (e : Env) : SendResult × Env :=
  match (e.busSend f timeout).1 with
  | .ok => (.sent, (e.busSend f timeout).2)
  | .timeout => (e.busSend f timeout).2.retrySend f timeout .timeout
  | .busOff => (e.busSend f timeout).2.busRecover.retrySend f timeout .busOff

/-! ### Interface calls of the node -/

/-- One observation of the node. -/
def observe (o : Observation) (s : State) : State := { s with env := s.env.observe o }

/-- `SendWithRetry(frame)`, its result not looked at (R154: "no rule reads the result"); each attempt is handed the
node's `SEND_TIMEOUT` (R152). -/
def sendFrame (f : BusFrame) (s : State) : State := { s with env := (s.env.sendWithRetry f s.cfg.sendTimeout).2 }

/-- `Reply(bytes)` (R187): one response frame under the node's own address. -/
def reply (bytes : List Byte) (s : State) : State := sendFrame ⟨s.cfg.selfAddress, bytes⟩ s

/-- A reply of the layout of `i` (R113, R165). -/
def replyWith (i : Instr) (s : State) : State := reply (encode s.cfg i) s

/-- `SerialSend(bytes)` (R314): the bytes are handed over in order; it never fails and never waits. -/
def serialSend (bytes : List Byte) (s : State) : State := observe (.serialSend bytes) s

/-- `HostEvent(e)` (R13). -/
def hostEvent (e : HostEvent) (s : State) : State := observe (.hostEvent e) s

/-- The `Response` event of the frame in dispatch (R222 to R232): the address is the frame's. -/
def responseEvent (r : Response) (s : State) : State := hostEvent (.response s.rxAddr r) s

/-- The result of a host call (R336). -/
def hostReturn (r : HostResult) (s : State) : State := observe (.hostReturn r) s

/-! ### GPIO and the output latch -/

/-- The level last driven onto a port (R32); `none` is `Unwritten`. -/
def latchRead (s : State) (port : Nat) : Option Level := Table.find port s.outLatch

/-- `GpioSet(port, level); outLatch[port] <- level` (R189, R190). -/
def driveOutput (port : Byte) (level : Level) (s : State) : State :=
  observe (.gpioSet port level) { s with outLatch := Table.insert port.toNat level s.outLatch }

/-- `GpioReadAnalog(pin)` (R191). -/
def sampleAnalog (pin : Byte) (s : State) : Half × State :=
  ((s.env.nextAnalog pin).1,
    { s with env := (s.env.nextAnalog pin).2.observe (.gpioReadAnalog pin (s.env.nextAnalog pin).1) })

/-- `GpioReadDigital(pin)` (R192). -/
def sampleDigital (pin : Byte) (s : State) : Bool × State :=
  ((s.env.nextDigital pin).1,
    { s with env := (s.env.nextDigital pin).2.observe (.gpioReadDigital pin (s.env.nextDigital pin).1) })

/-- The readings of a list of analog pins, each sampled once, in list order (R193). -/
def sampleAnalogPins : List Byte → State → List AnalogReading × State
  | [], s => ([], s)
  | pin :: pins, s =>
    (⟨pin, analogValue s.cfg pin (sampleAnalog pin s).1⟩ :: (sampleAnalogPins pins (sampleAnalog pin s).2).1,
      (sampleAnalogPins pins (sampleAnalog pin s).2).2)

/-- The levels of a list of digital pins, each sampled once, in list order (R194). -/
def sampleDigitalPins : List Byte → State → List Bool × State
  | [], s => ([], s)
  | pin :: pins, s =>
    ((sampleDigital pin s).1 :: (sampleDigitalPins pins (sampleDigital pin s).2).1,
      (sampleDigitalPins pins (sampleDigital pin s).2).2)

/-- `for bytes in …: Reply(bytes)` (R172, R193): each frame by its own `SendWithRetry`, in list order. -/
def replyAll : List Instr → State → State
  | [], s => s
  | i :: rest, s => replyAll rest (replyWith i s)

/-! ### The sensor table -/

/-- `TabRead(Analog, slot, pin)` (R13, R36): `none` when the entry is invalid. -/
def analogRead (s : State) (slot : Nat) (pin : Byte) : Option AnalogEntry := Table.find (tabKey slot pin) s.analogTab

/-- `TabRead(Digital, slot, pin)` (R13, R36): `none` when the entry is invalid. -/
def digitalRead (s : State) (slot : Nat) (pin : Byte) : Option DigitalEntry := Table.find (tabKey slot pin) s.digitalTab

/-- `store(address, pin, value, isAnalog = true, now)` (R250); a pin at or above `TABLE_PINS` writes nothing (R251). -/
def storeAnalog (address : Addr) (pin : Byte) (value : Half) (s : State) : State :=
  if tablePinValid s.cfg pin then
    { s with analogTab := Table.insert (tabKey (slotOf s.cfg address) pin) ⟨value, s.now⟩ s.analogTab }
  else s

/-- `store(address, pin, level, isAnalog = false, now)` (R250, R251). -/
def storeDigital (address : Addr) (pin : Byte) (level : Bool) (s : State) : State :=
  if tablePinValid s.cfg pin then
    { s with digitalTab := Table.insert (tabKey (slotOf s.cfg address) pin) ⟨level, s.now⟩ s.digitalTab }
  else s

/-- One `store` per triple, in frame order (R226). -/
def storeReadings (address : Addr) : List AnalogReading → State → State
  | [], s => s
  | r :: rest, s => storeReadings address rest (storeAnalog address r.pin r.value s)

/-- One `store` per level, pins from `i` up (R227). -/
def storeLevels (address : Addr) : Nat → List Bool → State → State
  | _, [], s => s
  | i, l :: rest, s => storeLevels address (i + 1) rest (storeDigital address (BitVec.ofNat 8 i) l s)

/-- An analog entry as `get` returns it (R252). -/
def analogReading : Option AnalogEntry → Reading
  | some e => .analog e.value e.timestamp
  | none => .invalid

/-- A digital entry as `get` returns it (R252). -/
def digitalReading : Option DigitalEntry → Reading
  | some e => .digital e.level e.timestamp
  | none => .invalid

/-- `get(address, pin, isAnalog)` (R252); a pin at or above `TABLE_PINS` reads `Invalid` (R251). -/
def getReading (s : State) (address : Addr) (pin : Byte) (isAnalog : Bool) : Reading :=
  if tablePinValid s.cfg pin then
    if isAnalog then analogReading (analogRead s (slotOf s.cfg address) pin)
    else digitalReading (digitalRead s (slotOf s.cfg address) pin)
  else .invalid

/-! ### The receive FIFO -/

/-- `RxPush(byte)` (R307): a byte arriving on a full FIFO is lost. -/
def rxPush (b : Byte) (s : State) : State :=
  if s.rxFifo.length < s.cfg.rxDepth then { s with rxFifo := s.rxFifo ++ [b] } else s

/-! ### Taking a protocol error, and the return from it -/

/-- `raise ProtocolError(subject, code)` (R356): the error reply, and the processing of the frame ends. The return is the
last line, `dstate <- Idle` (R365). -/
def raiseProtocolError (subject code : Byte) (s : State) : State :=
  { replyWith (.errorResponse subject code) s with dstate := .idle }

/-- The reaction to an opcode the peer does not support (R195 to R197, R351). -/
def raiseUnknownOpcode (op : BusOp) (s : State) : State :=
  raiseProtocolError op.code s.cfg.errUnknownOpcode s

/-! ### Roles (R370, R371): what a decoded instruction does on which node -/

/-- A command that every peer supports (R186); a coordinator discards it (R221). -/
def onPeer (s : State) (body : State) : Host.Outcome State Fault Refusal :=
  .next (if s.cfg.role = .peer then body else s)

/-- A motor command (R186): a peer without a motor answers unknown-opcode (R197), a coordinator discards it (R221). -/
def onMotorPeer (op : BusOp) (s : State) (body : State) : Host.Outcome State Fault Refusal :=
  .next (if s.cfg.role = .peer then (if s.cfg.hasMotor then body else raiseUnknownOpcode op s) else s)

/-- A response (R220): a peer answers unknown-opcode (R196). -/
def onCoordinator (op : BusOp) (s : State) (body : State) : Host.Outcome State Fault Refusal :=
  .next (if s.cfg.role = .coordinator then body else raiseUnknownOpcode op s)

/-- The next state goes on to `k`; a stop stays a stop. -/
def andThen (o : Host.Outcome State Fault Refusal) (k : State → Host.Outcome State Fault Refusal) :
    Host.Outcome State Fault Refusal :=
  match o with
  | .next s => k s
  | .fault r => .fault r
  | .refused r => .refused r

end Sys2Proof.Machine
end

