-- ==== Sys2Proof/Machine/Coordinator.lean ====
section
/-! DEFINITION. The coordinator: the eleven response opcodes (44_coordinator.md, R222 to R232) and the client functions
(R233 to R241). -/

namespace Sys2Proof.Machine

/-- `ACK_ACTIVATE(port, status)` (R222). -/
def execAckActivate (port status : Byte) (s : State) : Host.Outcome State Fault Refusal :=
  onCoordinator .ackActivate s (responseEvent (.ackActivate port status) s)

/-- `ACK_DEACTIVATE(port, status)` (R223). -/
def execAckDeactivate (port status : Byte) (s : State) : Host.Outcome State Fault Refusal :=
  onCoordinator .ackDeactivate s (responseEvent (.ackDeactivate port status) s)

/-- `ANALOG_DATA(pin, value)` (R224). -/
def execAnalogData (pin : Byte) (value : Half) (s : State) : Host.Outcome State Fault Refusal :=
  onCoordinator .analogData s (storeAnalog s.rxAddr pin value s)

/-- `DIGITAL_DATA(pin, level)` (R225). -/
def execDigitalData (pin : Byte) (high : Bool) (s : State) : Host.Outcome State Fault Refusal :=
  onCoordinator .digitalData s (storeDigital s.rxAddr pin high s)

/-- `ALL_ANALOG_DATA` (R226): a `store` for each triple in frame order. -/
def execAllAnalogData (first : AnalogReading) (second : Option AnalogReading) (s : State) :
    Host.Outcome State Fault Refusal :=
  onCoordinator .allAnalogData s (storeReadings s.rxAddr (frameReadings first second) s)

/-- `ALL_DIGITAL_DATA(bits)` (R227): all eight pins are stored. -/
def execAllDigitalData (bits : Byte) (s : State) : Host.Outcome State Fault Refusal :=
  onCoordinator .allDigitalData s (storeLevels s.rxAddr 0 (unpackDigital bits) s)

/-- `ACK_MOTOR_RPM(rpm, status)` (R228). -/
def execAckMotorRpm (rpm : Half) (status : Byte) (s : State) : Host.Outcome State Fault Refusal :=
  onCoordinator .ackMotorRpm s (responseEvent (.ackMotorRpm rpm status) s)

/-- `ACK_MOTOR_DIR(dir, status)` (R229). -/
def execAckMotorDir (dir : Direction) (status : Byte) (s : State) : Host.Outcome State Fault Refusal :=
  onCoordinator .ackMotorDir s (responseEvent (.ackMotorDir dir status) s)

/-- `ACK_MOTOR_STOP(status)` (R230). -/
def execAckMotorStop (status : Byte) (s : State) : Host.Outcome State Fault Refusal :=
  onCoordinator .ackMotorStop s (responseEvent (.ackMotorStop status) s)

/-- `MOTOR_STATUS_DATA(actualRpm, dir, setRpm, fault)` (R231): the coordinator keeps no copy. -/
def execMotorStatusData (actualRpm : Half) (dir : Direction) (setRpm : BitVec 15) (fault : Byte) (s : State) :
    Host.Outcome State Fault Refusal :=
  onCoordinator .motorStatusData s (responseEvent (.motorStatusData actualRpm dir setRpm fault) s)

/-- `ERROR_RESPONSE(subject, code)` (R232). -/
def execErrorResponse (subject code : Byte) (s : State) : Host.Outcome State Fault Refusal :=
  onCoordinator .errorResponse s (responseEvent (.errorResponse subject code) s)

/-- A client function (R233 to R241): one command frame under the target peer's address, one `SendWithRetry`, and its
result to the host. -/
def clientSend (address : Addr) (command : Instr) (s : State) : State :=
  hostReturn (.sent (s.env.sendWithRetry ⟨address, encode s.cfg command⟩ s.cfg.sendTimeout).1)
    (sendFrame ⟨address, encode s.cfg command⟩ s)

/-- The command of `setOutput` (R237). -/
def outputCommand (port : Byte) (on : Bool) : Instr := if on then .activate port else .deactivate port

end Sys2Proof.Machine
end

