-- ==== Sys2Proof/Machine/Inverter.lean ====
section
/-! DEFINITION. The inverter link as operations: the five command frames (47_inverter_link.md, R300 to R306) and the reply
frame (R310 to R313). -/

namespace Sys2Proof.Machine

/-- A command frame on the serial line (R300, R314). Only a node with a motor has the link (R20). -/
def sendCommand (cmd : Byte) (speed : Half) (s : State) : Host.Outcome State Fault Refusal :=
  if s.cfg.hasMotor then .next (serialSend (buildCommandFrame s.cfg cmd speed) s) else .refused .noInverterLink

/-- A command that no rule of the block sends (R304 to R306): "if a host is given one, the frame is
`BuildCommandFrame(cmd, 0)`"; any other payload is not in the source. -/
def sendQuery (cmd : Byte) (speed : Half) (s : State) : Host.Outcome State Fault Refusal :=
  if s.cfg.hostInverterQueries then
    if speed = 0#16 then sendCommand cmd 0#16 s else .refused .inverterPayloadUnknown
  else .refused .inverterQueryNotGiven

/-- Inverter command `CW` (R302). -/
def execInvCw (speed : Half) (s : State) : Host.Outcome State Fault Refusal := sendCommand 0x14#8 speed s

/-- Inverter command `CCW` (R303). -/
def execInvCcw (speed : Half) (s : State) : Host.Outcome State Fault Refusal := sendCommand 0x18#8 speed s

/-- Inverter command `unbalance-query` (R304). -/
def execInvUnbalanceQuery (speed : Half) (s : State) : Host.Outcome State Fault Refusal := sendQuery 0x27#8 speed s

/-- Inverter command `load-query` (R305). -/
def execInvLoadQuery (speed : Half) (s : State) : Host.Outcome State Fault Refusal := sendQuery 0xB0#8 speed s

/-- Inverter command `accel-profile` (R306). -/
def execInvAccelProfile (speed : Half) (s : State) : Host.Outcome State Fault Refusal := sendQuery 0xA0#8 speed s

/-- `FrameValid(f)` (R310): the CRC of bytes 0 to 7 is the received one; nothing else is tested. -/
def frameValid (c : Config) (bytes : List Byte) (crc : Half) : Bool := crc16 c bytes == crc

/-- `AcceptReply(f)` (R311, R312). -/
def acceptReply (cls echo : Byte) (actual : Half) (fault : Byte) (s : State) : State :=
  { s with actualRpm := actual, fault := fault, lastReply := replyClass s.cfg cls, lastEcho := echo }

/-- A consumed reply frame (R308): accepted on its CRC alone, else dropped whole without any other effect (R313). -/
def execInvReply (cls echo : Byte) (actual : Half) (byte4 fault byte6 byte7 : Byte) (crc : Half) (s : State) :
    Host.Outcome State Fault Refusal :=
  if s.cfg.hasMotor then
    .next
      (if frameValid s.cfg [cls, echo, hi8 actual, lo8 actual, byte4, fault, byte6, byte7] crc then
        acceptReply cls echo actual fault s
      else s)
  else .refused .noInverterLink

end Sys2Proof.Machine
end

