-- ==== Sys2Proof/Machine/Motor.lean ====
section
/-! DEFINITION. The motor speed ramp (46_motor_ramp.md, R265 to R282) and the four motor opcodes
(43_dispatch_motor.md, R205 to R211). -/

namespace Sys2Proof.Machine

/-- `EmitInverterCommand()` (R301): direction and `currentRpm` of this moment in one command frame. -/
def emitInverterCommand (s : State) : State :=
  serialSend (buildCommandFrame s.cfg (commandByte s.direction) s.currentRpm) s

/-- `SetRpmUp(c)` (R267). -/
def setRpmUp (c : Half) (s : State) : State :=
  emitInverterCommand { s with currentRpm := c, targetRpm := c, decelerating := false }

/-- `SetRpmDown(c, now)` (R268): the step clock starts only when a deceleration is newly entered. -/
def setRpmDown (c : Half) (s : State) : State :=
  { s with
    targetRpm := c
    lastStepTime := if s.decelerating then s.lastStepTime else s.now
    decelerating := true }

/-- `setRpm(r, now)` (R266). -/
def setRpm (r : Half) (s : State) : State :=
  if s.currentRpm.toNat ≤ (clampRpm s.cfg r).toNat then
    setRpmUp (clampRpm s.cfg r) { s with commandedRpm := clampRpm s.cfg r }
  else
    setRpmDown (clampRpm s.cfg r) { s with commandedRpm := clampRpm s.cfg r }

/-- One due step of the ramp (R272): snap when within one step of the target, else subtract `DECEL_STEP`. -/
def rampStep (s : State) : State :=
  emitInverterCommand
    (if withinOneStep s then
      { s with lastStepTime := s.now, currentRpm := s.targetRpm, decelerating := false }
    else
      { s with lastStepTime := s.now, currentRpm := s.currentRpm - s.cfg.decelStep })

/-- `RampTick(now)` (R272). -/
def rampTick (s : State) : State :=
  if s.decelerating && due s.now s.lastStepTime s.cfg.decelInterval then rampStep s else s

/-- `setDirection(d, now)` (R274). -/
def setDirection (d : Direction) (s : State) : State := emitInverterCommand { s with direction := d }

/-- `stop(now)` (R275). -/
def stopMotor (s : State) : State :=
  emitInverterCommand { s with commandedRpm := 0#16, currentRpm := 0#16, targetRpm := 0#16, decelerating := false }

/-- `KeepAlive(now)` (R276). -/
def keepAlive (s : State) : State :=
  if due s.now s.lastKeepAlive s.cfg.keepAliveInterval then emitInverterCommand { s with lastKeepAlive := s.now } else s

/-- `StatusBeacon(now)` (R334); `STATUS_INTERVAL = 0` disables it. -/
def statusBeacon (s : State) : State :=
  if decide (0 < s.cfg.statusInterval) && due s.now s.lastStatus s.cfg.statusInterval then
    replyWith (statusInstr s) { s with lastStatus := s.now }
  else s

/-- `MOTOR_SET_RPM(rpm)` (R206): the acknowledgement carries `commandedRpm` after the call. -/
def execMotorSetRpm (rpm : Half) (s : State) : Host.Outcome State Fault Refusal :=
  onMotorPeer .motorSetRpm s (replyWith (.ackMotorRpm (setRpm rpm s).commandedRpm ackStatus) (setRpm rpm s))

/-- `MOTOR_SET_DIR(cw)` (R207): the reply carries the direction now in force. -/
def execMotorSetDir (clockwise : Bool) (s : State) : Host.Outcome State Fault Refusal :=
  onMotorPeer .motorSetDir s
    (replyWith (.ackMotorDir (setDirection (directionOf clockwise) s).direction ackStatus)
      (setDirection (directionOf clockwise) s))

/-- `MOTOR_STOP()` (R208). -/
def execMotorStop (s : State) : Host.Outcome State Fault Refusal :=
  onMotorPeer .motorStop s (replyWith (.ackMotorStop ackStatus) (stopMotor s))

/-- `MOTOR_STATUS()` (R211): the registers as the latest phases left them; no ramp step is run. -/
def execMotorStatus (s : State) : Host.Outcome State Fault Refusal :=
  onMotorPeer .motorStatus s (replyWith (statusInstr s) s)

end Sys2Proof.Machine
end

