-- ==== Sys2Proof/Machine/Output.lean ====
section
/-! DEFINITION. The output-control opcodes `ACTIVATE` and `DEACTIVATE` (42_dispatch_output_sensor.md, R189, R190). -/

namespace Sys2Proof.Machine

/-- Switch an output port and acknowledge, or raise `invalid-port` (R189, R190, R352). -/
def switchOutput (port : Byte) (level : Level) (ack : Instr) (s : State) : State :=
  if portValid s.cfg port then replyWith ack (driveOutput port level s)
  else raiseProtocolError port s.cfg.errInvalidPort s

/-- `ACTIVATE(port)` (R189). -/
def execActivate (port : Byte) (s : State) : Host.Outcome State Fault Refusal :=
  onPeer s (switchOutput port .on (.ackActivate port ackStatus) s)

/-- `DEACTIVATE(port)` (R190). -/
def execDeactivate (port : Byte) (s : State) : Host.Outcome State Fault Refusal :=
  onPeer s (switchOutput port .off (.ackDeactivate port ackStatus) s)

end Sys2Proof.Machine
end

