-- ==== Sys2Proof/Machine/Sensor.lean ====
section
/-! DEFINITION. The sensor-read opcodes (42_dispatch_output_sensor.md, R191 to R194). -/

namespace Sys2Proof.Machine

/-- Sample an analog pin and answer with its value, or raise `invalid-pin` without sampling (R191, R353). -/
def readAnalogPin (pin : Byte) (s : State) : State :=
  if analogPinValid s.cfg pin then
    replyWith (.analogData pin (analogValue s.cfg pin (sampleAnalog pin s).1)) (sampleAnalog pin s).2
  else raiseProtocolError pin s.cfg.errInvalidPin s

/-- Sample a digital pin and answer with its level, or raise `invalid-pin` without sampling (R192, R353). -/
def readDigitalPin (pin : Byte) (s : State) : State :=
  if digitalPinValid s.cfg pin then
    replyWith (.digitalData pin (sampleDigital pin s).1) (sampleDigital pin s).2
  else raiseProtocolError pin s.cfg.errInvalidPin s

/-- Sample every analog pin once, then send the frames (R193, R171, R172). -/
def readAllAnalogPins (s : State) : State :=
  replyAll (packAllAnalog (sampleAnalogPins (pinsBelow s.cfg.nAnalog) s).1)
    (sampleAnalogPins (pinsBelow s.cfg.nAnalog) s).2

/-- Sample every digital pin once, then send the bitfield (R194, R170). -/
def readAllDigitalPins (s : State) : State :=
  replyWith (.allDigitalData (packDigital (sampleDigitalPins (pinsBelow s.cfg.nDigital) s).1))
    (sampleDigitalPins (pinsBelow s.cfg.nDigital) s).2

/-- `READ_ANALOG(pin)` (R191). -/
def execReadAnalog (pin : Byte) (s : State) : Host.Outcome State Fault Refusal :=
  onPeer s (readAnalogPin pin s)

/-- `READ_DIGITAL(pin)` (R192). -/
def execReadDigital (pin : Byte) (s : State) : Host.Outcome State Fault Refusal :=
  onPeer s (readDigitalPin pin s)

/-- `READ_ALL_ANALOG()` (R193). -/
def execReadAllAnalog (s : State) : Host.Outcome State Fault Refusal :=
  onPeer s (readAllAnalogPins s)

/-- `READ_ALL_DIGITAL()` (R194). -/
def execReadAllDigital (s : State) : Host.Outcome State Fault Refusal :=
  onPeer s (readAllDigitalPins s)

end Sys2Proof.Machine
end

