-- ==== Sys2Proof/Machine/Dispatch.lean ====
section
/-! DEFINITION. The dispatch of a decoded instruction to its meaning: one arm per row of spec/opcode_table.json. -/

namespace Sys2Proof.Machine

def exec (i : Instr) (s : State) : Host.Outcome State Fault Refusal :=
  match i with
  | .activate port => Sys2Proof.Machine.execActivate port s
  | .deactivate port => Sys2Proof.Machine.execDeactivate port s
  | .readAnalog pin => Sys2Proof.Machine.execReadAnalog pin s
  | .readDigital pin => Sys2Proof.Machine.execReadDigital pin s
  | .readAllAnalog => Sys2Proof.Machine.execReadAllAnalog s
  | .readAllDigital => Sys2Proof.Machine.execReadAllDigital s
  | .motorSetRpm rpm => Sys2Proof.Machine.execMotorSetRpm rpm s
  | .motorSetDir clockwise => Sys2Proof.Machine.execMotorSetDir clockwise s
  | .motorStop => Sys2Proof.Machine.execMotorStop s
  | .motorStatus => Sys2Proof.Machine.execMotorStatus s
  | .ackActivate port status => Sys2Proof.Machine.execAckActivate port status s
  | .ackDeactivate port status => Sys2Proof.Machine.execAckDeactivate port status s
  | .analogData pin value => Sys2Proof.Machine.execAnalogData pin value s
  | .digitalData pin high => Sys2Proof.Machine.execDigitalData pin high s
  | .allAnalogData first second => Sys2Proof.Machine.execAllAnalogData first second s
  | .allDigitalData bits => Sys2Proof.Machine.execAllDigitalData bits s
  | .ackMotorRpm rpm status => Sys2Proof.Machine.execAckMotorRpm rpm status s
  | .ackMotorDir dir status => Sys2Proof.Machine.execAckMotorDir dir status s
  | .ackMotorStop status => Sys2Proof.Machine.execAckMotorStop status s
  | .motorStatusData actualRpm dir setRpm fault => Sys2Proof.Machine.execMotorStatusData actualRpm dir setRpm fault s
  | .errorResponse subject code => Sys2Proof.Machine.execErrorResponse subject code s
  | .invCw speed => Sys2Proof.Machine.execInvCw speed s
  | .invCcw speed => Sys2Proof.Machine.execInvCcw speed s
  | .invUnbalanceQuery speed => Sys2Proof.Machine.execInvUnbalanceQuery speed s
  | .invLoadQuery speed => Sys2Proof.Machine.execInvLoadQuery speed s
  | .invAccelProfile speed => Sys2Proof.Machine.execInvAccelProfile speed s
  | .invReply cls echo actual byte4 fault byte6 byte7 crc => Sys2Proof.Machine.execInvReply cls echo actual byte4 fault byte6 byte7 crc s

end Sys2Proof.Machine
end

