-- ==== Sys2Proof/Machine/Loop.lean ====
section
/-! DEFINITION. The polling loop (48_poll_loop.md): the dispatchers that run a delivered frame (R185, R186, R220, R221), the
three phases of an iteration (R330 to R334), host calls (R336), inverter bytes (R307) and boot (R400). -/

namespace Sys2Proof.Machine

/-! ### Phase 1 -/

/-- `PeerSwitch(frame, now)` (R186): unknown opcode, then length, then the rule of the opcode. A decoded opcode that this
peer does not support raises unknown-opcode in its own rule (R196, R197). -/
def peerSwitch (data : List Byte) (s : State) : Host.Outcome State Fault Refusal :=
  match decodeBus s.cfg.busU16HighFirst data with
  | .decoded i => exec i s
  | .reject (.unknownOpcode b) => .next (raiseProtocolError b s.cfg.errUnknownOpcode s)
  | .reject (.lengthError op) =>
    .next (if supported s.cfg op then raiseProtocolError op.code s.cfg.errLength s else raiseUnknownOpcode op s)
  | .reject _ => .refused .emptyBusFrame

/-- The coordinator's switch (R220): a decoded response is executed; everything else is discarded (R221; a decoded command
is discarded by its own rule). -/
def coordSwitch (data : List Byte) (s : State) : Host.Outcome State Fault Refusal :=
  match decodeBus s.cfg.busU16HighFirst data with
  | .decoded i => exec i s
  | .reject _ => .next s

/-- The dispatch of one frame: `dstate` is `Processing(data[0])` while it runs, then `Idle` (R33, R339). A frame of
length 0 or above 8 is excluded by premise (R100, U1). -/
def dispatch (f : BusFrame) (switch : List Byte → State → Host.Outcome State Fault Refusal) (s : State) :
    Host.Outcome State Fault Refusal :=
  match f.data with
  | [] => .refused .emptyBusFrame
  | op :: _ =>
    if f.data.length ≤ 8 then
      andThen (switch f.data { s with dstate := .processing op, rxAddr := f.address })
        (fun t => .next { t with dstate := .idle })
    else .refused .oversizedBusFrame

/-- `PeerDispatch(frame, now)` (R185): the address filter first. -/
def peerDispatch (f : BusFrame) (s : State) : Host.Outcome State Fault Refusal :=
  if f.address = s.cfg.selfAddress then dispatch f peerSwitch s else .next s

/-- `CoordDispatch(frame, now)` (R220): frames of every address. -/
def coordDispatch (f : BusFrame) (s : State) : Host.Outcome State Fault Refusal := dispatch f coordSwitch s

/-- Phase 1, bus receive (R331). -/
def phase1 (received : Option BusFrame) (s : State) : Host.Outcome State Fault Refusal :=
  match received with
  | none => .next s
  | some f => match s.cfg.role with
    | .peer => peerDispatch f s
    | .coordinator => coordDispatch f s

/-! ### Phases 2 and 3 -/

/-- Phase 2 (R332): ramp step, keep-alive, status frame, on a node with a motor. -/
def phase2 (s : State) : State :=
  if s.cfg.hasMotor then statusBeacon (keepAlive (rampTick s)) else s

/-- `RxService()` (R308): with ten bytes or more, exactly ten are consumed and judged; a partial frame waits. -/
def rxService (s : State) : Host.Outcome State Fault Refusal :=
  match decodeReply s.rxFifo with
  | .decoded i => exec i { s with rxFifo := s.rxFifo.drop 10 }
  | .reject _ => .next s

/-- Phase 3 (R333), on a node with a motor. -/
def phase3 (s : State) : Host.Outcome State Fault Refusal :=
  if s.cfg.hasMotor then rxService s else .next s

/-- A new reading of the clock (R12, R330). -/
def tick (advance : BitVec 31) (s : State) : State := { s with now := s.now + advance.setWidth 32 }

/-- `Iteration(now)` (R330). -/
def iteration (advance : BitVec 31) (received : Option BusFrame) (s : State) : Host.Outcome State Fault Refusal :=
  andThen (phase1 received (tick advance s)) (fun t => phase3 (phase2 t))

/-! ### Host calls, inverter bytes, boot -/

/-- An operation exposed on the coordinator (R336). -/
def onCoordinatorHost (s : State) (body : State) : Host.Outcome State Fault Refusal :=
  if s.cfg.role = .coordinator then .next body else .refused .hostCallNotExposed

/-- An operation exposed on a motor node (R336). -/
def onMotorHost (s : State) (body : State) : Host.Outcome State Fault Refusal :=
  if s.cfg.role = .peer ∧ s.cfg.hasMotor = true then .next body else .refused .hostCallNotExposed

/-- The frame of R304's conditional: `BuildCommandFrame(cmd, 0)`. -/
def queryInstr : InverterQuery → Instr
  | .unbalance => .invUnbalanceQuery 0#16
  | .load => .invLoadQuery 0#16
  | .accelProfile => .invAccelProfile 0#16

/-- One host call (R336), run to completion between two iterations. -/
def hostCall (call : HostCall) (s : State) : Host.Outcome State Fault Refusal :=
  match call with
  | .get address pin isAnalog => onCoordinatorHost s (hostReturn (.reading (getReading s address pin isAnalog)) s)
  | .requestAnalog address pin => onCoordinatorHost s (clientSend address (.readAnalog pin) s)
  | .requestDigital address pin => onCoordinatorHost s (clientSend address (.readDigital pin) s)
  | .requestAllAnalog address => onCoordinatorHost s (clientSend address .readAllAnalog s)
  | .requestAllDigital address => onCoordinatorHost s (clientSend address .readAllDigital s)
  | .setOutput address port on => onCoordinatorHost s (clientSend address (outputCommand port on) s)
  | .setMotorRpm address rpm => onCoordinatorHost s (clientSend address (.motorSetRpm rpm) s)
  | .setMotorDirection address clockwise => onCoordinatorHost s (clientSend address (.motorSetDir clockwise) s)
  | .stopMotor address => onCoordinatorHost s (clientSend address .motorStop s)
  | .requestMotorStatus address => onCoordinatorHost s (clientSend address .motorStatus s)
  | .setRpm rpm => onMotorHost s (hostReturn .done (setRpm rpm s))
  | .setDirection direction => onMotorHost s (hostReturn .done (setDirection direction s))
  | .stop => onMotorHost s (hostReturn .done (stopMotor s))
  | .status => onMotorHost s (hostReturn (.status (localStatus s)) s)
  | .inverterQuery query => andThen (exec (queryInstr query) s) (fun t => .next (hostReturn .done t))

/-- A byte from the inverter (R307); a node without a motor has no inverter link (R20). -/
def receiveByte (b : Byte) (s : State) : Host.Outcome State Fault Refusal :=
  if s.cfg.hasMotor then .next (rxPush b s) else .refused .noInverterLink

/-- What one step of the node does with its next input (R7). -/
def runInput (i : Input) (s : State) : Host.Outcome State Fault Refusal :=
  match i with
  | .iteration advance received => iteration advance received s
  | .hostCall advance call => hostCall call (tick advance s)
  | .rxPush b => receiveByte b s
  | .boot t0 => .next (State.boot s.cfg t0 s.env)

end Sys2Proof.Machine
end

