-- ==== Sys2Proof/Machine/Fetch.lean ====
section
/-! DEFINITION. Placing a word of the opcode table where the next step runs it (log entry 13). There is no program
counter and no fetch (R34): a bus frame comes from the transport, a reply from `rxFifo`, a command frame is emitted by
the block itself. -/

namespace Sys2Proof.Machine

/-- One more input, before every other. -/
def withInput (i : Input) (s : State) : State := { s with env := { s.env with inputs := i :: s.env.inputs } }

/-- A node that executes `op`: a peer (with a motor where `op` needs one), or the coordinator, which has no ports, pins or
motor (R371). -/
def nodeFor (op : BusOp) (c : Config) : Config :=
  if op.isCommand then { c with role := .peer, hasMotor := c.hasMotor || op.needsMotor }
  else { c with role := .coordinator, nPorts := 0, nAnalog := 0, nDigital := 0, hasMotor := false }

/-- A node with an inverter link. -/
def motorNode (c : Config) : Config := { c with role := .peer, hasMotor := true }

/-- The address of a placed bus frame: a command names the node itself, a response some peer (R101). -/
def placedAddress (op : BusOp) (c : Config) : Addr :=
  if op.isCommand then c.selfAddress else Config.refSensorPeer.selfAddress

/-- A bus frame for the next iteration, at the present clock value. -/
def placeBusFrame (op : BusOp) (data : List Byte) (s : State) : State :=
  withInput (.iteration 0#31 (some ⟨placedAddress op s.cfg, data⟩)) { s with cfg := nodeFor op s.cfg }

/-- Ten reply bytes at the head of `rxFifo`, and an iteration without a frame. -/
def placeReply (bytes : List Byte) (s : State) : State :=
  withInput (.iteration 0#31 none)
    { s with cfg := motorNode s.cfg, rxFifo := (bytes ++ s.rxFifo).take s.cfg.rxDepth }

/-- A state whose next iteration emits the command frame of `dir` and `speed` as its keep-alive (R276). -/
def placeEmission (dir : Direction) (speed : Half) (s : State) : State :=
  withInput (.iteration (BitVec.ofNat 31 s.cfg.keepAliveInterval) none)
    { s with
      cfg := motorNode s.cfg
      direction := dir
      commandedRpm := speed
      currentRpm := speed
      targetRpm := speed
      decelerating := false
      lastKeepAlive := s.now }

/-- The host call of R304's conditional, the host being given it. -/
def placeQuery (query : InverterQuery) (s : State) : State :=
  withInput (.hostCall 0#31 (.inverterQuery query))
    { s with cfg := { motorNode s.cfg with hostInverterQueries := true } }

/-- The command that a command frame's first eight bytes are, placed; bytes that are no command change nothing. -/
def placeCommand (body : List Byte) (s : State) : State :=
  match decodeCommandBody body with
  | .decoded (.invCw speed) => placeEmission .cw speed s
  | .decoded (.invCcw speed) => placeEmission .ccw speed s
  | .decoded (.invUnbalanceQuery _) => placeQuery .unbalance s
  | .decoded (.invLoadQuery _) => placeQuery .load s
  | .decoded (.invAccelProfile _) => placeQuery .accelProfile s
  | _ => s

/-- The word `w` of `nbits` bits placed where the next step runs it. -/
def placeWord (nbits w : Nat) (s : State) : State :=
  match wordKind (w % 2 ^ nbits) with
  | .bus op => placeBusFrame op (tableBytes (busWordLength op nbits) nbits w) s
  | .command => placeCommand (tableBytes 8 nbits w) s
  | .reply => placeReply (tableBytes 10 nbits w) s

/-- One step (R7, R330, R336): the next input of the environment, on a legal configuration (R406). -/
def takeStep (s : State) : Host.Outcome State Fault Refusal :=
  if s.cfg.Legal then runInput s.env.nextInput.1 { s with env := s.env.nextInput.2 }
  else .refused .illegalConfiguration

end Sys2Proof.Machine
end

