-- ==== Sys2Proof/Machine/System.lean ====
section
/-! DEFINITION. Several nodes on one bus (R378, R379): the premises on a system of nodes, and the delivery of one frame.
Each node is a `State` of its own; no state is shared. -/

namespace Sys2Proof.Machine

/-- "At most one node claims a given address" (R78, R379). -/
abbrev AddressesUnique (nodes : List State) : Prop := (nodes.map fun s => s.cfg.selfAddress).Nodup

/-- One coordinator (R378, R379). -/
def coordinators (nodes : List State) : List State := nodes.filter fun s => s.cfg.role == .coordinator

/-- The premises the source states and the block does not enforce (R379), with one byte order on the bus (R71). The bit
rate is below the transaction level (R6). -/
abbrev SystemPremises (nodes : List State) : Prop :=
  AddressesUnique nodes ∧ (coordinators nodes).length = 1 ∧
  ∀ s ∈ nodes, ∀ t ∈ nodes, s.cfg.busU16HighFirst = t.cfg.busU16HighFirst

/-- A frame offered to one node as the answer of its next iteration's `BusTryReceive` (R151). That it is the next step, ahead
of every listed input, is the model's DESIGN CHOICE (log entry 28). -/
def receiveNext (advance : BitVec 31) (f : BusFrame) (s : State) : State := withInput (.iteration advance (some f)) s

/-- A frame sent by node `sender` is offered to every other node and never to the sender (R151, R378); a bus that loses it
offers it to none (R82), which is no change. DESIGN CHOICE (log entry 28): each receiver `i` takes it in its very next step, an
iteration with the clock advance `advance i`, ahead of every input listed for it. The spec leaves to the environment when and
with which advance each receiver takes a frame (R82, U10, R337). Safe: no step and no statement uses this definition, and a
node's own `inputs` list the frame at any place. -/
def deliver (sender : Nat) (advance : Nat → BitVec 31) (f : BusFrame) (nodes : List State) : List State :=
  nodes.mapIdx fun i s => if i = sender then s else receiveNext (advance i) f s

end Sys2Proof.Machine
end

