-- ==== Sys2Proof/Safety.lean ====
section
/-! DEFINITION. The terms the statements use: the invariant of a node (R28 and the bounds of 10_state.md), what may change in
a step, and the call traces of the transport (R154). -/

namespace Sys2Proof.Machine

/-! ### The invariant -/

/-- The invariants of the motor state, rule R28 (i) to (iv). -/
structure MotorInv (s : State) : Prop where
  commanded_le : s.commandedRpm.toNat ≤ s.cfg.maxRpm.toNat
  current_le : s.currentRpm.toNat ≤ s.cfg.maxRpm.toNat
  target_le : s.targetRpm.toNat ≤ s.cfg.maxRpm.toNat
  above_target : s.decelerating = true → s.targetRpm.toNat < s.currentRpm.toNat
  at_target : s.decelerating = false → s.currentRpm = s.targetRpm
  target_commanded : s.targetRpm = s.commandedRpm

/-- A key of a sensor table: a slot below `TABLE_SIZE` and a pin below `TABLE_PINS` (R35). -/
def TabKeyInRange (c : Config) (k : Nat) : Prop :=
  ∃ slot, ∃ pin : Byte, slot < c.tableSize ∧ pin.toNat < c.tablePins ∧ k = tabKey slot pin

/-- The canonical form of the three tables (log entry 8), and their bounds (R32, R35). -/
structure TablesInv (s : State) : Prop where
  analog_sorted : Table.Sorted s.analogTab
  digital_sorted : Table.Sorted s.digitalTab
  latch_sorted : Table.Sorted s.outLatch
  analog_range : ∀ k ∈ s.analogTab.map Prod.fst, TabKeyInRange s.cfg k
  digital_range : ∀ k ∈ s.digitalTab.map Prod.fst, TabKeyInRange s.cfg k
  latch_range : ∀ k ∈ s.outLatch.map Prod.fst, k < s.cfg.nPorts

/-- What holds of every node between its steps: a legal configuration (R406), the motor invariants (R28), a receive FIFO
within its depth (R31), canonical tables within their bounds (R32, R35), the dispatcher idle (R33). -/
structure Inv (s : State) : Prop where
  legal : s.cfg.Legal
  motor : MotorInv s
  fifo : s.rxFifo.length ≤ s.cfg.rxDepth
  tables : TablesInv s
  idle : s.dstate = .idle

/-! ### What a step changes -/

/-- No state of rule R20 is written: only the environment's record moves on. -/
def OnlyEnv (s t : State) : Prop := t = { s with env := t.env }

/-- The calls `tr` were made, in this order, and no input was consumed. -/
def Observed (s t : State) (tr : List Observation) : Prop :=
  t.env.trace = s.env.trace ++ tr ∧ t.env.inputs = s.env.inputs

/-- The motor registers (R21 to R26) are the same. -/
def SameMotor (s t : State) : Prop :=
  t.commandedRpm = s.commandedRpm ∧ t.currentRpm = s.currentRpm ∧ t.targetRpm = s.targetRpm ∧
  t.direction = s.direction ∧ t.decelerating = s.decelerating ∧ t.lastStepTime = s.lastStepTime ∧
  t.lastKeepAlive = s.lastKeepAlive ∧ t.lastStatus = s.lastStatus

/-- The inverter link registers and the receive FIFO (R29 to R31) are the same. -/
def SameLink (s t : State) : Prop :=
  t.actualRpm = s.actualRpm ∧ t.fault = s.fault ∧ t.lastReply = s.lastReply ∧ t.lastEcho = s.lastEcho ∧
  t.rxFifo = s.rxFifo

/-- The sensor tables are the same (R35). -/
def SameTables (s t : State) : Prop := t.analogTab = s.analogTab ∧ t.digitalTab = s.digitalTab

/-- The output latch is the same (R32). -/
def SameLatch (s t : State) : Prop := t.outLatch = s.outLatch

/-! ### The transport's call traces -/

/-- The call traces of one `SendWithRetry(f)`, each `BusSend` with the timeout (R152), and its result (R154, R155; rows T1 to T7 of 95_test_vectors.md). -/
def SendTrace (f : BusFrame) (timeout : Nat) (tr : List Observation) (r : SendResult) : Prop :=
  (tr = [.busSend f timeout .ok] ∧ r = .sent) ∨
  (tr = [.busSend f timeout .busOff, .busRecover, .busSend f timeout .ok] ∧ r = .sent) ∨
  (tr = [.busSend f timeout .timeout, .busSend f timeout .ok] ∧ r = .sent) ∨
  (∃ r2, r2 ≠ SendOutcome.ok ∧ r = .dropped ∧
    tr = [.busSend f timeout .busOff, .busRecover, .busSend f timeout r2, .hostEvent (.txDropped f .busOff r2)]) ∨
  (∃ r2, r2 ≠ SendOutcome.ok ∧ r = .dropped ∧
    tr = [.busSend f timeout .timeout, .busSend f timeout r2, .hostEvent (.txDropped f .timeout r2)])

/-- The call traces of several frames, each sent by its own `SendWithRetry`, in order (R172). -/
inductive SendTraces (timeout : Nat) : List BusFrame → List Observation → Prop where
  | nil : SendTraces timeout [] []
  | cons (f : BusFrame) (fs : List BusFrame) (tr trs : List Observation) (r : SendResult) :
      SendTrace f timeout tr r → SendTraces timeout fs trs → SendTraces timeout (f :: fs) (tr ++ trs)

/-- One frame was sent for a host call and its result returned; nothing of rule R20 is written (R233 to R241). -/
def SentForHost (s t : State) (f : BusFrame) : Prop :=
  OnlyEnv s t ∧ ∃ tr r, SendTrace f s.cfg.sendTimeout tr r ∧ Observed s t (tr ++ [.hostReturn (.sent r)])

/-- One reply of the given data bytes was made, after the calls `before` (R187). -/
def RepliedAfter (s t : State) (before : List Observation) (bytes : List Byte) : Prop :=
  ∃ tr r, SendTrace ⟨s.cfg.selfAddress, bytes⟩ s.cfg.sendTimeout tr r ∧ Observed s t (before ++ tr)

/-- A protocol error was taken (R356, R364): the error reply was made, `dstate` is `Idle`, nothing else is written. -/
def ErrorTaken (s t : State) (subject code : Byte) : Prop :=
  t = { s with dstate := .idle, env := t.env } ∧ RepliedAfter s t [] [0xFF#8, subject, code]

/-! ### Kinds of observations -/

/-- A `BusSend` call, one transmit attempt (R152). -/
def Observation.isBusSend : Observation → Bool
  | .busSend _ _ _ => true
  | .busRecover => false
  | .gpioSet _ _ => false
  | .gpioReadAnalog _ _ => false
  | .gpioReadDigital _ _ => false
  | .serialSend _ => false
  | .hostEvent _ => false
  | .hostReturn _ => false

/-- A `SerialSend` call, one inverter command frame (R314). -/
def Observation.isSerialSend : Observation → Bool
  | .serialSend _ => true
  | .busSend _ _ _ => false
  | .busRecover => false
  | .gpioSet _ _ => false
  | .gpioReadAnalog _ _ => false
  | .gpioReadDigital _ _ => false
  | .hostEvent _ => false
  | .hostReturn _ => false

/-! ### Runs -/

/-- A run of steps that starts and stays inside one deceleration, with the time it takes (R279). -/
inductive DecelRun : Nat → State → State → Prop where
  | refl (s : State) : DecelRun 0 s s
  | step (elapsedSoFar : Nat) (s u t : State) : DecelRun elapsedSoFar s u → u.decelerating = true →
      Machine.step u = .next t → t.decelerating = true → DecelRun (elapsedSoFar + elapsed t.now u.now) s t

/-- `RampTick` at a clock value (R272). -/
def rampTickAt (s : State) (now : Time) : State := rampTick { s with now := now }

/-- Clock values each at least `interval` after the one before, the first at least `interval` after `t0`. -/
def DueChain (interval : Nat) : Time → List Time → Prop
  | _, [] => True
  | t0, t :: rest => interval ≤ elapsed t t0 ∧ DueChain interval t rest

/-- The checksum detects every single-byte change of its eight bytes: `CrcDetectsByteError` of rule R299. -/
def CrcDetectsByteError (c : Config) : Prop :=
  ∀ (b : List Byte) (i : Nat) (x : Byte), b.length = 8 → i < 8 → b[i]? ≠ some x → crc16 c (b.set i x) ≠ crc16 c b

end Sys2Proof.Machine
end

