-- ==== Sys2Proof/Certificates/Slice0/Obligations.lean ====
section
/-! DEFINITION. The statements for the provers, in the order of OBLIGATIONS.json. `stated` ones formalise a numbered rule of
spec/; the others rest on rules that the spec marks as its own decision or derivation, or on a choice of this model, and
their docstrings say which. -/

section Slice0Obligations

open Sys2Proof Sys2Proof.Machine

/-! ### Frames and their encoding -/

/-- R169 (derived in the spec from R165 to R168): decoding the encoding of any of the 21 bus operations, with any operand
values and either byte order, gives the operation back. -/
def Obligations.BusDecodeInvertsEncode : Prop :=
  ∀ (c : Config) (i : Instr), i.busOp ≠ none → decodeBus c.busU16HighFirst (encode c i) = .decoded i

/-- Layouts R129 and R130, payload rules R304 to R306: decoding the ten bytes of an inverter frame gives the instruction back,
with any `CRC_STEP`; a reply also with more bytes behind it. -/
def Obligations.InverterDecodeInvertsEncode : Prop :=
  (∀ (c : Config) (speed : Half), decodeCommand c (encode c (.invCw speed)) = .decoded (.invCw speed) ∧
    decodeCommand c (encode c (.invCcw speed)) = .decoded (.invCcw speed)) ∧
  (∀ c : Config, decodeCommand c (encode c (.invUnbalanceQuery 0#16)) = .decoded (.invUnbalanceQuery 0#16) ∧
    decodeCommand c (encode c (.invLoadQuery 0#16)) = .decoded (.invLoadQuery 0#16) ∧
    decodeCommand c (encode c (.invAccelProfile 0#16)) = .decoded (.invAccelProfile 0#16)) ∧
  (∀ (c : Config) (cls echo : Byte) (actual : Half) (byte4 fault byte6 byte7 : Byte) (crc : Half) (rest : List Byte),
    decodeReply (encode c (.invReply cls echo actual byte4 fault byte6 byte7 crc) ++ rest) =
      .decoded (.invReply cls echo actual byte4 fault byte6 byte7 crc))

/-- R166, R167: `decode` of a frame with at least one byte is `Unknown` exactly when byte 0 is no opcode, `LengthError`
exactly when the opcode is known and the frame shorter than its minimum, and else an instruction of that opcode. -/
def Obligations.DecodeOutcomeByOpcodeAndLength : Prop :=
  ∀ (highFirst : Bool) (b : Byte) (rest : List Byte),
    match BusOp.ofByte b with
    | none => decodeBus highFirst (b :: rest) = .reject (.unknownOpcode b)
    | some op =>
      if rest.length + 1 < op.minLen then decodeBus highFirst (b :: rest) = .reject (.lengthError op)
      else ∃ i, decodeBus highFirst (b :: rest) = .decoded i ∧ i.busOp = some op

/-- R102, R133, R167: the 21 opcode values, their minimum lengths, the split into ten commands and eleven responses, and the
235 unassigned bytes. -/
def Obligations.OpcodeMapOfTheTable : Prop :=
  BusOp.all.map (fun op => (op.code, op.minLen, op.isCommand)) =
    [(0x01#8, 2, true), (0x02#8, 2, true), (0x03#8, 2, true), (0x04#8, 2, true), (0x05#8, 1, true), (0x06#8, 1, true),
     (0x30#8, 3, true), (0x31#8, 2, true), (0x32#8, 1, true), (0x33#8, 1, true),
     (0x10#8, 3, false), (0x11#8, 3, false), (0x20#8, 4, false), (0x21#8, 3, false), (0x22#8, 4, false),
     (0x23#8, 2, false), (0x40#8, 4, false), (0x41#8, 3, false), (0x42#8, 2, false), (0x43#8, 6, false),
     (0xFF#8, 3, false)] ∧
  (∀ op : BusOp, op ∈ BusOp.all ∧ BusOp.ofByte op.code = some op) ∧
  (∀ (b : Byte) (op : BusOp), BusOp.ofByte b = some op → op.code = b) ∧
  (((List.range 256).map (BitVec.ofNat 8)).filter fun b => BusOp.ofByte b = none).length = 235

/-- The byte layouts of R103 to R108, R111 and R112, and of R115, R116, R118 and R122, in both directions; the `u16` fields
high byte first, as these rules write them (the byte order is the spec's decision D5). -/
def Obligations.FrameLayouts : Prop :=
  ∀ c : Config,
    (∀ port, encode c (.activate port) = [0x01#8, port] ∧
      decodeBus c.busU16HighFirst [0x01#8, port] = .decoded (.activate port)) ∧
    (∀ port, encode c (.deactivate port) = [0x02#8, port] ∧
      decodeBus c.busU16HighFirst [0x02#8, port] = .decoded (.deactivate port)) ∧
    (∀ pin, encode c (.readAnalog pin) = [0x03#8, pin] ∧
      decodeBus c.busU16HighFirst [0x03#8, pin] = .decoded (.readAnalog pin)) ∧
    (∀ pin, encode c (.readDigital pin) = [0x04#8, pin] ∧
      decodeBus c.busU16HighFirst [0x04#8, pin] = .decoded (.readDigital pin)) ∧
    (encode c .readAllAnalog = [0x05#8] ∧ decodeBus c.busU16HighFirst [0x05#8] = .decoded .readAllAnalog) ∧
    (encode c .readAllDigital = [0x06#8] ∧ decodeBus c.busU16HighFirst [0x06#8] = .decoded .readAllDigital) ∧
    (encode c .motorStop = [0x32#8] ∧ decodeBus c.busU16HighFirst [0x32#8] = .decoded .motorStop) ∧
    (encode c .motorStatus = [0x33#8] ∧ decodeBus c.busU16HighFirst [0x33#8] = .decoded .motorStatus) ∧
    (∀ port status, encode c (.ackDeactivate port status) = [0x11#8, port, status] ∧
      decodeBus c.busU16HighFirst [0x11#8, port, status] = .decoded (.ackDeactivate port status)) ∧
    (∀ status, encode c (.ackMotorStop status) = [0x42#8, status] ∧
      decodeBus c.busU16HighFirst [0x42#8, status] = .decoded (.ackMotorStop status)) ∧
    (c.busU16HighFirst = true →
      (∀ pin value, encode c (.analogData pin value) = [0x20#8, pin, hi8 value, lo8 value] ∧
        decodeBus true [0x20#8, pin, hi8 value, lo8 value] = .decoded (.analogData pin value)) ∧
      (∀ a, encode c (.allAnalogData a none) = [0x22#8, a.pin, hi8 a.value, lo8 a.value] ∧
        decodeBus true [0x22#8, a.pin, hi8 a.value, lo8 a.value] = .decoded (.allAnalogData a none)) ∧
      (∀ a b, encode c (.allAnalogData a (some b)) =
          [0x22#8, a.pin, hi8 a.value, lo8 a.value, b.pin, hi8 b.value, lo8 b.value] ∧
        decodeBus true [0x22#8, a.pin, hi8 a.value, lo8 a.value, b.pin, hi8 b.value, lo8 b.value] =
          .decoded (.allAnalogData a (some b))))

/-- R168 and R173 (the spec's decisions D13 and D18): bytes behind the layout change nothing; only a one-triple
`ALL_ANALOG_DATA` with three more bytes is read as two triples. -/
def Obligations.SurplusBytesIgnored : Prop :=
  ∀ (c : Config) (i : Instr) (extra : List Byte), i.busOp ≠ none →
    (∀ r, i = .allAnalogData r none → extra.length < 3) →
    decodeBus c.busU16HighFirst (encode c i ++ extra) = .decoded i

/-- Words written out from the spec's layouts, one or more per family, decode to what they stand for (numbered as the
opcode table numbers bits: byte 0 lowest). -/
def Obligations.WrittenOutWordsDecode : Prop :=
  decodeTableWord 16 0x0201 = some (.activate 0x02#8) ∧
  decodeTableWord 16 0x0303 = some (.readAnalog 0x03#8) ∧
  decodeTableWord 24 0xDC0530 = some (.motorSetRpm 1500#16) ∧
  decodeTableWord 16 0x0031 = some (.motorSetDir false) ∧
  decodeTableWord 32 0x9A020320 = some (.analogData 0x03#8 0x029A#16) ∧
  decodeTableWord 48 0x00BE85D70543 = some (.motorStatusData 1495#16 .cw 1470#15 0x00#8) ∧
  decodeTableWord 24 0x0309FF = some (.errorResponse 0x09#8 0x03#8) ∧
  decodeTableWord 24 0xDC0514 = some (.invCw 1500#16) ∧
  decodeTableWord 24 0xB00418 = some (.invCcw 1200#16) ∧
  decodeTableWord 80 0x26140000030000001415 =
    some (.invReply 0x15#8 0x14#8 0#16 0x00#8 0x03#8 0x00#8 0x00#8 0x1426#16)

/-! ### The peer's output and sensor operations -/

/-- R189. A valid port is driven `On` and acknowledged with status 0, nothing but that latch and the calls being different;
an invalid one raises `invalid-port` and drives nothing. -/
def Obligations.ActivateDrivesAndAcknowledges : Prop :=
  ∀ (port : Byte) (s : State), s.cfg.role = .peer → ∃ t, exec (.activate port) s = .next t ∧
    if port.toNat < s.cfg.nPorts then
      (∀ p, latchRead t p = if p = port.toNat then some .on else latchRead s p) ∧
      t = { s with outLatch := t.outLatch, env := t.env } ∧
      RepliedAfter s t [.gpioSet port .on] [0x10#8, port, 0x00#8]
    else ErrorTaken s t port s.cfg.errInvalidPort

/-- R190, as R189 with `Off`. -/
def Obligations.DeactivateReleasesAndAcknowledges : Prop :=
  ∀ (port : Byte) (s : State), s.cfg.role = .peer → ∃ t, exec (.deactivate port) s = .next t ∧
    if port.toNat < s.cfg.nPorts then
      (∀ p, latchRead t p = if p = port.toNat then some .off else latchRead s p) ∧
      t = { s with outLatch := t.outLatch, env := t.env } ∧
      RepliedAfter s t [.gpioSet port .off] [0x11#8, port, 0x00#8]
    else ErrorTaken s t port s.cfg.errInvalidPort

/-- R191. A valid pin is sampled once and its value sent, no state written; an invalid one raises `invalid-pin` and is not
sampled. The value is sent high byte first where `BUS_U16_HIGH_FIRST` holds. -/
def Obligations.ReadAnalogSamplesAndReplies : Prop :=
  (∀ v, putBus16 true v = [hi8 v, lo8 v]) ∧
  ∀ (pin : Byte) (s : State), s.cfg.role = .peer → ∃ t, exec (.readAnalog pin) s = .next t ∧
    if pin.toNat < s.cfg.nAnalog then
      OnlyEnv s t ∧
      RepliedAfter s t [.gpioReadAnalog pin (s.env.nextAnalog pin).1]
        (0x20#8 :: pin :: putBus16 s.cfg.busU16HighFirst (analogValue s.cfg pin (s.env.nextAnalog pin).1))
    else ErrorTaken s t pin s.cfg.errInvalidPin

/-- R192. A valid pin is sampled once and its level sent as 1 or 0, no state written; an invalid one raises `invalid-pin` and
is not sampled. -/
def Obligations.ReadDigitalSamplesAndReplies : Prop :=
  ∀ (pin : Byte) (s : State), s.cfg.role = .peer → ∃ t, exec (.readDigital pin) s = .next t ∧
    if pin.toNat < s.cfg.nDigital then
      OnlyEnv s t ∧
      RepliedAfter s t [.gpioReadDigital pin (s.env.nextDigital pin).1]
        [0x21#8, pin, if (s.env.nextDigital pin).1 then 0x01#8 else 0x00#8]
    else ErrorTaken s t pin s.cfg.errInvalidPin

/-- R193 with R171, R172 (order, pairing and sampling are the spec's decision D18): every analog pin is sampled once, in
ascending order, all before the first frame; then the frames of `packAllAnalog`, each by its own `SendWithRetry`. The samples
are the environment's listed answers in order, as far as they are listed. No state is written. -/
def Obligations.ReadAllAnalogSamplesThenSends : Prop :=
  ∀ s : State, s.cfg.role = .peer → ∃ t raws trs, exec .readAllAnalog s = .next t ∧ OnlyEnv s t ∧
    raws.length = s.cfg.nAnalog ∧
    raws.take s.env.analogAnswers.length = s.env.analogAnswers.take s.cfg.nAnalog ∧
    SendTraces s.cfg.sendTimeout
      ((packAllAnalog (List.zipWith (fun p raw => ⟨p, analogValue s.cfg p raw⟩) (pinsBelow s.cfg.nAnalog) raws)).map
        fun i => ⟨s.cfg.selfAddress, encode s.cfg i⟩) trs ∧
    Observed s t (List.zipWith .gpioReadAnalog (pinsBelow s.cfg.nAnalog) raws ++ trs)

/-- R194. Every digital pin is sampled once, in ascending order; the one reply carries their bitfield. No state is written. -/
def Obligations.ReadAllDigitalRepliesBitfield : Prop :=
  ∀ s : State, s.cfg.role = .peer → ∃ t levels, exec .readAllDigital s = .next t ∧ OnlyEnv s t ∧
    levels.length = s.cfg.nDigital ∧
    levels.take s.env.digitalAnswers.length = s.env.digitalAnswers.take s.cfg.nDigital ∧
    RepliedAfter s t (List.zipWith .gpioReadDigital (pinsBelow s.cfg.nDigital) levels) [0x23#8, packDigital levels]

/-- R170. `packDigital` sets bit `i` for each HIGH pin `i` and no other; `unpackDigital` always gives eight levels, level `i`
being bit `i`. -/
def Obligations.DigitalPackingBitByBit : Prop :=
  (∀ (levels : List Bool) (i : Nat), levels.length ≤ 8 → i < 8 →
    (packDigital levels).getLsbD i = levels.getD i false) ∧
  (∀ bits : Byte, (unpackDigital bits).length = 8 ∧ ∀ i, i < 8 → (unpackDigital bits)[i]? = some (bits.getLsbD i))

/-- R171 (the spec's decision D18): frame `k` carries readings `2k` and `2k+1`, a last odd one alone; there are `ceil(n/2)`
frames, each of 7 or 4 bytes (R118). -/
def Obligations.AnalogPackingPairByPair : Prop :=
  ∀ (readings : List AnalogReading),
    (∀ k, (packAllAnalog readings)[k]? = readings[2 * k]?.map fun a => .allAnalogData a readings[2 * k + 1]?) ∧
    (packAllAnalog readings).length = (readings.length + 1) / 2 ∧
    ∀ (c : Config), ∀ i ∈ packAllAnalog readings, (encode c i).length = 7 ∨ (encode c i).length = 4

/-! ### The motor operations -/

/-- R206 with R266 to R268 (the spec's decisions D19 to D21): the request is clamped to `MAX_RPM` and acknowledged with the
clamped value; not below the applied speed it is applied at once with one inverter frame, else a deceleration is entered or
redirected with no frame. -/
def Obligations.MotorSetRpmAppliesOrDecelerates : Prop :=
  ∀ (rpm : Half) (s : State), s.cfg.role = .peer → s.cfg.hasMotor = true →
    ∃ t c, exec (.motorSetRpm rpm) s = .next t ∧ c.toNat = min rpm.toNat s.cfg.maxRpm.toNat ∧
      if s.currentRpm.toNat ≤ c.toNat then
        t = { s with commandedRpm := c, currentRpm := c, targetRpm := c, decelerating := false, env := t.env } ∧
        RepliedAfter s t [.serialSend (buildCommandFrame s.cfg (commandByte s.direction) c)]
          (0x40#8 :: (putBus16 s.cfg.busU16HighFirst c ++ [0x00#8]))
      else
        t = { s with
          commandedRpm := c, targetRpm := c, decelerating := true, env := t.env
          lastStepTime := if s.decelerating then s.lastStepTime else s.now } ∧
        RepliedAfter s t [] (0x40#8 :: (putBus16 s.cfg.busU16HighFirst c ++ [0x00#8]))

/-- R207 with R274 (the spec's decisions D7, D21 and D22): the direction is written and nothing else, one inverter frame
carries it with the unchanged speed, and the reply carries it. -/
def Obligations.MotorSetDirKeepsSpeed : Prop :=
  ∀ (clockwise : Bool) (s : State), s.cfg.role = .peer → s.cfg.hasMotor = true →
    ∃ t, exec (.motorSetDir clockwise) s = .next t ∧
      t = { s with direction := if clockwise then .cw else .ccw, env := t.env } ∧
      RepliedAfter s t [.serialSend (buildCommandFrame s.cfg (if clockwise then 0x14#8 else 0x18#8) s.currentRpm)]
        [0x41#8, if clockwise then 0x01#8 else 0x00#8, 0x00#8]

/-- R208 with R275 (the spec's decision D22): all three speeds are 0 and no deceleration is left, in the same call; the
direction and the timers are kept; one inverter frame of speed 0, then the reply. -/
def Obligations.MotorStopIsImmediate : Prop :=
  ∀ s : State, s.cfg.role = .peer → s.cfg.hasMotor = true → ∃ t, exec .motorStop s = .next t ∧
    t = { s with
      commandedRpm := 0#16, currentRpm := 0#16, targetRpm := 0#16, decelerating := false, env := t.env } ∧
    RepliedAfter s t [.serialSend (buildCommandFrame s.cfg (commandByte s.direction) 0#16)] [0x42#8, 0x00#8]

/-- R209, R211. The reply carries `actualRpm`, the direction bit over `currentRpm[14:0]`, and `fault`, as they are; nothing
is written and no ramp step is run. The `u16` fields are sent high byte first where `BUS_U16_HIGH_FIRST` holds. -/
def Obligations.MotorStatusReportsRegisters : Prop :=
  (∀ v, putBus16 true v = [hi8 v, lo8 v]) ∧
  ∀ s : State, s.cfg.role = .peer → s.cfg.hasMotor = true → ∃ t w, exec .motorStatus s = .next t ∧ OnlyEnv s t ∧
    (∀ i, i < 15 → w.getLsbD i = s.currentRpm.getLsbD i) ∧
    w.getLsbD 15 = decide (s.direction = .cw) ∧
    RepliedAfter s t []
      (0x43#8 :: (putBus16 s.cfg.busU16HighFirst s.actualRpm ++ putBus16 s.cfg.busU16HighFirst w ++ [s.fault]))

/-- R196 (derived in the spec) and R197 (its decision D14): a response opcode at any peer, and a motor opcode at a peer
without a motor, raise `unknown-opcode` with the opcode as subject. -/
def Obligations.UnsupportedOpcodesRaiseError : Prop :=
  ∀ (i : Instr) (op : BusOp) (s : State), i.busOp = some op → s.cfg.role = .peer →
    (op.isCommand = false ∨ (op.needsMotor = true ∧ s.cfg.hasMotor = false)) →
    ∃ t, exec i s = .next t ∧ ErrorTaken s t op.code s.cfg.errUnknownOpcode

/-! ### The coordinator's operations -/

/-- R221 (the spec's decision D15): a command opcode at the coordinator changes nothing and sends nothing. -/
def Obligations.CommandsAtCoordinatorDiscarded : Prop :=
  ∀ (i : Instr) (op : BusOp) (s : State), i.busOp = some op → op.isCommand = true → s.cfg.role = .coordinator →
    exec i s = .next s

/-- R222, R223, R228 to R232 (the spec's decision D16): each of the seven responses without a reading is one host event under
the frame's address with its fields unchanged, and writes no state. -/
def Obligations.ResponsesBecomeHostEvents : Prop :=
  ∀ s : State, s.cfg.role = .coordinator →
    let event := fun r : Response =>
      ({ s with env := { s.env with trace := s.env.trace ++ [.hostEvent (.response s.rxAddr r)] } } : State)
    (∀ port status, exec (.ackActivate port status) s = .next (event (.ackActivate port status))) ∧
    (∀ port status, exec (.ackDeactivate port status) s = .next (event (.ackDeactivate port status))) ∧
    (∀ rpm status, exec (.ackMotorRpm rpm status) s = .next (event (.ackMotorRpm rpm status))) ∧
    (∀ dir status, exec (.ackMotorDir dir status) s = .next (event (.ackMotorDir dir status))) ∧
    (∀ status, exec (.ackMotorStop status) s = .next (event (.ackMotorStop status))) ∧
    (∀ actual dir speed fault, exec (.motorStatusData actual dir speed fault) s =
      .next (event (.motorStatusData actual dir speed fault))) ∧
    (∀ subject code, exec (.errorResponse subject code) s = .next (event (.errorResponse subject code)))

/-- R224. One analog entry is written, valid, with this iteration's time; a pin at or above `TABLE_PINS` writes nothing; no
other state changes and nothing is sent. -/
def Obligations.AnalogDataStored : Prop :=
  ∀ (pin : Byte) (value : Half) (s : State), s.cfg.role = .coordinator →
    ∃ t, exec (.analogData pin value) s = .next t ∧ t = { s with analogTab := t.analogTab } ∧
      ∀ slot p, analogRead t slot p =
        if pin.toNat < s.cfg.tablePins ∧ slot = s.rxAddr.toNat % s.cfg.tableSize ∧ p = pin then some ⟨value, s.now⟩
        else analogRead s slot p

/-- R225, as R224 for a level. -/
def Obligations.DigitalDataStored : Prop :=
  ∀ (pin : Byte) (high : Bool) (s : State), s.cfg.role = .coordinator →
    ∃ t, exec (.digitalData pin high) s = .next t ∧ t = { s with digitalTab := t.digitalTab } ∧
      ∀ slot p, digitalRead t slot p =
        if pin.toNat < s.cfg.tablePins ∧ slot = s.rxAddr.toNat % s.cfg.tableSize ∧ p = pin then some ⟨high, s.now⟩
        else digitalRead s slot p

/-- R226. Each triple is stored, in frame order: where both name one pin, the second stands. -/
def Obligations.AllAnalogDataStored : Prop :=
  ∀ (first : AnalogReading) (second : Option AnalogReading) (s : State), s.cfg.role = .coordinator →
    ∃ t, exec (.allAnalogData first second) s = .next t ∧ t = { s with analogTab := t.analogTab } ∧
      ∀ slot p, analogRead t slot p =
        if p.toNat < s.cfg.tablePins ∧ slot = s.rxAddr.toNat % s.cfg.tableSize then
          match second with
          | some r => if p = r.pin then some ⟨r.value, s.now⟩
            else if p = first.pin then some ⟨first.value, s.now⟩ else analogRead s slot p
          | none => if p = first.pin then some ⟨first.value, s.now⟩ else analogRead s slot p
        else analogRead s slot p

/-- R227 (the spec's decision D17): the eight pins 0 to 7 are stored from the bits, those at or above `TABLE_PINS` skipped. -/
def Obligations.AllDigitalDataStored : Prop :=
  ∀ (bits : Byte) (s : State), s.cfg.role = .coordinator →
    ∃ t, exec (.allDigitalData bits) s = .next t ∧ t = { s with digitalTab := t.digitalTab } ∧
      ∀ slot p, digitalRead t slot p =
        if p.toNat < 8 ∧ p.toNat < s.cfg.tablePins ∧ slot = s.rxAddr.toNat % s.cfg.tableSize then
          some ⟨bits.getLsbD p.toNat, s.now⟩
        else digitalRead s slot p

/-! ### The inverter link -/

/-- R129, R296, R300. The ten bytes of a command frame; its `crc16`, from the seed `0xFFFF`, with `CRC_STEP` called on the
two half-bytes of each byte in wire order, in the configured order, and complemented at the end; and the command byte of each
of the five commands (R131). -/
def Obligations.CommandFrameLayout : Prop :=
  ∀ (c : Config) (speed : Half),
    (∀ bytes : List Byte, crc16 c bytes =
      (bytes.flatMap fun b =>
        if c.crcHighNibbleFirst then [b.extractLsb' 4 4, b.extractLsb' 0 4]
        else [b.extractLsb' 0 4, b.extractLsb' 4 4]).foldl (crcStep c) 0xFFFF#16 ^^^ 0xFFFF#16) ∧
    (∀ cmd : Byte, ∃ crc, crc = crc16 c [cmd, hi8 speed, lo8 speed, 0x00#8, 0x00#8, 0x00#8, 0x00#8, 0x00#8] ∧
      buildCommandFrame c cmd speed =
        [cmd, hi8 speed, lo8 speed, 0x00#8, 0x00#8, 0x00#8, 0x00#8, 0x00#8, hi8 crc, lo8 crc]) ∧
    encode c (.invCw speed) = buildCommandFrame c 0x14#8 speed ∧
    encode c (.invCcw speed) = buildCommandFrame c 0x18#8 speed ∧
    encode c (.invUnbalanceQuery speed) = buildCommandFrame c 0x27#8 speed ∧
    encode c (.invLoadQuery speed) = buildCommandFrame c 0xB0#8 speed ∧
    encode c (.invAccelProfile speed) = buildCommandFrame c 0xA0#8 speed

/-- R301 to R303 (the speed field is the spec's decision D23): `CW` and `CCW` hand their frame to the serial line and write
no state; what `EmitInverterCommand` sends is the one of the direction register with `currentRpm`. A node without a motor has
no link: the model refuses there (log entry 10). -/
def Obligations.InverterCommandsSent : Prop :=
  ∀ s : State,
    let sent := fun bytes : List Byte =>
      ({ s with env := { s.env with trace := s.env.trace ++ [.serialSend bytes] } } : State)
    (s.cfg.hasMotor = true →
      (∀ speed, exec (.invCw speed) s = .next (sent (encode s.cfg (.invCw speed)))) ∧
      (∀ speed, exec (.invCcw speed) s = .next (sent (encode s.cfg (.invCcw speed)))) ∧
      exec (if s.direction = .cw then .invCw s.currentRpm else .invCcw s.currentRpm) s =
        .next (emitInverterCommand s)) ∧
    (s.cfg.hasMotor = false →
      ∀ speed, exec (.invCw speed) s = .refused .noInverterLink ∧ exec (.invCcw speed) s = .refused .noInverterLink)

/-- R304 to R306: where a host is given an operation that sends them, the three other commands hand
`BuildCommandFrame(cmd, 0)` to the serial line and write no state. The flag `hostInverterQueries`, the refusal where it is off
and the refusal of any other payload are the model's choice (log entry 11). -/
def Obligations.InverterQueriesOnlyWhereGiven : Prop :=
  ∀ s : State,
    let sent := fun bytes : List Byte =>
      ({ s with env := { s.env with trace := s.env.trace ++ [.serialSend bytes] } } : State)
    (s.cfg.hostInverterQueries = true → s.cfg.hasMotor = true →
      exec (.invUnbalanceQuery 0#16) s = .next (sent (buildCommandFrame s.cfg 0x27#8 0#16)) ∧
      exec (.invLoadQuery 0#16) s = .next (sent (buildCommandFrame s.cfg 0xB0#8 0#16)) ∧
      exec (.invAccelProfile 0#16) s = .next (sent (buildCommandFrame s.cfg 0xA0#8 0#16))) ∧
    (s.cfg.hostInverterQueries = true → ∀ speed, speed ≠ 0#16 →
      exec (.invUnbalanceQuery speed) s = .refused .inverterPayloadUnknown ∧
      exec (.invLoadQuery speed) s = .refused .inverterPayloadUnknown ∧
      exec (.invAccelProfile speed) s = .refused .inverterPayloadUnknown) ∧
    (s.cfg.hostInverterQueries = false → ∀ speed,
      exec (.invUnbalanceQuery speed) s = .refused .inverterQueryNotGiven ∧
      exec (.invLoadQuery speed) s = .refused .inverterQueryNotGiven ∧
      exec (.invAccelProfile speed) s = .refused .inverterQueryNotGiven)

/-- R310 to R313 (acceptance on the CRC alone and the class are the spec's decision D25): a reply whose CRC is that of bytes 0
to 7 writes `actualRpm`, `fault`, `lastReply` and `lastEcho` and nothing else; any other writes nothing. -/
def Obligations.ReplyAcceptedOnCrcAlone : Prop :=
  ∀ (cls echo : Byte) (actual : Half) (byte4 fault byte6 byte7 : Byte) (crc : Half) (s : State),
    s.cfg.hasMotor = true →
    exec (.invReply cls echo actual byte4 fault byte6 byte7 crc) s =
      if crc16 s.cfg [cls, echo, hi8 actual, lo8 actual, byte4, fault, byte6, byte7] = crc then
        .next { s with
          actualRpm := actual, fault := fault, lastEcho := echo
          lastReply := if cls = s.cfg.invAck then .ack else if cls = s.cfg.invNak then .nak else .other }
      else .next s

/-- R313. A ten-byte group that fails the CRC check is removed whole in phase 3; no register changes, nothing is called, and
the bytes behind it stay in order. -/
def Obligations.CorruptGroupDroppedWhole : Prop :=
  ∀ (s : State) (b0 b1 b2 b3 b4 b5 b6 b7 h l : Byte) (rest : List Byte), s.cfg.hasMotor = true →
    s.rxFifo = [b0, b1, b2, b3, b4, b5, b6, b7, h, l] ++ rest →
    crc16 s.cfg [b0, b1, b2, b3, b4, b5, b6, b7] ≠ u16be h l →
    phase3 s = .next { s with rxFifo := rest }

/-- R308 and R333 (the spec's decisions D26 and D30): fewer than ten bytes wait; of ten or more, exactly ten are consumed and
run as a reply frame; a node without a motor does nothing in phase 3. -/
def Obligations.SerialServiceTakesTenBytes : Prop :=
  ∀ s : State,
    (s.cfg.hasMotor = false → phase3 s = .next s) ∧
    (s.rxFifo.length < 10 → phase3 s = .next s) ∧
    ∀ (b0 b1 b2 b3 b4 b5 b6 b7 h l : Byte) (rest : List Byte), s.cfg.hasMotor = true →
      s.rxFifo = [b0, b1, b2, b3, b4, b5, b6, b7, h, l] ++ rest →
      phase3 s = exec (.invReply b0 b1 (u16be b2 b3) b4 b5 b6 b7 (u16be h l)) { s with rxFifo := rest } ∧
      (crc16 s.cfg [b0, b1, b2, b3, b4, b5, b6, b7] = u16be h l →
        phase3 s = .next { s with
          rxFifo := rest, actualRpm := u16be b2 b3, fault := b5, lastEcho := b1
          lastReply := if b0 = s.cfg.invAck then .ack else if b0 = s.cfg.invNak then .nak else .other })

/-- R307 (the spec's decision D26): an arriving byte goes to the tail of `rxFifo`, or is lost when `RX_DEPTH` bytes are held;
nothing else changes. -/
def Obligations.ArrivingByteKeptOrLost : Prop :=
  ∀ (s : State) (b : Byte) (rest : List Input), s.cfg.Legal → s.cfg.hasMotor = true →
    s.env.inputs = .rxPush b :: rest →
    step s = .next { s with
      rxFifo := if s.rxFifo.length < s.cfg.rxDepth then s.rxFifo ++ [b] else s.rxFifo
      env := { s.env with inputs := rest } }

/-- R316 (derived in the spec from R299 and R310): under the spec's named hypothesis `CrcDetectsByteError`, every change of
one of the ten bytes of a valid frame makes it invalid; for the two CRC bytes without the hypothesis. And what `CRC_STEP` is:
the open function of R295, or one of the two shapes of R297, which are the model's from general knowledge (PRESUMED, log
entry 4). -/
def Obligations.SingleByteCorruptionRejected : Prop :=
  ∀ c : Config,
    (∀ (f : List Byte) (i : Nat) (x : Byte), f.length = 10 → i < 10 → f[i]? ≠ some x →
      (i < 8 → CrcDetectsByteError c) →
      frameValid c (f.take 8) (u16be (f.getD 8 0#8) (f.getD 9 0#8)) = true →
      frameValid c ((f.set i x).take 8) (u16be ((f.set i x).getD 8 0#8) ((f.set i x).getD 9 0#8)) = false) ∧
    ∀ (crc : Half) (nibble : BitVec 4),
      (c.crcStep = .configured → crcStep c crc nibble = Config.crcStepOpen crc nibble) ∧
      (∀ table, c.crcStep = .tableHigh table →
        crcStep c crc nibble = (crc <<< 4) ^^^ table.toList.getD (crc.extractLsb' 12 4 ^^^ nibble).toNat 0#16) ∧
      (∀ table, c.crcStep = .tableLow table →
        crcStep c crc nibble = (crc >>> 4) ^^^ table.toList.getD (crc.extractLsb' 0 4 ^^^ nibble).toNat 0#16)

/-! ### The bus transport -/

/-- R152, R154, R155 (retry after a timeout and the drop event are the spec's decision D29): the calls, the result and the answers
consumed by one `SendWithRetry`, each attempt handed the timeout, for each pair of answers (rows T1 to T7 of 95_test_vectors.md). -/
def Obligations.SendWithRetryFollowsAnswers : Prop :=
  ∀ (f : BusFrame) (timeout : Nat) (e : Env) (r1 r2 : SendOutcome) (rest : List SendOutcome),
    e.sendAnswers = r1 :: r2 :: rest →
    e.sendWithRetry f timeout =
      if r1 = .ok then (.sent, { e with sendAnswers := r2 :: rest, trace := e.trace ++ [.busSend f timeout .ok] })
      else
        let calls := [.busSend f timeout r1] ++ (if r1 = .busOff then [.busRecover] else []) ++ [.busSend f timeout r2]
        if r2 = .ok then (.sent, { e with sendAnswers := rest, trace := e.trace ++ calls })
        else (.dropped,
          { e with sendAnswers := rest, trace := e.trace ++ (calls ++ [.hostEvent (.txDropped f r1 r2)]) })

/-- R156. Whatever the environment answers, one `SendWithRetry` makes at most two `BusSend` calls and at most one
`BusRecover` call. -/
def Obligations.AtMostTwoTransmitAttempts : Prop :=
  ∀ (f : BusFrame) (timeout : Nat) (e : Env), ∃ calls, (e.sendWithRetry f timeout).2.trace = e.trace ++ calls ∧
    calls.countP Observation.isBusSend ≤ 2 ∧ calls.count .busRecover ≤ 1

/-- R155, R187, R414: the outcomes of `BusSend` decide nothing but the calls themselves. Two nodes that differ only in the
answers listed for `BusSend` stop alike, or go on to states that differ in nothing of rule R20. -/
def Obligations.SendOutcomesChangeNoState : Prop :=
  ∀ (s : State) (answers : List SendOutcome),
    let s' : State := { s with env := { s.env with sendAnswers := answers } }
    (∀ t, step s = .next t → ∃ t', step s' = .next t' ∧ OnlyEnv t t') ∧
    (∀ r, step s = .refused r → step s' = .refused r)

/-! ### The dispatchers and the step -/

/-- R185. A frame under another address has no effect at all: the dispatch changes nothing, and the whole iteration is that of
no frame. A frame under the node's own address is run by the switch with `dstate` at `Processing(data[0])`, which then goes
back to `Idle`. -/
def Obligations.AddressFilter : Prop :=
  ∀ (s : State) (f : BusFrame), s.cfg.role = .peer →
    (f.address ≠ s.cfg.selfAddress → phase1 (some f) s = .next s ∧
      ∀ advance, iteration advance (some f) s = iteration advance none s) ∧
    (∀ (op : Byte) (rest : List Byte), f.address = s.cfg.selfAddress → f.data = op :: rest → f.data.length ≤ 8 →
      phase1 (some f) s =
        andThen (peerSwitch f.data { s with dstate := .processing op, rxAddr := f.address })
          (fun u => .next { u with dstate := .idle }))

/-- R186, R195, R198, R363 (the order is the spec's decision D12): of a frame that passed the filter, an opcode the peer does
not support raises `unknown-opcode`, whatever the length; a supported one that is too short raises `length`; any other is run
by its rule. -/
def Obligations.PeerChecksInOrder : Prop :=
  ∀ (s : State) (f : BusFrame) (b : Byte) (rest : List Byte), s.cfg.role = .peer → f.address = s.cfg.selfAddress →
    f.data = b :: rest → f.data.length ≤ 8 → ∃ t, phase1 (some f) s = .next t ∧
      match BusOp.ofByte b with
      | none => ErrorTaken { s with rxAddr := f.address } t b s.cfg.errUnknownOpcode
      | some op =>
        if supported s.cfg op = false then ErrorTaken { s with rxAddr := f.address } t b s.cfg.errUnknownOpcode
        else if f.data.length < op.minLen then ErrorTaken { s with rxAddr := f.address } t b s.cfg.errLength
        else ∃ i u, decodeBus s.cfg.busU16HighFirst f.data = .decoded i ∧ i.busOp = some op ∧
          exec i { s with dstate := .processing b, rxAddr := f.address } = .next u ∧ t = { u with dstate := .idle }

/-- R220, R221 (the spec's decision D15): the coordinator takes frames of every address, runs what decodes to a response
opcode, and discards everything else with no state change (beside the model's own latch of the frame's address), no frame
and no event. -/
def Obligations.CoordinatorRunsResponsesOnly : Prop :=
  ∀ (s : State) (f : BusFrame) (b : Byte) (rest : List Byte), s.cfg.role = .coordinator → f.data = b :: rest →
    f.data.length ≤ 8 →
    (∀ i op, decodeBus s.cfg.busU16HighFirst f.data = .decoded i → i.busOp = some op → op.isCommand = false →
      ∃ u, exec i { s with dstate := .processing b, rxAddr := f.address } = .next u ∧
        phase1 (some f) s = .next { u with dstate := .idle }) ∧
    ((∀ i op, decodeBus s.cfg.busU16HighFirst f.data = .decoded i → i.busOp = some op → op.isCommand = true) →
      phase1 (some f) s = .next { s with rxAddr := f.address, dstate := .idle })

/-- R330 to R333, R336: a step runs the decoded instruction. First what its phases are: no frame, no phase 1 (R331); phase 2 is
the ramp step, the keep-alive and the status frame of a motor node, in the order of the spec's decision D30 (R332). Then the
step, by its input: (1) any iteration is its three phases in order; (2) a frame for this node that decodes to `i`: `exec i`
with `dstate` and the address latched, then `dstate` back to `Idle`, then phases 2 and 3; (3) no frame and a reply group at
the head of `rxFifo`: phase 2, then `exec` of the reply; (4) no frame and no such group: phase 2 alone; (5) a host call: that
call at the clock value of its own reading; (6) of these, the host's inverter query (log entry 11): `exec` of its command, then
the return. -/
def Obligations.StepRunsDecodedInstruction : Prop :=
  (∀ s : State, phase1 none s = .next s ∧
    phase2 s = if s.cfg.hasMotor then statusBeacon (keepAlive (rampTick s)) else s) ∧
  ∀ (s : State) (rest : List Input), s.cfg.Legal →
    (∀ advance received, s.env.inputs = .iteration advance received :: rest →
      step s = iteration advance received { s with env := { s.env with inputs := rest } } ∧
      step s =
        andThen
          (phase1 received
            { s with now := s.now + advance.setWidth 32, env := { s.env with inputs := rest } })
          (fun u => phase3 (phase2 u))) ∧
    (∀ advance f b tail i, s.env.inputs = .iteration advance (some f) :: rest → f.data = b :: tail →
      f.data.length ≤ 8 → (s.cfg.role = .peer → f.address = s.cfg.selfAddress) →
      decodeBus s.cfg.busU16HighFirst f.data = .decoded i →
      step s =
        andThen
          (exec i { s with
            now := s.now + advance.setWidth 32, dstate := .processing b, rxAddr := f.address
            env := { s.env with inputs := rest } })
          (fun u => phase3 (phase2 { u with dstate := .idle }))) ∧
    (∀ advance b0 b1 b2 b3 b4 b5 b6 b7 h l tail, s.env.inputs = .iteration advance none :: rest →
      s.cfg.hasMotor = true → s.rxFifo = [b0, b1, b2, b3, b4, b5, b6, b7, h, l] ++ tail →
      step s = exec (.invReply b0 b1 (u16be b2 b3) b4 b5 b6 b7 (u16be h l))
        { phase2 { s with now := s.now + advance.setWidth 32, env := { s.env with inputs := rest } } with
          rxFifo := tail }) ∧
    (∀ advance, s.env.inputs = .iteration advance none :: rest →
      s.cfg.hasMotor = false ∨ s.rxFifo.length < 10 →
      step s = .next
        (phase2 { s with now := s.now + advance.setWidth 32, env := { s.env with inputs := rest } })) ∧
    (∀ advance call, s.env.inputs = .hostCall advance call :: rest →
      step s = hostCall call
        { s with now := s.now + advance.setWidth 32, env := { s.env with inputs := rest } }) ∧
    (∀ advance query, s.env.inputs = .hostCall advance (.inverterQuery query) :: rest →
      step s =
        andThen
          (exec (queryInstr query)
            { s with now := s.now + advance.setWidth 32, env := { s.env with inputs := rest } })
          (fun u => .next (hostReturn .done u)))

/-- R233 to R241. Each client function sends exactly one command frame under the target's address by one `SendWithRetry`,
returns its result, and writes no state; a speed is not clamped. `u16` fields go high byte first where `BUS_U16_HIGH_FIRST`
holds. -/
def Obligations.ClientFunctionsSendOneFrame : Prop :=
  (∀ v, putBus16 true v = [hi8 v, lo8 v]) ∧
  ∀ (s : State) (a : Addr), s.cfg.role = .coordinator →
    (∀ pin, ∃ t, hostCall (.requestAnalog a pin) s = .next t ∧ SentForHost s t ⟨a, [0x03#8, pin]⟩) ∧
    (∀ pin, ∃ t, hostCall (.requestDigital a pin) s = .next t ∧ SentForHost s t ⟨a, [0x04#8, pin]⟩) ∧
    (∃ t, hostCall (.requestAllAnalog a) s = .next t ∧ SentForHost s t ⟨a, [0x05#8]⟩) ∧
    (∃ t, hostCall (.requestAllDigital a) s = .next t ∧ SentForHost s t ⟨a, [0x06#8]⟩) ∧
    (∀ port on, ∃ t, hostCall (.setOutput a port on) s = .next t ∧
      SentForHost s t ⟨a, [if on then 0x01#8 else 0x02#8, port]⟩) ∧
    (∀ rpm, ∃ t, hostCall (.setMotorRpm a rpm) s = .next t ∧
      SentForHost s t ⟨a, 0x30#8 :: putBus16 s.cfg.busU16HighFirst rpm⟩) ∧
    (∀ clockwise, ∃ t, hostCall (.setMotorDirection a clockwise) s = .next t ∧
      SentForHost s t ⟨a, [0x31#8, if clockwise then 0x01#8 else 0x00#8]⟩) ∧
    (∃ t, hostCall (.stopMotor a) s = .next t ∧ SentForHost s t ⟨a, [0x32#8]⟩) ∧
    (∃ t, hostCall (.requestMotorStatus a) s = .next t ∧ SentForHost s t ⟨a, [0x33#8]⟩)

/-- R265, R278, R282 (the spec's decision D32): a host call of a motor node is the function of the opcode without a bus reply,
and `status` returns the eight registers and writes nothing. -/
def Obligations.HostMotorCalls : Prop :=
  ∀ s : State, s.cfg.role = .peer → s.cfg.hasMotor = true →
    (∀ rpm, ∃ t c, hostCall (.setRpm rpm) s = .next t ∧ c.toNat = min rpm.toNat s.cfg.maxRpm.toNat ∧
      if s.currentRpm.toNat ≤ c.toNat then
        t = { s with commandedRpm := c, currentRpm := c, targetRpm := c, decelerating := false, env := t.env } ∧
        Observed s t [.serialSend (buildCommandFrame s.cfg (commandByte s.direction) c), .hostReturn .done]
      else
        t = { s with
          commandedRpm := c, targetRpm := c, decelerating := true, env := t.env
          lastStepTime := if s.decelerating then s.lastStepTime else s.now } ∧
        Observed s t [.hostReturn .done]) ∧
    (∀ d, ∃ t, hostCall (.setDirection d) s = .next t ∧ t = { s with direction := d, env := t.env } ∧
      Observed s t [.serialSend (buildCommandFrame s.cfg (commandByte d) s.currentRpm), .hostReturn .done]) ∧
    (∃ t, hostCall .stop s = .next t ∧
      t = { s with
        commandedRpm := 0#16, currentRpm := 0#16, targetRpm := 0#16, decelerating := false, env := t.env } ∧
      Observed s t [.serialSend (buildCommandFrame s.cfg (commandByte s.direction) 0#16), .hostReturn .done]) ∧
    (∃ t, hostCall .status s = .next t ∧ OnlyEnv s t ∧
      Observed s t [.hostReturn (.status
        ⟨s.currentRpm, s.targetRpm, s.commandedRpm, s.direction, s.decelerating, s.actualRpm, s.fault, s.lastReply⟩)])

/-! ### The ramp and the timers -/

/-- R272 (the late-step rule and the frame are the spec's decisions D20 and D21): nothing unless a deceleration's interval has
elapsed; then one step, which snaps to the target when at most `DECEL_STEP` above it, and one inverter frame with the new
speed. -/
def Obligations.RampTickStepsOrSnaps : Prop :=
  ∀ s : State,
    (s.decelerating = false ∨ elapsed s.now s.lastStepTime < s.cfg.decelInterval → rampTick s = s) ∧
    (s.decelerating = true → s.cfg.decelInterval ≤ elapsed s.now s.lastStepTime →
      s.targetRpm.toNat < s.currentRpm.toNat → ∃ speed : Half,
        Observed s (rampTick s) [.serialSend (buildCommandFrame s.cfg (commandByte s.direction) speed)] ∧
        if s.currentRpm.toNat - s.targetRpm.toNat ≤ s.cfg.decelStep.toNat then
          speed = s.targetRpm ∧
          rampTick s = { s with
            lastStepTime := s.now, currentRpm := speed, decelerating := false, env := (rampTick s).env }
        else
          speed.toNat = s.currentRpm.toNat - s.cfg.decelStep.toNat ∧ s.targetRpm.toNat < speed.toNat ∧
          rampTick s = { s with lastStepTime := s.now, currentRpm := speed, env := (rampTick s).env })

/-- R276 and R334 (the spec's decisions D21 and D28): a due keep-alive emits the present direction and speed and restarts only
its own timer; a due status frame, where it is enabled, reports as `MOTOR_STATUS` does and restarts only its own; neither does
anything before its interval. -/
def Obligations.PeriodicFramesWhenDue : Prop :=
  ∀ s : State,
    (elapsed s.now s.lastKeepAlive < s.cfg.keepAliveInterval → keepAlive s = s) ∧
    (s.cfg.keepAliveInterval ≤ elapsed s.now s.lastKeepAlive →
      keepAlive s = { s with lastKeepAlive := s.now, env := (keepAlive s).env } ∧
      Observed s (keepAlive s) [.serialSend (buildCommandFrame s.cfg (commandByte s.direction) s.currentRpm)]) ∧
    (s.cfg.statusInterval = 0 ∨ elapsed s.now s.lastStatus < s.cfg.statusInterval → statusBeacon s = s) ∧
    (0 < s.cfg.statusInterval → s.cfg.statusInterval ≤ elapsed s.now s.lastStatus →
      statusBeacon s = { s with lastStatus := s.now, env := (statusBeacon s).env } ∧
      RepliedAfter s (statusBeacon s) [] (encode s.cfg (statusInstr s)))

/-- R279 (derived in the spec), per step: in a step that starts and ends in a deceleration the speed falls by at most
`DECEL_STEP`, and only when at least `DECEL_INTERVAL` has elapsed since the latest step or the entry, the step clock being
restarted then and only then. -/
def Obligations.DecelerationStepBound : Prop :=
  ∀ s t : State, Inv s → step s = .next t → s.decelerating = true → t.decelerating = true →
    t.currentRpm.toNat ≤ s.currentRpm.toNat ∧ s.currentRpm.toNat - t.currentRpm.toNat ≤ s.cfg.decelStep.toNat ∧
    (t.currentRpm = s.currentRpm → t.lastStepTime = s.lastStepTime) ∧
    (t.currentRpm ≠ s.currentRpm →
      s.cfg.decelInterval ≤ elapsed t.now s.lastStepTime ∧ t.lastStepTime = t.now)

/-- R279 (derived in the spec), over runs: inside one deceleration of any length, through any inputs, the speed falls by at
most one `DECEL_STEP` for every `DECEL_INTERVAL`, and by at most one within `DECEL_INTERVAL` when no step is due at the start;
the clock may wrap any number of times. -/
def Obligations.DecelerationWindowBound : Prop :=
  ∀ (time : Nat) (s t : State), Inv s → DecelRun time s t → 1 ≤ s.cfg.decelInterval →
    s.currentRpm.toNat - t.currentRpm.toNat ≤ (time / s.cfg.decelInterval + 1) * s.cfg.decelStep.toNat ∧
    (time < s.cfg.decelInterval → s.currentRpm.toNat - t.currentRpm.toNat ≤ s.cfg.decelStep.toNat) ∧
    (elapsed s.now s.lastStepTime < s.cfg.decelInterval → time ≤ s.cfg.decelInterval →
      s.currentRpm.toNat - t.currentRpm.toNat ≤ s.cfg.decelStep.toNat)

/-- R280 (derived in the spec): at due clock values a deceleration takes exactly `ceil((current - target) / DECEL_STEP)` ramp
steps: before the last of them the speed is lower by a full step each, and the last one snaps to the target and ends it. -/
def Obligations.DecelerationEndsInCountedSteps : Prop :=
  ∀ (s : State) (times : List Time), MotorInv s → s.decelerating = true → 1 ≤ s.cfg.decelStep.toNat →
    DueChain s.cfg.decelInterval s.lastStepTime times →
    let steps :=
      (s.currentRpm.toNat - s.targetRpm.toNat + s.cfg.decelStep.toNat - 1) / s.cfg.decelStep.toNat
    let t := times.foldl rampTickAt s
    t.targetRpm = s.targetRpm ∧ t.decelerating = decide (times.length < steps) ∧
    t.currentRpm.toNat =
      if times.length < steps then s.currentRpm.toNat - times.length * s.cfg.decelStep.toNat else s.targetRpm.toNat

/-! ### The whole machine -/

/-- R47, R48 (values other than the table's are the spec's decision D27): reset of any node at any clock value, field by field;
and the boot of a running node gives the same fields, its configuration kept and nothing sent. `now` and `rxAddr` are the
model's own (log entries 5 and 17). -/
def Obligations.ResetValues : Prop :=
  ∀ (cfg : Config) (t0 : Time),
    (let s := State.resetOf cfg t0
     s.cfg = cfg ∧ s.commandedRpm = 0#16 ∧ s.currentRpm = 0#16 ∧ s.targetRpm = 0#16 ∧ s.direction = .cw ∧
     s.decelerating = false ∧ rampState s = .stopped ∧ s.lastStepTime = t0 ∧ s.lastKeepAlive = t0 ∧
     s.lastStatus = t0 ∧ s.actualRpm = 0#16 ∧ s.fault = 0#8 ∧ s.lastReply = .none ∧ s.lastEcho = 0#8 ∧
     s.rxFifo = [] ∧ (∀ p, latchRead s p = none) ∧ s.dstate = .idle ∧
     (∀ slot pin, analogRead s slot pin = none ∧ digitalRead s slot pin = none) ∧
     (∀ address pin isAnalog, getReading s address pin isAnalog = .invalid) ∧ s.env.trace = []) ∧
    ∀ (s : State) (rest : List Input), s.cfg.Legal → s.env.inputs = .boot t0 :: rest → ∃ t, step s = .next t ∧
      t = { State.resetOf s.cfg t0 with env := t.env } ∧ t.env.trace = s.env.trace ∧ t.env.inputs = rest

/-- Reset of every legal configuration, and the model's `State.reset` (log entry 3), meet the invariant of a node. -/
def Obligations.ResetMeetsInvariant : Prop :=
  (∀ (cfg : Config) (t0 : Time), cfg.Legal → Inv (State.resetOf cfg t0)) ∧ Inv State.reset

/-- R28 (i) to (iv) (derived in the spec), R31, R33, with the canonical form and the bounds of the tables (log entry 8): from
every state that meets the invariant, every step that goes on gives a state that meets it. -/
def Obligations.StepKeepsInvariant : Prop :=
  ∀ s t : State, Inv s → step s = .next t → Inv t

/-- R39, R406: no step writes the configuration; a configuration outside the constraints of rule R8 has no meaning, and the
model refuses it (log entry 12). -/
def Obligations.ConfigurationNeverWritten : Prop :=
  ∀ s : State, (∀ t, step s = .next t → t.cfg = s.cfg) ∧
    (¬ s.cfg.Legal → step s = .refused .illegalConfiguration)

/-- R402 (with R37): a boot makes every table entry invalid, so that `get` answers `Invalid`; no other step makes a valid entry
invalid. -/
def Obligations.ValidityLostOnlyByBoot : Prop :=
  ∀ s t : State, step s = .next t →
    (∀ t0, s.env.nextInput.1 = .boot t0 →
      (∀ slot pin, analogRead t slot pin = none ∧ digitalRead t slot pin = none) ∧
      ∀ address pin isAnalog, getReading t address pin isAnalog = .invalid) ∧
    ((∀ t0, s.env.nextInput.1 ≠ .boot t0) →
      ∀ slot pin, (analogRead s slot pin ≠ none → analogRead t slot pin ≠ none) ∧
        (digitalRead s slot pin ≠ none → digitalRead t slot pin ≠ none))

/-- R20, R371 (the spec's decision D34): no step other than a boot writes the motor state or the link of a node without a
motor, the latch of a node without ports, the tables of a peer, or the motor state, link or latch of the coordinator. -/
def Obligations.UnusedStateNeverWritten : Prop :=
  ∀ s t : State, step s = .next t → (∀ t0, s.env.nextInput.1 ≠ .boot t0) →
    (s.cfg.hasMotor = false → SameMotor s t ∧ SameLink s t) ∧
    (s.cfg.nPorts = 0 → SameLatch s t) ∧
    (s.cfg.role = .peer → SameTables s t) ∧
    (s.cfg.role = .coordinator → SameMotor s t ∧ SameLink s t ∧ SameLatch s t)

/-- R131, R134, R277 (derived and decided in the spec): every byte string a step hands to the serial line is a command frame
built with its CRC, of `CW` or `CCW`; one of the other three only where the host is given them (log entry 11). A coordinator
sends none. -/
def Obligations.SerialFramesAreCommands : Prop :=
  ∀ s t : State, step s = .next t → ∃ calls, t.env.trace = s.env.trace ++ calls ∧
    ∀ bytes, Observation.serialSend bytes ∈ calls → s.cfg.hasMotor = true ∧ ∃ cmd speed,
      bytes = buildCommandFrame s.cfg cmd speed ∧
      (cmd = 0x14#8 ∨ cmd = 0x18#8 ∨
        (s.cfg.hostInverterQueries = true ∧ speed = 0#16 ∧ (cmd = 0x27#8 ∨ cmd = 0xB0#8 ∨ cmd = 0xA0#8)))

/-- R101, R113, R152, R188 (the address rule is the spec's decision D4), R220: every frame a step of a peer sends is a response
under the peer's own address; every frame the coordinator sends is a command, and it sends none in an iteration; every frame
has one to seven bytes, and every `BusSend` is handed the node's `SEND_TIMEOUT`. -/
def Obligations.BusFramesByRole : Prop :=
  ∀ s t : State, step s = .next t → ∃ calls, t.env.trace = s.env.trace ++ calls ∧
    (∀ f timeout outcome, Observation.busSend f timeout outcome ∈ calls → timeout = s.cfg.sendTimeout ∧ ∃ i op,
      i.busOp = some op ∧ f.data = encode s.cfg i ∧ 1 ≤ f.data.length ∧ f.data.length ≤ 7 ∧
      (s.cfg.role = .peer → f.address = s.cfg.selfAddress ∧ op.isCommand = false) ∧
      (s.cfg.role = .coordinator → op.isCommand = true)) ∧
    (s.cfg.role = .coordinator → ∀ advance received, s.env.nextInput.1 = .iteration advance received →
      calls.countP Observation.isBusSend = 0)

/-- R335 (derived in the spec): in one iteration, at most `ceil(N_ANALOG/2)` replies (one for every opcode but
`READ_ALL_ANALOG`) and one status frame, each at most two attempts; at most three inverter frames; ten bytes or none consumed
from `rxFifo`. -/
def Obligations.IterationIsBounded : Prop :=
  ∀ (s t : State) (advance : BitVec 31) (received : Option BusFrame), s.cfg.Legal →
    iteration advance received s = .next t → ∃ calls, t.env.trace = s.env.trace ++ calls ∧
      calls.countP Observation.isBusSend ≤ 2 * (max 1 ((s.cfg.nAnalog + 1) / 2) + 1) ∧
      calls.countP Observation.isSerialSend ≤ 3 ∧
      (received = none → calls.countP Observation.isBusSend ≤ 2 ∧ calls.countP Observation.isSerialSend ≤ 2) ∧
      (t.rxFifo = s.rxFifo ∨ (10 ≤ s.rxFifo.length ∧ t.rxFifo = s.rxFifo.drop 10))

/-- R252, R253, with R250. The host call `get` on the coordinator returns the entry of its kind at the address's slot and pin,
or `Invalid` where none is valid and for a pin at or above `TABLE_PINS` (which R252's pseudocode states and R251 calls the
spec's decision D17), and writes nothing. A reading stored under one address is what `get` returns for every address congruent
to it modulo `TABLE_SIZE`, with the time of the store; every other reading is as before, the two kinds being apart. -/
def Obligations.CongruentAddressesShareReadings : Prop :=
  ∀ (s : State) (a : Addr) (pin : Byte),
    (s.cfg.role = .coordinator → ∀ isAnalog, hostCall (.get a pin isAnalog) s = .next
      { s with env :=
        { s.env with trace := s.env.trace ++ [.hostReturn (.reading (getReading s a pin isAnalog))] } }) ∧
    (s.cfg.tablePins ≤ pin.toNat → ∀ isAnalog, getReading s a pin isAnalog = .invalid) ∧
    (pin.toNat < s.cfg.tablePins →
      (getReading s a pin true = match analogRead s (a.toNat % s.cfg.tableSize) pin with
        | some e => .analog e.value e.timestamp
        | none => .invalid) ∧
      (getReading s a pin false = match digitalRead s (a.toNat % s.cfg.tableSize) pin with
        | some e => .digital e.level e.timestamp
        | none => .invalid)) ∧
    (∀ value b, pin.toNat < s.cfg.tablePins → b.toNat % s.cfg.tableSize = a.toNat % s.cfg.tableSize →
      getReading (storeAnalog a pin value s) b pin true = .analog value s.now) ∧
    (∀ level b, pin.toNat < s.cfg.tablePins → b.toNat % s.cfg.tableSize = a.toNat % s.cfg.tableSize →
      getReading (storeDigital a pin level s) b pin false = .digital level s.now) ∧
    (∀ value b q isAnalog, isAnalog = false ∨ q ≠ pin ∨
        b.toNat % s.cfg.tableSize ≠ a.toNat % s.cfg.tableSize →
      getReading (storeAnalog a pin value s) b q isAnalog = getReading s b q isAnalog) ∧
    (∀ level b q isAnalog, isAnalog = true ∨ q ≠ pin ∨
        b.toNat % s.cfg.tableSize ≠ a.toNat % s.cfg.tableSize →
      getReading (storeDigital a pin level s) b q isAnalog = getReading s b q isAnalog)

/-- R78, R101, R185, R379: among nodes with different addresses at most one peer acts on a frame; every other peer's dispatch
leaves it as it was. -/
def Obligations.AtMostOnePeerActs : Prop :=
  ∀ (nodes : List State) (f : BusFrame), AddressesUnique nodes → ∀ (i j : Nat) (s t : State),
    nodes[i]? = some s → nodes[j]? = some t → s.cfg.role = .peer → t.cfg.role = .peer →
    phase1 (some f) s ≠ .next s → phase1 (some f) t ≠ .next t → i = j

/-- R191, R224, R233, R252 across two nodes (the byte order and the address rule are the spec's decisions D5 and D4): the
frame that `requestAnalog` sends, run by the peer it names, is answered with a frame which, run by the coordinator, makes
`get` return the transformed sample at the coordinator's time, whatever either node held before. -/
def Obligations.AnalogRequestEndToEnd : Prop :=
  ∀ (peer coordinator : State) (pin : Byte) (advance advance' : BitVec 31) (rest rest' : List Input)
    (answers : List SendOutcome),
    peer.cfg.Legal → peer.cfg.role = .peer → pin.toNat < peer.cfg.nAnalog → peer.env.sendAnswers = .ok :: answers →
    coordinator.cfg.Legal → coordinator.cfg.role = .coordinator → pin.toNat < coordinator.cfg.tablePins →
    coordinator.cfg.busU16HighFirst = peer.cfg.busU16HighFirst →
    peer.env.inputs =
      .iteration advance (some ⟨peer.cfg.selfAddress, encode coordinator.cfg (.readAnalog pin)⟩) :: rest →
    ∃ peer' data calls, step peer = .next peer' ∧
      peer'.env.trace = peer.env.trace ++
        ([.gpioReadAnalog pin (peer.env.nextAnalog pin).1, .busSend ⟨peer.cfg.selfAddress, data⟩ peer.cfg.sendTimeout .ok] ++ calls) ∧
      (coordinator.env.inputs = .iteration advance' (some ⟨peer.cfg.selfAddress, data⟩) :: rest' →
        ∃ coordinator', step coordinator = .next coordinator' ∧
          coordinator'.now = coordinator.now + advance'.setWidth 32 ∧
          getReading coordinator' peer.cfg.selfAddress pin true =
            .analog (analogValue peer.cfg pin (peer.env.nextAnalog pin).1) coordinator'.now)

end Slice0Obligations
end

