-- ==== Sys2Proof/Laws/Crc.lean ====
section
/-! SUPPORT. The checksum: a left-shifting table step whose entries differ in their low half-bytes loses nothing, so the
checksum detects every change of one byte; the reference table is such a table (R298, R299). -/

namespace Sys2Proof.Machine

/-- Entries with pairwise different low half-bytes. -/
def LowNibblesDiffer (table : Vector Half 16) : Prop :=
  ∀ j k : BitVec 4, (crcEntry table j).extractLsb' 0 4 = (crcEntry table k).extractLsb' 0 4 → j = k

theorem shiftLeft_xor_low (crc x : Half) : ((crc <<< 4) ^^^ x).extractLsb' 0 4 = x.extractLsb' 0 4 := by
  ext i hi
  simp only [BitVec.getElem_extractLsb', Nat.zero_add, BitVec.getLsbD_xor, BitVec.getLsbD_shiftLeft]
  simp [hi]

theorem low_of_shiftLeft {a b : Half} (h : a <<< 4 = b <<< 4) {i : Nat} (hi : i < 12) : a.getLsbD i = b.getLsbD i := by
  have hk : ∀ v : Half, (v <<< 4).getLsbD (i + 4) = v.getLsbD i := fun v => by
    simp only [BitVec.getLsbD_shiftLeft, show i + 4 < 16 by omega, show ¬ i + 4 < 4 by omega, decide_true, decide_false,
      Bool.not_false, Bool.true_and, Nat.add_sub_cancel]
  rw [← hk a, ← hk b, h]

theorem extract_of_bits {a b : Half} {k : Nat} (h : ∀ i, k ≤ i → i < k + 4 → a.getLsbD i = b.getLsbD i) :
    a.extractLsb' k 4 = b.extractLsb' k 4 :=
  BitVec.eq_of_getLsbD_eq fun i hi => by
    simp only [BitVec.getLsbD_extractLsb', h (k + i) (by omega) (by omega)]

theorem shiftLeft_top_injective {a b : Half} (h1 : a <<< 4 = b <<< 4) (h2 : a.extractLsb' 12 4 = b.extractLsb' 12 4) :
    a = b := by
  refine BitVec.eq_of_getLsbD_eq fun i hi => ?_
  by_cases h : i < 12
  · exact low_of_shiftLeft h1 h
  · have hk : ∀ v : Half, (v.extractLsb' 12 4).getLsbD (i - 12) = v.getLsbD i := fun v => by
      simp only [BitVec.getLsbD_extractLsb', show i - 12 < 4 by omega, show 12 + (i - 12) = i by omega, decide_true,
        Bool.true_and]
    rw [← hk a, ← hk b, h2]

theorem crcStep_tableHigh_eq {c : Config} {table : Vector Half 16} (hc : c.crcStep = .tableHigh table)
    (ht : LowNibblesDiffer table) {a b : Half} {m n : BitVec 4} (h : crcStep c a m = crcStep c b n) :
    a.extractLsb' 12 4 ^^^ m = b.extractLsb' 12 4 ^^^ n ∧ a <<< 4 = b <<< 4 := by
  simp only [crcStep, hc] at h
  have hidx : a.extractLsb' 12 4 ^^^ m = b.extractLsb' 12 4 ^^^ n :=
    ht _ _ ((shiftLeft_xor_low a _).symm.trans ((congrArg _ h).trans (shiftLeft_xor_low b _)))
  refine ⟨hidx, ?_⟩
  rw [hidx] at h
  exact (BitVec.xor_left_inj _).1 h

theorem crcStep_register_injective {c : Config} {table : Vector Half 16} (hc : c.crcStep = .tableHigh table)
    (ht : LowNibblesDiffer table) {a b : Half} {n : BitVec 4} (h : crcStep c a n = crcStep c b n) : a = b :=
  have h' := crcStep_tableHigh_eq hc ht h
  shiftLeft_top_injective h'.2 ((BitVec.xor_left_inj _).1 h'.1)

/-- The two half-bytes of a byte are not confused: both can be read back from the register. -/
theorem crcStep_twice_injective {c : Config} {table : Vector Half 16} (hc : c.crcStep = .tableHigh table)
    (ht : LowNibblesDiffer table) {a : Half} {m m' n n' : BitVec 4}
    (h : crcStep c (crcStep c a m) m' = crcStep c (crcStep c a n) n') : m = n ∧ m' = n' := by
  obtain ⟨h1, h2⟩ := crcStep_tableHigh_eq hc ht h
  have hlow : (crcStep c a m).extractLsb' 0 4 = (crcStep c a n).extractLsb' 0 4 :=
    extract_of_bits fun i _ hi => low_of_shiftLeft h2 (by omega)
  simp only [crcStep, hc, shiftLeft_xor_low] at hlow
  have hmn : m = n := (BitVec.xor_right_inj _).1 (ht _ _ hlow)
  subst hmn
  exact ⟨rfl, (BitVec.xor_right_inj _).1 h1⟩

theorem byte_of_nibbles {x y : Byte} (h1 : x.extractLsb' 4 4 = y.extractLsb' 4 4)
    (h2 : x.extractLsb' 0 4 = y.extractLsb' 0 4) : x = y := by
  refine BitVec.eq_of_getLsbD_eq fun i hi => ?_
  by_cases h : i < 4
  · have := congrArg (fun v => v.getLsbD i) h2
    simpa only [BitVec.getLsbD_extractLsb', h, decide_true, Bool.true_and, Nat.zero_add] using this
  · have := congrArg (fun v => v.getLsbD (i - 4)) h1
    simpa only [BitVec.getLsbD_extractLsb', show i - 4 < 4 by omega, show 4 + (i - 4) = i by omega, decide_true,
      Bool.true_and] using this

theorem crcNibbles_injective {c : Config} {x y : Byte} (h : crcNibbles c x = crcNibbles c y) : x = y := by
  unfold crcNibbles at h; split at h
  · exact byte_of_nibbles (congrArg Prod.fst h) (congrArg Prod.snd h)
  · exact byte_of_nibbles (congrArg Prod.snd h) (congrArg Prod.fst h)

theorem crcByte_byte_injective {c : Config} {table : Vector Half 16} (hc : c.crcStep = .tableHigh table)
    (ht : LowNibblesDiffer table) {a : Half} {x y : Byte} (h : crcByte c a x = crcByte c a y) : x = y :=
  have h' := crcStep_twice_injective hc ht h
  crcNibbles_injective (Prod.ext h'.1 h'.2)

theorem crcFold_register_injective {c : Config} {table : Vector Half 16} (hc : c.crcStep = .tableHigh table)
    (ht : LowNibblesDiffer table) (bytes : List Byte) {a b : Half}
    (h : bytes.foldl (crcByte c) a = bytes.foldl (crcByte c) b) : a = b := by
  induction bytes generalizing a b with
  | nil => exact h
  | cons x xs ih => exact crcStep_register_injective hc ht (crcStep_register_injective hc ht (ih h))

/-- A change of one byte changes the register at the end, whatever the seed. -/
theorem crcFold_set {c : Config} {table : Vector Half 16} (hc : c.crcStep = .tableHigh table)
    (ht : LowNibblesDiffer table) (bytes : List Byte) (i : Nat) (x : Byte) (a : Half) (hi : i < bytes.length)
    (hx : bytes[i]? ≠ some x) : (bytes.set i x).foldl (crcByte c) a ≠ bytes.foldl (crcByte c) a := by
  induction bytes generalizing i a with
  | nil => simp at hi
  | cons y ys ih =>
    cases i with
    | zero =>
      intro h
      exact hx (by simpa using (crcByte_byte_injective hc ht (crcFold_register_injective hc ht ys h)).symm)
    | succ i => exact ih i _ (by simpa using hi) (by simpa using hx)

theorem crcDetects_of_tableHigh {c : Config} {table : Vector Half 16} (hc : c.crcStep = .tableHigh table)
    (ht : LowNibblesDiffer table) : CrcDetectsByteError c := by
  intro b i x hb hi hx h
  exact crcFold_set hc ht b i x 0xFFFF#16 (by omega) hx ((BitVec.xor_left_inj _).1 h)

theorem crcRefTable_lowNibbles (k : BitVec 4) : (crcEntry Config.crcRefTable k).extractLsb' 0 4 = k := by
  revert k; decide

/-- The reference instance has the property (R299: "`CRC_REF` has the property"). -/
theorem crcRef_detects : CrcDetectsByteError Config.refMotorPeer :=
  crcDetects_of_tableHigh rfl fun j k h => by rwa [crcRefTable_lowNibbles, crcRefTable_lowNibbles] at h

end Sys2Proof.Machine
end

