-- ==== Sys2Proof/Laws/State.lean ====
section
/-! SUPPORT. One lemma per field per update: the interface calls write nothing of rule R20, the register updates write what
their rule names. -/

namespace Sys2Proof.Machine

/-! ### Calls that move only the environment's record -/

@[simp] theorem observe_cfg (o : Observation) (s : State) : (observe o s).cfg = s.cfg := rfl
@[simp] theorem observe_commandedRpm (o : Observation) (s : State) : (observe o s).commandedRpm = s.commandedRpm := rfl
@[simp] theorem observe_currentRpm (o : Observation) (s : State) : (observe o s).currentRpm = s.currentRpm := rfl
@[simp] theorem observe_targetRpm (o : Observation) (s : State) : (observe o s).targetRpm = s.targetRpm := rfl
@[simp] theorem observe_direction (o : Observation) (s : State) : (observe o s).direction = s.direction := rfl
@[simp] theorem observe_decelerating (o : Observation) (s : State) : (observe o s).decelerating = s.decelerating := rfl
@[simp] theorem observe_lastStepTime (o : Observation) (s : State) : (observe o s).lastStepTime = s.lastStepTime := rfl
@[simp] theorem observe_lastKeepAlive (o : Observation) (s : State) : (observe o s).lastKeepAlive = s.lastKeepAlive := rfl
@[simp] theorem observe_lastStatus (o : Observation) (s : State) : (observe o s).lastStatus = s.lastStatus := rfl
@[simp] theorem observe_actualRpm (o : Observation) (s : State) : (observe o s).actualRpm = s.actualRpm := rfl
@[simp] theorem observe_fault (o : Observation) (s : State) : (observe o s).fault = s.fault := rfl
@[simp] theorem observe_lastReply (o : Observation) (s : State) : (observe o s).lastReply = s.lastReply := rfl
@[simp] theorem observe_lastEcho (o : Observation) (s : State) : (observe o s).lastEcho = s.lastEcho := rfl
@[simp] theorem observe_rxFifo (o : Observation) (s : State) : (observe o s).rxFifo = s.rxFifo := rfl
@[simp] theorem observe_outLatch (o : Observation) (s : State) : (observe o s).outLatch = s.outLatch := rfl
@[simp] theorem observe_dstate (o : Observation) (s : State) : (observe o s).dstate = s.dstate := rfl
@[simp] theorem observe_analogTab (o : Observation) (s : State) : (observe o s).analogTab = s.analogTab := rfl
@[simp] theorem observe_digitalTab (o : Observation) (s : State) : (observe o s).digitalTab = s.digitalTab := rfl
@[simp] theorem observe_now (o : Observation) (s : State) : (observe o s).now = s.now := rfl
@[simp] theorem observe_rxAddr (o : Observation) (s : State) : (observe o s).rxAddr = s.rxAddr := rfl

@[simp] theorem sendFrame_cfg (f : BusFrame) (s : State) : (sendFrame f s).cfg = s.cfg := rfl
@[simp] theorem sendFrame_commandedRpm (f : BusFrame) (s : State) : (sendFrame f s).commandedRpm = s.commandedRpm := rfl
@[simp] theorem sendFrame_currentRpm (f : BusFrame) (s : State) : (sendFrame f s).currentRpm = s.currentRpm := rfl
@[simp] theorem sendFrame_targetRpm (f : BusFrame) (s : State) : (sendFrame f s).targetRpm = s.targetRpm := rfl
@[simp] theorem sendFrame_direction (f : BusFrame) (s : State) : (sendFrame f s).direction = s.direction := rfl
@[simp] theorem sendFrame_decelerating (f : BusFrame) (s : State) : (sendFrame f s).decelerating = s.decelerating := rfl
@[simp] theorem sendFrame_lastStepTime (f : BusFrame) (s : State) : (sendFrame f s).lastStepTime = s.lastStepTime := rfl
@[simp] theorem sendFrame_lastKeepAlive (f : BusFrame) (s : State) : (sendFrame f s).lastKeepAlive = s.lastKeepAlive := rfl
@[simp] theorem sendFrame_lastStatus (f : BusFrame) (s : State) : (sendFrame f s).lastStatus = s.lastStatus := rfl
@[simp] theorem sendFrame_actualRpm (f : BusFrame) (s : State) : (sendFrame f s).actualRpm = s.actualRpm := rfl
@[simp] theorem sendFrame_fault (f : BusFrame) (s : State) : (sendFrame f s).fault = s.fault := rfl
@[simp] theorem sendFrame_lastReply (f : BusFrame) (s : State) : (sendFrame f s).lastReply = s.lastReply := rfl
@[simp] theorem sendFrame_lastEcho (f : BusFrame) (s : State) : (sendFrame f s).lastEcho = s.lastEcho := rfl
@[simp] theorem sendFrame_rxFifo (f : BusFrame) (s : State) : (sendFrame f s).rxFifo = s.rxFifo := rfl
@[simp] theorem sendFrame_outLatch (f : BusFrame) (s : State) : (sendFrame f s).outLatch = s.outLatch := rfl
@[simp] theorem sendFrame_dstate (f : BusFrame) (s : State) : (sendFrame f s).dstate = s.dstate := rfl
@[simp] theorem sendFrame_analogTab (f : BusFrame) (s : State) : (sendFrame f s).analogTab = s.analogTab := rfl
@[simp] theorem sendFrame_digitalTab (f : BusFrame) (s : State) : (sendFrame f s).digitalTab = s.digitalTab := rfl
@[simp] theorem sendFrame_now (f : BusFrame) (s : State) : (sendFrame f s).now = s.now := rfl
@[simp] theorem sendFrame_rxAddr (f : BusFrame) (s : State) : (sendFrame f s).rxAddr = s.rxAddr := rfl

@[simp] theorem sampleAnalog_cfg (pin : Byte) (s : State) : ((sampleAnalog pin s).2).cfg = s.cfg := rfl
@[simp] theorem sampleAnalog_commandedRpm (pin : Byte) (s : State) : ((sampleAnalog pin s).2).commandedRpm = s.commandedRpm := rfl
@[simp] theorem sampleAnalog_currentRpm (pin : Byte) (s : State) : ((sampleAnalog pin s).2).currentRpm = s.currentRpm := rfl
@[simp] theorem sampleAnalog_targetRpm (pin : Byte) (s : State) : ((sampleAnalog pin s).2).targetRpm = s.targetRpm := rfl
@[simp] theorem sampleAnalog_direction (pin : Byte) (s : State) : ((sampleAnalog pin s).2).direction = s.direction := rfl
@[simp] theorem sampleAnalog_decelerating (pin : Byte) (s : State) : ((sampleAnalog pin s).2).decelerating = s.decelerating := rfl
@[simp] theorem sampleAnalog_lastStepTime (pin : Byte) (s : State) : ((sampleAnalog pin s).2).lastStepTime = s.lastStepTime := rfl
@[simp] theorem sampleAnalog_lastKeepAlive (pin : Byte) (s : State) : ((sampleAnalog pin s).2).lastKeepAlive = s.lastKeepAlive := rfl
@[simp] theorem sampleAnalog_lastStatus (pin : Byte) (s : State) : ((sampleAnalog pin s).2).lastStatus = s.lastStatus := rfl
@[simp] theorem sampleAnalog_actualRpm (pin : Byte) (s : State) : ((sampleAnalog pin s).2).actualRpm = s.actualRpm := rfl
@[simp] theorem sampleAnalog_fault (pin : Byte) (s : State) : ((sampleAnalog pin s).2).fault = s.fault := rfl
@[simp] theorem sampleAnalog_lastReply (pin : Byte) (s : State) : ((sampleAnalog pin s).2).lastReply = s.lastReply := rfl
@[simp] theorem sampleAnalog_lastEcho (pin : Byte) (s : State) : ((sampleAnalog pin s).2).lastEcho = s.lastEcho := rfl
@[simp] theorem sampleAnalog_rxFifo (pin : Byte) (s : State) : ((sampleAnalog pin s).2).rxFifo = s.rxFifo := rfl
@[simp] theorem sampleAnalog_outLatch (pin : Byte) (s : State) : ((sampleAnalog pin s).2).outLatch = s.outLatch := rfl
@[simp] theorem sampleAnalog_dstate (pin : Byte) (s : State) : ((sampleAnalog pin s).2).dstate = s.dstate := rfl
@[simp] theorem sampleAnalog_analogTab (pin : Byte) (s : State) : ((sampleAnalog pin s).2).analogTab = s.analogTab := rfl
@[simp] theorem sampleAnalog_digitalTab (pin : Byte) (s : State) : ((sampleAnalog pin s).2).digitalTab = s.digitalTab := rfl
@[simp] theorem sampleAnalog_now (pin : Byte) (s : State) : ((sampleAnalog pin s).2).now = s.now := rfl
@[simp] theorem sampleAnalog_rxAddr (pin : Byte) (s : State) : ((sampleAnalog pin s).2).rxAddr = s.rxAddr := rfl

@[simp] theorem sampleDigital_cfg (pin : Byte) (s : State) : ((sampleDigital pin s).2).cfg = s.cfg := rfl
@[simp] theorem sampleDigital_commandedRpm (pin : Byte) (s : State) : ((sampleDigital pin s).2).commandedRpm = s.commandedRpm := rfl
@[simp] theorem sampleDigital_currentRpm (pin : Byte) (s : State) : ((sampleDigital pin s).2).currentRpm = s.currentRpm := rfl
@[simp] theorem sampleDigital_targetRpm (pin : Byte) (s : State) : ((sampleDigital pin s).2).targetRpm = s.targetRpm := rfl
@[simp] theorem sampleDigital_direction (pin : Byte) (s : State) : ((sampleDigital pin s).2).direction = s.direction := rfl
@[simp] theorem sampleDigital_decelerating (pin : Byte) (s : State) : ((sampleDigital pin s).2).decelerating = s.decelerating := rfl
@[simp] theorem sampleDigital_lastStepTime (pin : Byte) (s : State) : ((sampleDigital pin s).2).lastStepTime = s.lastStepTime := rfl
@[simp] theorem sampleDigital_lastKeepAlive (pin : Byte) (s : State) : ((sampleDigital pin s).2).lastKeepAlive = s.lastKeepAlive := rfl
@[simp] theorem sampleDigital_lastStatus (pin : Byte) (s : State) : ((sampleDigital pin s).2).lastStatus = s.lastStatus := rfl
@[simp] theorem sampleDigital_actualRpm (pin : Byte) (s : State) : ((sampleDigital pin s).2).actualRpm = s.actualRpm := rfl
@[simp] theorem sampleDigital_fault (pin : Byte) (s : State) : ((sampleDigital pin s).2).fault = s.fault := rfl
@[simp] theorem sampleDigital_lastReply (pin : Byte) (s : State) : ((sampleDigital pin s).2).lastReply = s.lastReply := rfl
@[simp] theorem sampleDigital_lastEcho (pin : Byte) (s : State) : ((sampleDigital pin s).2).lastEcho = s.lastEcho := rfl
@[simp] theorem sampleDigital_rxFifo (pin : Byte) (s : State) : ((sampleDigital pin s).2).rxFifo = s.rxFifo := rfl
@[simp] theorem sampleDigital_outLatch (pin : Byte) (s : State) : ((sampleDigital pin s).2).outLatch = s.outLatch := rfl
@[simp] theorem sampleDigital_dstate (pin : Byte) (s : State) : ((sampleDigital pin s).2).dstate = s.dstate := rfl
@[simp] theorem sampleDigital_analogTab (pin : Byte) (s : State) : ((sampleDigital pin s).2).analogTab = s.analogTab := rfl
@[simp] theorem sampleDigital_digitalTab (pin : Byte) (s : State) : ((sampleDigital pin s).2).digitalTab = s.digitalTab := rfl
@[simp] theorem sampleDigital_now (pin : Byte) (s : State) : ((sampleDigital pin s).2).now = s.now := rfl
@[simp] theorem sampleDigital_rxAddr (pin : Byte) (s : State) : ((sampleDigital pin s).2).rxAddr = s.rxAddr := rfl

@[simp] theorem reply_eq (bytes : List Byte) (s : State) : reply bytes s = sendFrame ⟨s.cfg.selfAddress, bytes⟩ s := rfl
@[simp] theorem replyWith_eq (i : Instr) (s : State) :
    replyWith i s = sendFrame ⟨s.cfg.selfAddress, encode s.cfg i⟩ s := rfl
@[simp] theorem serialSend_eq (bytes : List Byte) (s : State) : serialSend bytes s = observe (.serialSend bytes) s := rfl
@[simp] theorem hostEvent_eq (e : HostEvent) (s : State) : hostEvent e s = observe (.hostEvent e) s := rfl
@[simp] theorem hostReturn_eq (r : HostResult) (s : State) : hostReturn r s = observe (.hostReturn r) s := rfl
@[simp] theorem observe_env (o : Observation) (s : State) : (observe o s).env = s.env.observe o := rfl
@[simp] theorem sendFrame_env (f : BusFrame) (s : State) : (sendFrame f s).env = (s.env.sendWithRetry f s.cfg.sendTimeout).2 := rfl

/-! ### Updates of the registers -/

@[simp] theorem driveOutput_cfg (port : Byte) (level : Level) (s : State) : (driveOutput port level s).cfg = s.cfg := rfl
@[simp] theorem driveOutput_commandedRpm (port : Byte) (level : Level) (s : State) : (driveOutput port level s).commandedRpm = s.commandedRpm := rfl
@[simp] theorem driveOutput_currentRpm (port : Byte) (level : Level) (s : State) : (driveOutput port level s).currentRpm = s.currentRpm := rfl
@[simp] theorem driveOutput_targetRpm (port : Byte) (level : Level) (s : State) : (driveOutput port level s).targetRpm = s.targetRpm := rfl
@[simp] theorem driveOutput_direction (port : Byte) (level : Level) (s : State) : (driveOutput port level s).direction = s.direction := rfl
@[simp] theorem driveOutput_decelerating (port : Byte) (level : Level) (s : State) : (driveOutput port level s).decelerating = s.decelerating := rfl
@[simp] theorem driveOutput_lastStepTime (port : Byte) (level : Level) (s : State) : (driveOutput port level s).lastStepTime = s.lastStepTime := rfl
@[simp] theorem driveOutput_lastKeepAlive (port : Byte) (level : Level) (s : State) : (driveOutput port level s).lastKeepAlive = s.lastKeepAlive := rfl
@[simp] theorem driveOutput_lastStatus (port : Byte) (level : Level) (s : State) : (driveOutput port level s).lastStatus = s.lastStatus := rfl
@[simp] theorem driveOutput_actualRpm (port : Byte) (level : Level) (s : State) : (driveOutput port level s).actualRpm = s.actualRpm := rfl
@[simp] theorem driveOutput_fault (port : Byte) (level : Level) (s : State) : (driveOutput port level s).fault = s.fault := rfl
@[simp] theorem driveOutput_lastReply (port : Byte) (level : Level) (s : State) : (driveOutput port level s).lastReply = s.lastReply := rfl
@[simp] theorem driveOutput_lastEcho (port : Byte) (level : Level) (s : State) : (driveOutput port level s).lastEcho = s.lastEcho := rfl
@[simp] theorem driveOutput_rxFifo (port : Byte) (level : Level) (s : State) : (driveOutput port level s).rxFifo = s.rxFifo := rfl
@[simp] theorem driveOutput_dstate (port : Byte) (level : Level) (s : State) : (driveOutput port level s).dstate = s.dstate := rfl
@[simp] theorem driveOutput_analogTab (port : Byte) (level : Level) (s : State) : (driveOutput port level s).analogTab = s.analogTab := rfl
@[simp] theorem driveOutput_digitalTab (port : Byte) (level : Level) (s : State) : (driveOutput port level s).digitalTab = s.digitalTab := rfl
@[simp] theorem driveOutput_now (port : Byte) (level : Level) (s : State) : (driveOutput port level s).now = s.now := rfl
@[simp] theorem driveOutput_rxAddr (port : Byte) (level : Level) (s : State) : (driveOutput port level s).rxAddr = s.rxAddr := rfl

@[simp] theorem emitInverterCommand_cfg (s : State) : (emitInverterCommand s).cfg = s.cfg := rfl
@[simp] theorem emitInverterCommand_commandedRpm (s : State) : (emitInverterCommand s).commandedRpm = s.commandedRpm := rfl
@[simp] theorem emitInverterCommand_currentRpm (s : State) : (emitInverterCommand s).currentRpm = s.currentRpm := rfl
@[simp] theorem emitInverterCommand_targetRpm (s : State) : (emitInverterCommand s).targetRpm = s.targetRpm := rfl
@[simp] theorem emitInverterCommand_direction (s : State) : (emitInverterCommand s).direction = s.direction := rfl
@[simp] theorem emitInverterCommand_decelerating (s : State) : (emitInverterCommand s).decelerating = s.decelerating := rfl
@[simp] theorem emitInverterCommand_lastStepTime (s : State) : (emitInverterCommand s).lastStepTime = s.lastStepTime := rfl
@[simp] theorem emitInverterCommand_lastKeepAlive (s : State) : (emitInverterCommand s).lastKeepAlive = s.lastKeepAlive := rfl
@[simp] theorem emitInverterCommand_lastStatus (s : State) : (emitInverterCommand s).lastStatus = s.lastStatus := rfl
@[simp] theorem emitInverterCommand_actualRpm (s : State) : (emitInverterCommand s).actualRpm = s.actualRpm := rfl
@[simp] theorem emitInverterCommand_fault (s : State) : (emitInverterCommand s).fault = s.fault := rfl
@[simp] theorem emitInverterCommand_lastReply (s : State) : (emitInverterCommand s).lastReply = s.lastReply := rfl
@[simp] theorem emitInverterCommand_lastEcho (s : State) : (emitInverterCommand s).lastEcho = s.lastEcho := rfl
@[simp] theorem emitInverterCommand_rxFifo (s : State) : (emitInverterCommand s).rxFifo = s.rxFifo := rfl
@[simp] theorem emitInverterCommand_outLatch (s : State) : (emitInverterCommand s).outLatch = s.outLatch := rfl
@[simp] theorem emitInverterCommand_dstate (s : State) : (emitInverterCommand s).dstate = s.dstate := rfl
@[simp] theorem emitInverterCommand_analogTab (s : State) : (emitInverterCommand s).analogTab = s.analogTab := rfl
@[simp] theorem emitInverterCommand_digitalTab (s : State) : (emitInverterCommand s).digitalTab = s.digitalTab := rfl
@[simp] theorem emitInverterCommand_now (s : State) : (emitInverterCommand s).now = s.now := rfl
@[simp] theorem emitInverterCommand_rxAddr (s : State) : (emitInverterCommand s).rxAddr = s.rxAddr := rfl

@[simp] theorem setRpmUp_cfg (c : Half) (s : State) : (setRpmUp c s).cfg = s.cfg := rfl
@[simp] theorem setRpmUp_commandedRpm (c : Half) (s : State) : (setRpmUp c s).commandedRpm = s.commandedRpm := rfl
@[simp] theorem setRpmUp_direction (c : Half) (s : State) : (setRpmUp c s).direction = s.direction := rfl
@[simp] theorem setRpmUp_lastStepTime (c : Half) (s : State) : (setRpmUp c s).lastStepTime = s.lastStepTime := rfl
@[simp] theorem setRpmUp_lastKeepAlive (c : Half) (s : State) : (setRpmUp c s).lastKeepAlive = s.lastKeepAlive := rfl
@[simp] theorem setRpmUp_lastStatus (c : Half) (s : State) : (setRpmUp c s).lastStatus = s.lastStatus := rfl
@[simp] theorem setRpmUp_actualRpm (c : Half) (s : State) : (setRpmUp c s).actualRpm = s.actualRpm := rfl
@[simp] theorem setRpmUp_fault (c : Half) (s : State) : (setRpmUp c s).fault = s.fault := rfl
@[simp] theorem setRpmUp_lastReply (c : Half) (s : State) : (setRpmUp c s).lastReply = s.lastReply := rfl
@[simp] theorem setRpmUp_lastEcho (c : Half) (s : State) : (setRpmUp c s).lastEcho = s.lastEcho := rfl
@[simp] theorem setRpmUp_rxFifo (c : Half) (s : State) : (setRpmUp c s).rxFifo = s.rxFifo := rfl
@[simp] theorem setRpmUp_outLatch (c : Half) (s : State) : (setRpmUp c s).outLatch = s.outLatch := rfl
@[simp] theorem setRpmUp_dstate (c : Half) (s : State) : (setRpmUp c s).dstate = s.dstate := rfl
@[simp] theorem setRpmUp_analogTab (c : Half) (s : State) : (setRpmUp c s).analogTab = s.analogTab := rfl
@[simp] theorem setRpmUp_digitalTab (c : Half) (s : State) : (setRpmUp c s).digitalTab = s.digitalTab := rfl
@[simp] theorem setRpmUp_now (c : Half) (s : State) : (setRpmUp c s).now = s.now := rfl
@[simp] theorem setRpmUp_rxAddr (c : Half) (s : State) : (setRpmUp c s).rxAddr = s.rxAddr := rfl

@[simp] theorem setRpmDown_cfg (c : Half) (s : State) : (setRpmDown c s).cfg = s.cfg := rfl
@[simp] theorem setRpmDown_commandedRpm (c : Half) (s : State) : (setRpmDown c s).commandedRpm = s.commandedRpm := rfl
@[simp] theorem setRpmDown_currentRpm (c : Half) (s : State) : (setRpmDown c s).currentRpm = s.currentRpm := rfl
@[simp] theorem setRpmDown_direction (c : Half) (s : State) : (setRpmDown c s).direction = s.direction := rfl
@[simp] theorem setRpmDown_lastKeepAlive (c : Half) (s : State) : (setRpmDown c s).lastKeepAlive = s.lastKeepAlive := rfl
@[simp] theorem setRpmDown_lastStatus (c : Half) (s : State) : (setRpmDown c s).lastStatus = s.lastStatus := rfl
@[simp] theorem setRpmDown_actualRpm (c : Half) (s : State) : (setRpmDown c s).actualRpm = s.actualRpm := rfl
@[simp] theorem setRpmDown_fault (c : Half) (s : State) : (setRpmDown c s).fault = s.fault := rfl
@[simp] theorem setRpmDown_lastReply (c : Half) (s : State) : (setRpmDown c s).lastReply = s.lastReply := rfl
@[simp] theorem setRpmDown_lastEcho (c : Half) (s : State) : (setRpmDown c s).lastEcho = s.lastEcho := rfl
@[simp] theorem setRpmDown_rxFifo (c : Half) (s : State) : (setRpmDown c s).rxFifo = s.rxFifo := rfl
@[simp] theorem setRpmDown_outLatch (c : Half) (s : State) : (setRpmDown c s).outLatch = s.outLatch := rfl
@[simp] theorem setRpmDown_dstate (c : Half) (s : State) : (setRpmDown c s).dstate = s.dstate := rfl
@[simp] theorem setRpmDown_analogTab (c : Half) (s : State) : (setRpmDown c s).analogTab = s.analogTab := rfl
@[simp] theorem setRpmDown_digitalTab (c : Half) (s : State) : (setRpmDown c s).digitalTab = s.digitalTab := rfl
@[simp] theorem setRpmDown_now (c : Half) (s : State) : (setRpmDown c s).now = s.now := rfl
@[simp] theorem setRpmDown_rxAddr (c : Half) (s : State) : (setRpmDown c s).rxAddr = s.rxAddr := rfl

@[simp] theorem setDirection_cfg (d : Direction) (s : State) : (setDirection d s).cfg = s.cfg := rfl
@[simp] theorem setDirection_commandedRpm (d : Direction) (s : State) : (setDirection d s).commandedRpm = s.commandedRpm := rfl
@[simp] theorem setDirection_currentRpm (d : Direction) (s : State) : (setDirection d s).currentRpm = s.currentRpm := rfl
@[simp] theorem setDirection_targetRpm (d : Direction) (s : State) : (setDirection d s).targetRpm = s.targetRpm := rfl
@[simp] theorem setDirection_decelerating (d : Direction) (s : State) : (setDirection d s).decelerating = s.decelerating := rfl
@[simp] theorem setDirection_lastStepTime (d : Direction) (s : State) : (setDirection d s).lastStepTime = s.lastStepTime := rfl
@[simp] theorem setDirection_lastKeepAlive (d : Direction) (s : State) : (setDirection d s).lastKeepAlive = s.lastKeepAlive := rfl
@[simp] theorem setDirection_lastStatus (d : Direction) (s : State) : (setDirection d s).lastStatus = s.lastStatus := rfl
@[simp] theorem setDirection_actualRpm (d : Direction) (s : State) : (setDirection d s).actualRpm = s.actualRpm := rfl
@[simp] theorem setDirection_fault (d : Direction) (s : State) : (setDirection d s).fault = s.fault := rfl
@[simp] theorem setDirection_lastReply (d : Direction) (s : State) : (setDirection d s).lastReply = s.lastReply := rfl
@[simp] theorem setDirection_lastEcho (d : Direction) (s : State) : (setDirection d s).lastEcho = s.lastEcho := rfl
@[simp] theorem setDirection_rxFifo (d : Direction) (s : State) : (setDirection d s).rxFifo = s.rxFifo := rfl
@[simp] theorem setDirection_outLatch (d : Direction) (s : State) : (setDirection d s).outLatch = s.outLatch := rfl
@[simp] theorem setDirection_dstate (d : Direction) (s : State) : (setDirection d s).dstate = s.dstate := rfl
@[simp] theorem setDirection_analogTab (d : Direction) (s : State) : (setDirection d s).analogTab = s.analogTab := rfl
@[simp] theorem setDirection_digitalTab (d : Direction) (s : State) : (setDirection d s).digitalTab = s.digitalTab := rfl
@[simp] theorem setDirection_now (d : Direction) (s : State) : (setDirection d s).now = s.now := rfl
@[simp] theorem setDirection_rxAddr (d : Direction) (s : State) : (setDirection d s).rxAddr = s.rxAddr := rfl

@[simp] theorem stopMotor_cfg (s : State) : (stopMotor s).cfg = s.cfg := rfl
@[simp] theorem stopMotor_direction (s : State) : (stopMotor s).direction = s.direction := rfl
@[simp] theorem stopMotor_lastStepTime (s : State) : (stopMotor s).lastStepTime = s.lastStepTime := rfl
@[simp] theorem stopMotor_lastKeepAlive (s : State) : (stopMotor s).lastKeepAlive = s.lastKeepAlive := rfl
@[simp] theorem stopMotor_lastStatus (s : State) : (stopMotor s).lastStatus = s.lastStatus := rfl
@[simp] theorem stopMotor_actualRpm (s : State) : (stopMotor s).actualRpm = s.actualRpm := rfl
@[simp] theorem stopMotor_fault (s : State) : (stopMotor s).fault = s.fault := rfl
@[simp] theorem stopMotor_lastReply (s : State) : (stopMotor s).lastReply = s.lastReply := rfl
@[simp] theorem stopMotor_lastEcho (s : State) : (stopMotor s).lastEcho = s.lastEcho := rfl
@[simp] theorem stopMotor_rxFifo (s : State) : (stopMotor s).rxFifo = s.rxFifo := rfl
@[simp] theorem stopMotor_outLatch (s : State) : (stopMotor s).outLatch = s.outLatch := rfl
@[simp] theorem stopMotor_dstate (s : State) : (stopMotor s).dstate = s.dstate := rfl
@[simp] theorem stopMotor_analogTab (s : State) : (stopMotor s).analogTab = s.analogTab := rfl
@[simp] theorem stopMotor_digitalTab (s : State) : (stopMotor s).digitalTab = s.digitalTab := rfl
@[simp] theorem stopMotor_now (s : State) : (stopMotor s).now = s.now := rfl
@[simp] theorem stopMotor_rxAddr (s : State) : (stopMotor s).rxAddr = s.rxAddr := rfl

@[simp] theorem acceptReply_cfg (cls echo : Byte) (actual : Half) (fault : Byte) (s : State) : (acceptReply cls echo actual fault s).cfg = s.cfg := rfl
@[simp] theorem acceptReply_commandedRpm (cls echo : Byte) (actual : Half) (fault : Byte) (s : State) : (acceptReply cls echo actual fault s).commandedRpm = s.commandedRpm := rfl
@[simp] theorem acceptReply_currentRpm (cls echo : Byte) (actual : Half) (fault : Byte) (s : State) : (acceptReply cls echo actual fault s).currentRpm = s.currentRpm := rfl
@[simp] theorem acceptReply_targetRpm (cls echo : Byte) (actual : Half) (fault : Byte) (s : State) : (acceptReply cls echo actual fault s).targetRpm = s.targetRpm := rfl
@[simp] theorem acceptReply_direction (cls echo : Byte) (actual : Half) (fault : Byte) (s : State) : (acceptReply cls echo actual fault s).direction = s.direction := rfl
@[simp] theorem acceptReply_decelerating (cls echo : Byte) (actual : Half) (fault : Byte) (s : State) : (acceptReply cls echo actual fault s).decelerating = s.decelerating := rfl
@[simp] theorem acceptReply_lastStepTime (cls echo : Byte) (actual : Half) (fault : Byte) (s : State) : (acceptReply cls echo actual fault s).lastStepTime = s.lastStepTime := rfl
@[simp] theorem acceptReply_lastKeepAlive (cls echo : Byte) (actual : Half) (fault : Byte) (s : State) : (acceptReply cls echo actual fault s).lastKeepAlive = s.lastKeepAlive := rfl
@[simp] theorem acceptReply_lastStatus (cls echo : Byte) (actual : Half) (fault : Byte) (s : State) : (acceptReply cls echo actual fault s).lastStatus = s.lastStatus := rfl
@[simp] theorem acceptReply_rxFifo (cls echo : Byte) (actual : Half) (fault : Byte) (s : State) : (acceptReply cls echo actual fault s).rxFifo = s.rxFifo := rfl
@[simp] theorem acceptReply_outLatch (cls echo : Byte) (actual : Half) (fault : Byte) (s : State) : (acceptReply cls echo actual fault s).outLatch = s.outLatch := rfl
@[simp] theorem acceptReply_dstate (cls echo : Byte) (actual : Half) (fault : Byte) (s : State) : (acceptReply cls echo actual fault s).dstate = s.dstate := rfl
@[simp] theorem acceptReply_analogTab (cls echo : Byte) (actual : Half) (fault : Byte) (s : State) : (acceptReply cls echo actual fault s).analogTab = s.analogTab := rfl
@[simp] theorem acceptReply_digitalTab (cls echo : Byte) (actual : Half) (fault : Byte) (s : State) : (acceptReply cls echo actual fault s).digitalTab = s.digitalTab := rfl
@[simp] theorem acceptReply_now (cls echo : Byte) (actual : Half) (fault : Byte) (s : State) : (acceptReply cls echo actual fault s).now = s.now := rfl
@[simp] theorem acceptReply_rxAddr (cls echo : Byte) (actual : Half) (fault : Byte) (s : State) : (acceptReply cls echo actual fault s).rxAddr = s.rxAddr := rfl

@[simp] theorem driveOutput_outLatch (port : Byte) (level : Level) (s : State) :
    (driveOutput port level s).outLatch = Table.insert port.toNat level s.outLatch := rfl

@[simp] theorem setRpmUp_currentRpm (c : Half) (s : State) : (setRpmUp c s).currentRpm = c := rfl
@[simp] theorem setRpmUp_targetRpm (c : Half) (s : State) : (setRpmUp c s).targetRpm = c := rfl
@[simp] theorem setRpmUp_decelerating (c : Half) (s : State) : (setRpmUp c s).decelerating = false := rfl

@[simp] theorem setRpmDown_targetRpm (c : Half) (s : State) : (setRpmDown c s).targetRpm = c := rfl
@[simp] theorem setRpmDown_decelerating (c : Half) (s : State) : (setRpmDown c s).decelerating = true := rfl
@[simp] theorem setRpmDown_lastStepTime (c : Half) (s : State) :
    (setRpmDown c s).lastStepTime = if s.decelerating then s.lastStepTime else s.now := rfl
@[simp] theorem setRpmDown_env (c : Half) (s : State) : (setRpmDown c s).env = s.env := rfl

@[simp] theorem setDirection_direction (d : Direction) (s : State) : (setDirection d s).direction = d := rfl

@[simp] theorem stopMotor_commandedRpm (s : State) : (stopMotor s).commandedRpm = 0#16 := rfl
@[simp] theorem stopMotor_currentRpm (s : State) : (stopMotor s).currentRpm = 0#16 := rfl
@[simp] theorem stopMotor_targetRpm (s : State) : (stopMotor s).targetRpm = 0#16 := rfl
@[simp] theorem stopMotor_decelerating (s : State) : (stopMotor s).decelerating = false := rfl

@[simp] theorem acceptReply_actualRpm (cls echo : Byte) (actual : Half) (fault : Byte) (s : State) :
    (acceptReply cls echo actual fault s).actualRpm = actual := rfl
@[simp] theorem acceptReply_fault (cls echo : Byte) (actual : Half) (fault : Byte) (s : State) :
    (acceptReply cls echo actual fault s).fault = fault := rfl
@[simp] theorem acceptReply_lastReply (cls echo : Byte) (actual : Half) (fault : Byte) (s : State) :
    (acceptReply cls echo actual fault s).lastReply = replyClass s.cfg cls := rfl
@[simp] theorem acceptReply_lastEcho (cls echo : Byte) (actual : Half) (fault : Byte) (s : State) :
    (acceptReply cls echo actual fault s).lastEcho = echo := rfl

@[simp] theorem raiseProtocolError_eq (subject code : Byte) (s : State) :
    raiseProtocolError subject code s =
      { s with dstate := .idle, env := (s.env.sendWithRetry ⟨s.cfg.selfAddress, [0xFF#8, subject, code]⟩ s.cfg.sendTimeout).2 } := rfl

@[simp] theorem raiseUnknownOpcode_eq (op : BusOp) (s : State) :
    raiseUnknownOpcode op s = raiseProtocolError op.code s.cfg.errUnknownOpcode s := rfl

end Sys2Proof.Machine
end

