-- ==== Sys2Proof/Laws/Table.lean ====
section
/-! SUPPORT. Sparse tables: a read after a write, the frame of a write, and the canonical form kept by every write. -/

namespace Sys2Proof.Machine

variable {α : Type}

@[simp] theorem Table.find_nil (k : Nat) : Table.find k ([] : List (Nat × α)) = none := rfl

theorem Table.find_insert_same (k : Nat) (v : α) (l : List (Nat × α)) : Table.find k (Table.insert k v l) = some v := by
  induction l with
  | nil => simp [Table.insert, Table.find]
  | cons p t ih =>
    obtain ⟨a, w⟩ := p
    simp only [Table.insert]
    split_ifs with h1 h2
    · simp [Table.find]
    · simp [Table.find]
    · simp [Table.find, Ne.symm h2, ih]

theorem Table.find_insert_other {k q : Nat} (h : q ≠ k) (v : α) (l : List (Nat × α)) :
    Table.find q (Table.insert k v l) = Table.find q l := by
  induction l with
  | nil => simp [Table.insert, Table.find, Ne.symm h]
  | cons p t ih =>
    obtain ⟨a, w⟩ := p
    simp only [Table.insert]
    split_ifs with h1 h2
    · simp [Table.find, Ne.symm h]
    · subst h2; simp [Table.find, Ne.symm h]
    · simp only [Table.find, ih]

theorem Table.mem_keys_insert {k q : Nat} {v : α} {l : List (Nat × α)} :
    q ∈ (Table.insert k v l).map Prod.fst ↔ q = k ∨ q ∈ l.map Prod.fst := by
  induction l with
  | nil => simp [Table.insert]
  | cons p t ih =>
    obtain ⟨a, w⟩ := p
    simp only [Table.insert]
    split_ifs with h1 h2
    · simp
    · subst h2; simp
    · simp only [List.map_cons, List.mem_cons, ih]; tauto

theorem Table.sorted_nil : Table.Sorted ([] : List (Nat × α)) := List.Pairwise.nil

theorem Table.sorted_cons {p : Nat × α} {t : List (Nat × α)} :
    Table.Sorted (p :: t) ↔ (∀ q ∈ t.map Prod.fst, p.1 < q) ∧ Table.Sorted t := List.pairwise_cons

theorem Table.sorted_insert (k : Nat) (v : α) {l : List (Nat × α)} (h : Table.Sorted l) :
    Table.Sorted (Table.insert k v l) := by
  induction l with
  | nil => exact List.pairwise_singleton _ _
  | cons p t ih =>
    obtain ⟨a, w⟩ := p
    have hs := h
    rw [Table.sorted_cons] at h
    simp only [Table.insert]
    split_ifs with h1 h2
    · refine Table.sorted_cons.2 ⟨fun q hq => ?_, hs⟩
      rcases List.mem_cons.1 hq with rfl | hq
      · exact h1
      · exact h1.trans (h.1 q hq)
    · subst h2; exact Table.sorted_cons.2 h
    · refine Table.sorted_cons.2 ⟨?_, ih h.2⟩
      intro q hq
      rcases Table.mem_keys_insert.1 hq with rfl | hq
      · omega
      · exact h.1 q hq

/-- Two canonical tables that read the same at every key are equal. -/
theorem Table.ext_of_sorted {l m : List (Nat × α)} (hl : Table.Sorted l) (hm : Table.Sorted m)
    (h : ∀ k, Table.find k l = Table.find k m) : l = m := by
  have none_below : ∀ (t : List (Nat × α)) (k : Nat), (∀ q ∈ t.map Prod.fst, k < q) → Table.find k t = none := by
    intro t k ht
    induction t with
    | nil => rfl
    | cons p t ih =>
      have := ht p.1 (by simp)
      rw [Table.find, if_neg (by omega)]
      exact ih fun q hq => ht q (by simp [hq])
  induction l generalizing m with
  | nil =>
    cases m with
    | nil => rfl
    | cons p t => have := h p.1; simp [Table.find] at this
  | cons p t ih =>
    obtain ⟨a, w⟩ := p
    cases m with
    | nil => have := h a; simp [Table.find] at this
    | cons p' t' =>
      obtain ⟨a', w'⟩ := p'
      rw [Table.sorted_cons] at hl hm
      have haa : a = a' := by
        rcases Nat.lt_trichotomy a a' with hlt | heq | hgt
        · have := h a
          rw [Table.find, if_pos rfl, Table.find, if_neg (by omega),
            none_below t' a fun q hq => hlt.trans (hm.1 q hq)] at this
          exact absurd this (by simp)
        · exact heq
        · have := h a'
          rw [Table.find, if_neg (by omega), Table.find, if_pos rfl,
            none_below t a' fun q hq => hgt.trans (hl.1 q hq)] at this
          exact absurd this (by simp)
      subst haa
      have hw : w = w' := by have := h a; simpa [Table.find] using this
      subst hw
      congr 1
      refine ih hl.2 hm.2 fun k => ?_
      by_cases hk : a = k
      · subst hk
        rw [none_below t a fun q hq => hl.1 q hq, none_below t' a fun q hq => hm.1 q hq]
      · have := h k
        simpa [Table.find, hk] using this

theorem tabKey_inj {slot slot' : Nat} {pin pin' : Byte} (h : tabKey slot pin = tabKey slot' pin') :
    slot = slot' ∧ pin = pin' := by
  have h1 := pin.isLt
  have h2 := pin'.isLt
  simp only [tabKey] at h
  exact ⟨by omega, BitVec.eq_of_toNat_eq (by omega)⟩

end Sys2Proof.Machine
end

