-- ==== Sys2Proof/Laws/Ops.lean ====
section
/-! SUPPORT. For each shared operation, one lemma that says everything it can do: the calls it makes, in order, and the state
it writes. Later proofs cite these and do not unfold the operation. -/

namespace Sys2Proof.Machine

/-! ### The environment's answers -/

theorem Env.nextInput_listed {e : Env} {i : Input} {rest : List Input} (h : e.inputs = i :: rest) :
    e.nextInput = (i, { e with inputs := rest }) := by simp [Env.nextInput, h]

theorem Env.nextInput_keeps (e : Env) : e.nextInput.2.trace = e.trace ∧ e.nextInput.2.sendAnswers = e.sendAnswers ∧
    e.nextInput.2.analogAnswers = e.analogAnswers ∧ e.nextInput.2.digitalAnswers = e.digitalAnswers := by
  unfold Env.nextInput; split <;> simp

theorem Env.nextSend_keeps (e : Env) : e.nextSend.2.trace = e.trace ∧ e.nextSend.2.inputs = e.inputs ∧
    e.nextSend.2.analogAnswers = e.analogAnswers ∧ e.nextSend.2.digitalAnswers = e.digitalAnswers := by
  unfold Env.nextSend; split <;> simp

theorem Env.nextAnalog_keeps (pin : Byte) (e : Env) : (e.nextAnalog pin).2.trace = e.trace ∧
    (e.nextAnalog pin).2.inputs = e.inputs ∧ (e.nextAnalog pin).2.sendAnswers = e.sendAnswers ∧
    (e.nextAnalog pin).2.digitalAnswers = e.digitalAnswers := by
  unfold Env.nextAnalog; split <;> simp

theorem Env.nextDigital_keeps (pin : Byte) (e : Env) : (e.nextDigital pin).2.trace = e.trace ∧
    (e.nextDigital pin).2.inputs = e.inputs ∧ (e.nextDigital pin).2.sendAnswers = e.sendAnswers ∧
    (e.nextDigital pin).2.analogAnswers = e.analogAnswers := by
  unfold Env.nextDigital; split <;> simp

/-- The calls `tr` were made and nothing but `BusSend` answers was consumed. -/
def Env.Sends (e e' : Env) (tr : List Observation) : Prop :=
  e'.trace = e.trace ++ tr ∧ e'.inputs = e.inputs ∧ e'.analogAnswers = e.analogAnswers ∧
  e'.digitalAnswers = e.digitalAnswers

theorem Env.Sends.refl (e : Env) : e.Sends e [] := by simp [Env.Sends]

theorem Env.Sends.trans {e e' e'' : Env} {tr tr' : List Observation} (h : e.Sends e' tr) (h' : e'.Sends e'' tr') :
    e.Sends e'' (tr ++ tr') := by
  obtain ⟨a, b, c, d⟩ := h
  obtain ⟨a', b', c', d'⟩ := h'
  exact ⟨by rw [a', a, List.append_assoc], b'.trans b, c'.trans c, d'.trans d⟩

theorem Env.observe_sends (o : Observation) (e : Env) : e.Sends (e.observe o) [o] := ⟨rfl, rfl, rfl, rfl⟩

theorem Env.busSend_sends (f : BusFrame) (timeout : Nat) (e : Env) :
    e.Sends (e.busSend f timeout).2 [.busSend f timeout (e.busSend f timeout).1] :=
  Env.Sends.trans (tr := []) ⟨by simp [e.nextSend_keeps.1], e.nextSend_keeps.2⟩ (Env.observe_sends _ _)

theorem Env.retrySend_spec (f : BusFrame) (timeout : Nat) (first : SendOutcome) (e : Env) :
    (e.Sends (e.retrySend f timeout first).2 [.busSend f timeout .ok] ∧ (e.retrySend f timeout first).1 = .sent) ∨
    (∃ r2, r2 ≠ SendOutcome.ok ∧ (e.retrySend f timeout first).1 = .dropped ∧
      e.Sends (e.retrySend f timeout first).2 [.busSend f timeout r2, .hostEvent (.txDropped f first r2)]) := by
  have hs := e.busSend_sends f timeout
  unfold Env.retrySend
  cases hr : (e.busSend f timeout).1 with
  | ok => rw [hr] at hs; exact .inl ⟨hs, rfl⟩
  | timeout => rw [hr] at hs; exact .inr ⟨.timeout, by simp, rfl, hs.trans (Env.observe_sends _ _)⟩
  | busOff => rw [hr] at hs; exact .inr ⟨.busOff, by simp, rfl, hs.trans (Env.observe_sends _ _)⟩

/-- One `SendWithRetry`: one of the traces of rule R154, and nothing else but answers and draws consumed. -/
theorem Env.sendWithRetry_spec (f : BusFrame) (timeout : Nat) (e : Env) :
    ∃ tr, SendTrace f timeout tr (e.sendWithRetry f timeout).1 ∧ e.Sends (e.sendWithRetry f timeout).2 tr := by
  have hs := e.busSend_sends f timeout
  unfold Env.sendWithRetry
  cases hr : (e.busSend f timeout).1 with
  | ok => rw [hr] at hs; exact ⟨_, .inl ⟨rfl, rfl⟩, hs⟩
  | timeout =>
    rw [hr] at hs
    rcases (e.busSend f timeout).2.retrySend_spec f timeout .timeout with ⟨h, hr'⟩ | ⟨r2, hne, hr', h⟩
    · exact ⟨_, .inr (.inr (.inl ⟨rfl, hr'⟩)), hs.trans h⟩
    · exact ⟨_, .inr (.inr (.inr (.inr ⟨r2, hne, hr', rfl⟩))), hs.trans h⟩
  | busOff =>
    rw [hr] at hs
    rcases (e.busSend f timeout).2.busRecover.retrySend_spec f timeout .busOff with ⟨h, hr'⟩ | ⟨r2, hne, hr', h⟩
    · exact ⟨_, .inr (.inl ⟨rfl, hr'⟩), (hs.trans (Env.observe_sends .busRecover _)).trans h⟩
    · exact ⟨_, .inr (.inr (.inr (.inl ⟨r2, hne, hr', rfl⟩))), (hs.trans (Env.observe_sends .busRecover _)).trans h⟩

/-! ### Calls of the node -/

theorem Observed.refl (s : State) : Observed s s [] := by simp [Observed]

theorem Observed.trans {s u t : State} {tr tr' : List Observation} (h : Observed s u tr) (h' : Observed u t tr') :
    Observed s t (tr ++ tr') := ⟨by rw [h'.1, h.1, List.append_assoc], h'.2.trans h.2⟩

/-- Only the environment's record of a state decides what was observed. -/
theorem Observed.of_env {s t s' t' : State} {tr : List Observation} (h : Observed s t tr) (hs : s'.env = s.env)
    (ht : t'.env = t.env) : Observed s' t' tr := by
  simpa [Observed, hs, ht] using h

theorem observe_observed (o : Observation) (s : State) : Observed s (observe o s) [o] := ⟨rfl, rfl⟩

theorem OnlyEnv.refl (s : State) : OnlyEnv s s := rfl

theorem OnlyEnv.trans {s u t : State} (h : OnlyEnv s u) (h' : OnlyEnv u t) : OnlyEnv s t := by
  unfold OnlyEnv at *; rw [h', h]

theorem observe_onlyEnv (o : Observation) (s : State) : OnlyEnv s (observe o s) := rfl

theorem sendFrame_onlyEnv (f : BusFrame) (s : State) : OnlyEnv s (sendFrame f s) := rfl

theorem sendFrame_spec (f : BusFrame) (s : State) :
    ∃ tr, SendTrace f s.cfg.sendTimeout tr (s.env.sendWithRetry f s.cfg.sendTimeout).1 ∧ Observed s (sendFrame f s) tr := by
  obtain ⟨tr, h, h1, h2, -⟩ := s.env.sendWithRetry_spec f s.cfg.sendTimeout
  exact ⟨tr, h, h1, h2⟩

/-- A reply: one `SendWithRetry` under the node's own address, nothing of rule R20 written (R187). -/
theorem reply_spec (bytes : List Byte) (s : State) :
    OnlyEnv s (reply bytes s) ∧ RepliedAfter s (reply bytes s) [] bytes := by
  obtain ⟨tr, h, ho⟩ := sendFrame_spec ⟨s.cfg.selfAddress, bytes⟩ s
  exact ⟨rfl, tr, _, h, ho⟩

theorem replyWith_spec (i : Instr) (s : State) :
    OnlyEnv s (replyWith i s) ∧ RepliedAfter s (replyWith i s) [] (encode s.cfg i) := reply_spec _ s

/-- A reply after other calls. -/
theorem RepliedAfter.after {s u t : State} {before : List Observation} {bytes : List Byte}
    (ho : Observed s u before) (hc : u.cfg = s.cfg) (h : RepliedAfter u t [] bytes) :
    RepliedAfter s t before bytes := by
  obtain ⟨tr, r, hs, h⟩ := h
  exact ⟨tr, r, hc ▸ hs, ho.trans h⟩

/-- A reply after other calls: what was called, then one `SendWithRetry` of the encoding. -/
theorem replyWith_after {s u : State} {before : List Observation} (i : Instr) (ho : Observed s u before)
    (hc : u.cfg = s.cfg) : RepliedAfter s (replyWith i u) before (encode s.cfg i) :=
  hc ▸ RepliedAfter.after ho hc (replyWith_spec i u).2

/-- One inverter frame, of the registers as they are (R301). -/
theorem emitInverterCommand_spec (s : State) : OnlyEnv s (emitInverterCommand s) ∧
    Observed s (emitInverterCommand s)
      [.serialSend (buildCommandFrame s.cfg (commandByte s.direction) s.currentRpm)] := ⟨rfl, rfl, rfl⟩

theorem sampleAnalog_onlyEnv (pin : Byte) (s : State) : OnlyEnv s (sampleAnalog pin s).2 := rfl

theorem sampleAnalog_observed (pin : Byte) (s : State) :
    Observed s (sampleAnalog pin s).2 [.gpioReadAnalog pin (sampleAnalog pin s).1] := by
  simp [Observed, sampleAnalog, Env.observe, s.env.nextAnalog_keeps pin]

theorem sampleDigital_onlyEnv (pin : Byte) (s : State) : OnlyEnv s (sampleDigital pin s).2 := rfl

theorem sampleDigital_observed (pin : Byte) (s : State) :
    Observed s (sampleDigital pin s).2 [.gpioReadDigital pin (sampleDigital pin s).1] := by
  simp [Observed, sampleDigital, Env.observe, s.env.nextDigital_keeps pin]

/-- Each pin of the list is sampled once, in list order, and nothing of rule R20 is written (R193). -/
theorem sampleAnalogPins_spec (pins : List Byte) (s : State) :
    OnlyEnv s (sampleAnalogPins pins s).2 ∧
    ∃ raws : List Half, raws.length = pins.length ∧
      (sampleAnalogPins pins s).1 = List.zipWith (fun p raw => ⟨p, analogValue s.cfg p raw⟩) pins raws ∧
      Observed s (sampleAnalogPins pins s).2 (List.zipWith .gpioReadAnalog pins raws) := by
  induction pins generalizing s with
  | nil => exact ⟨rfl, [], rfl, rfl, Observed.refl s⟩
  | cons p ps ih =>
    obtain ⟨h1, raws, h2, h3, h4⟩ := ih (sampleAnalog p s).2
    exact ⟨(sampleAnalog_onlyEnv p s).trans h1, (sampleAnalog p s).1 :: raws, by simp [h2],
      by simp [sampleAnalogPins, h3], (sampleAnalog_observed p s).trans h4⟩

/-- As `sampleAnalogPins_spec`, for digital pins (R194). -/
theorem sampleDigitalPins_spec (pins : List Byte) (s : State) :
    OnlyEnv s (sampleDigitalPins pins s).2 ∧ (sampleDigitalPins pins s).1.length = pins.length ∧
    Observed s (sampleDigitalPins pins s).2 (List.zipWith .gpioReadDigital pins (sampleDigitalPins pins s).1) := by
  induction pins generalizing s with
  | nil => exact ⟨rfl, rfl, Observed.refl s⟩
  | cons p ps ih =>
    obtain ⟨h1, h2, h3⟩ := ih (sampleDigital p s).2
    exact ⟨(sampleDigital_onlyEnv p s).trans h1, by simp [sampleDigitalPins, h2],
      (sampleDigital_observed p s).trans h3⟩

/-- Several replies, each by its own `SendWithRetry`, in order (R172). -/
theorem replyAll_spec (is : List Instr) (s : State) :
    OnlyEnv s (replyAll is s) ∧
    ∃ trs, SendTraces s.cfg.sendTimeout (is.map fun i => ⟨s.cfg.selfAddress, encode s.cfg i⟩) trs ∧ Observed s (replyAll is s) trs := by
  induction is generalizing s with
  | nil => exact ⟨rfl, [], .nil, Observed.refl s⟩
  | cons i is ih =>
    obtain ⟨h1, trs, h2, h3⟩ := ih (replyWith i s)
    obtain ⟨h4, tr, r, h5, h6⟩ := replyWith_spec i s
    exact ⟨h4.trans h1, tr ++ trs, .cons _ _ _ _ _ h5 h2, h6.trans h3⟩

/-- Taking a protocol error (R356). -/
theorem raiseProtocolError_spec (subject code : Byte) (s : State) :
    ErrorTaken s (raiseProtocolError subject code s) subject code := by
  obtain ⟨h1, tr, r, h, ho⟩ := replyWith_spec (.errorResponse subject code) s
  exact ⟨by unfold OnlyEnv at h1; simp only [raiseProtocolError]; rw [h1], tr, r, h, ho.of_env rfl rfl⟩

theorem raiseUnknownOpcode_spec (op : BusOp) (s : State) :
    ErrorTaken s (raiseUnknownOpcode op s) op.code s.cfg.errUnknownOpcode := raiseProtocolError_spec _ _ s

/-- Driving a port (R189, R190): the pin call, and that one latch. -/
theorem driveOutput_spec (port : Byte) (level : Level) (s : State) :
    Observed s (driveOutput port level s) [.gpioSet port level] ∧
    driveOutput port level s =
      { s with outLatch := Table.insert port.toNat level s.outLatch, env := (driveOutput port level s).env } :=
  ⟨⟨rfl, rfl⟩, rfl⟩

theorem driveOutput_latchRead (port : Byte) (level : Level) (s : State) (p : Nat) :
    latchRead (driveOutput port level s) p = if p = port.toNat then some level else latchRead s p := by
  simp only [latchRead, driveOutput_outLatch]
  split
  · next h => rw [h, Table.find_insert_same]
  · next h => rw [Table.find_insert_other h]

/-! ### The sensor table -/

/-- What a store does to the analog table (R250, R251). -/
theorem storeAnalog_read (address : Addr) (pin : Byte) (value : Half) (s : State) (slot : Nat) (p : Byte) :
    analogRead (storeAnalog address pin value s) slot p =
      if pin.toNat < s.cfg.tablePins ∧ slot = slotOf s.cfg address ∧ p = pin then some ⟨value, s.now⟩
      else analogRead s slot p := by
  by_cases hp : pin.toNat < s.cfg.tablePins
  · simp only [analogRead, storeAnalog, tablePinValid, hp, decide_true, if_true, true_and]
    split
    · next h => rw [h.1, h.2, Table.find_insert_same]
    · next h => exact Table.find_insert_other (fun hk => h (tabKey_inj hk)) _ _
  · simp [analogRead, storeAnalog, tablePinValid, hp]

/-- What a store does to the digital table (R250, R251). -/
theorem storeDigital_read (address : Addr) (pin : Byte) (level : Bool) (s : State) (slot : Nat) (p : Byte) :
    digitalRead (storeDigital address pin level s) slot p =
      if pin.toNat < s.cfg.tablePins ∧ slot = slotOf s.cfg address ∧ p = pin then some ⟨level, s.now⟩
      else digitalRead s slot p := by
  by_cases hp : pin.toNat < s.cfg.tablePins
  · simp only [digitalRead, storeDigital, tablePinValid, hp, decide_true, if_true, true_and]
    split
    · next h => rw [h.1, h.2, Table.find_insert_same]
    · next h => exact Table.find_insert_other (fun hk => h (tabKey_inj hk)) _ _
  · simp [digitalRead, storeDigital, tablePinValid, hp]

theorem storeAnalog_frame (address : Addr) (pin : Byte) (value : Half) (s : State) :
    storeAnalog address pin value s = { s with analogTab := (storeAnalog address pin value s).analogTab } := by
  unfold storeAnalog; split <;> rfl

theorem storeDigital_frame (address : Addr) (pin : Byte) (level : Bool) (s : State) :
    storeDigital address pin level s = { s with digitalTab := (storeDigital address pin level s).digitalTab } := by
  unfold storeDigital; split <;> rfl

theorem storeReadings_frame (address : Addr) (rs : List AnalogReading) (s : State) :
    storeReadings address rs s = { s with analogTab := (storeReadings address rs s).analogTab } := by
  induction rs generalizing s with
  | nil => rfl
  | cons r rs ih => rw [storeReadings, ih, storeAnalog_frame]

theorem storeLevels_frame (address : Addr) (i : Nat) (ls : List Bool) (s : State) :
    storeLevels address i ls s = { s with digitalTab := (storeLevels address i ls s).digitalTab } := by
  induction ls generalizing i s with
  | nil => rfl
  | cons l ls ih => rw [storeLevels, ih, storeDigital_frame]

/-! ### The receive FIFO -/

/-- An arriving byte (R307): appended, or lost on a full FIFO. -/
theorem rxPush_spec (b : Byte) (s : State) :
    rxPush b s = { s with rxFifo := if s.rxFifo.length < s.cfg.rxDepth then s.rxFifo ++ [b] else s.rxFifo } := by
  unfold rxPush; split <;> rfl

theorem rxPush_length {b : Byte} {s : State} (h : s.rxFifo.length ≤ s.cfg.rxDepth) :
    (rxPush b s).rxFifo.length ≤ s.cfg.rxDepth := by
  unfold rxPush; split
  · simp; omega
  · exact h

/-! ### Stops -/

theorem andThen_next {o : Host.Outcome State Fault Refusal} {k : State → Host.Outcome State Fault Refusal} {t : State} :
    andThen o k = .next t ↔ ∃ s, o = .next s ∧ k s = .next t := by
  cases o <;> simp [andThen]

theorem onPeer_next {s body : State} (h : s.cfg.role = .peer) : onPeer s body = .next body := by simp [onPeer, h]

theorem onMotorPeer_next {op : BusOp} {s body : State} (h : s.cfg.role = .peer) (hm : s.cfg.hasMotor = true) :
    onMotorPeer op s body = .next body := by simp [onMotorPeer, h, hm]

theorem onCoordinator_next {op : BusOp} {s body : State} (h : s.cfg.role = .coordinator) :
    onCoordinator op s body = .next body := by simp [onCoordinator, h]

end Sys2Proof.Machine
end

