-- ==== Sys2Proof/Laws/Loop.lean ====
section
/-! SUPPORT. Inversion: everything a meaning, a dispatch, an iteration, a host call and a step can do when it answers a next
state. Statements over all steps split on these and unfold nothing. -/

namespace Sys2Proof.Machine

/-- A call of one of the three motor operations (R265). -/
inductive MotorCall (s : State) : State → Prop where
  | setRpm (r : Half) : MotorCall s (setRpm r s)
  | setDirection (d : Direction) : MotorCall s (setDirection d s)
  | stop : MotorCall s (stopMotor s)

/-- What a meaning can do to the state, up to the environment's record. -/
inductive Effect (s : State) : State → Prop where
  /-- calls, replies and events only; an error also puts `dstate` to `Idle` -/
  | calls (env : Env) (d : DState) : d = s.dstate ∨ d = .idle → Effect s { s with env := env, dstate := d }
  | latch (port : Byte) (level : Level) (env : Env) : s.cfg.role = .peer → port.toNat < s.cfg.nPorts →
      Effect s { s with outLatch := Table.insert port.toNat level s.outLatch, env := env }
  | readings (rs : List AnalogReading) : s.cfg.role = .coordinator → Effect s (storeReadings s.rxAddr rs s)
  | levels (ls : List Bool) (i : Nat) : s.cfg.role = .coordinator → Effect s (storeLevels s.rxAddr i ls s)
  | motor (u : State) (env : Env) : s.cfg.role = .peer → s.cfg.hasMotor = true → MotorCall s u →
      Effect s { u with env := env }
  | link (cls echo : Byte) (actual : Half) (fault : Byte) : s.cfg.hasMotor = true →
      Effect s (acceptReply cls echo actual fault s)

theorem Effect.of_onlyEnv {s t : State} (h : OnlyEnv s t) : Effect s t := by
  have hc : Effect s { s with env := t.env, dstate := s.dstate } := .calls _ _ (.inl rfl)
  unfold OnlyEnv at h; rw [h]; exact hc

theorem Effect.refl (s : State) : Effect s s := .of_onlyEnv (OnlyEnv.refl s)

theorem Effect.raise (subject code : Byte) (s : State) : Effect s (raiseProtocolError subject code s) :=
  .calls (replyWith (.errorResponse subject code) s).env .idle (.inr rfl)

theorem onPeer_effect {s body t : State} (h : onPeer s body = .next t) (hb : s.cfg.role = .peer → Effect s body) :
    Effect s t := by
  simp only [onPeer, Host.Outcome.next.injEq] at h
  subst h; split
  · next hr => exact hb hr
  · exact .refl s

theorem onMotorPeer_effect {op : BusOp} {s body t : State} (h : onMotorPeer op s body = .next t)
    (hb : s.cfg.role = .peer → s.cfg.hasMotor = true → Effect s body) : Effect s t := by
  simp only [onMotorPeer, Host.Outcome.next.injEq] at h
  subst h; split
  · next hr =>
    split
    · next hm => exact hb hr hm
    · exact .raise _ _ s
  · exact .refl s

theorem onCoordinator_effect {op : BusOp} {s body t : State} (h : onCoordinator op s body = .next t)
    (hb : s.cfg.role = .coordinator → Effect s body) : Effect s t := by
  simp only [onCoordinator, Host.Outcome.next.injEq] at h
  subst h; split
  · next hr => exact hb hr
  · exact .raise _ _ s

theorem switchOutput_effect (port : Byte) (level : Level) (ack : Instr) {s : State} (hr : s.cfg.role = .peer) :
    Effect s (switchOutput port level ack s) := by
  unfold switchOutput; split
  · next hv => exact .latch port level _ hr (by simpa [portValid] using hv)
  · exact .raise _ _ s

theorem sendCommand_effect {cmd : Byte} {speed : Half} {s t : State} (h : sendCommand cmd speed s = .next t) :
    Effect s t := by
  unfold sendCommand at h; split at h
  · simp only [Host.Outcome.next.injEq] at h; subst h; exact .of_onlyEnv rfl
  · cases h

theorem sendQuery_effect {cmd : Byte} {speed : Half} {s t : State} (h : sendQuery cmd speed s = .next t) :
    Effect s t := by
  unfold sendQuery at h; split at h
  · split at h
    · exact sendCommand_effect h
    · cases h
  · cases h

/-- Everything a meaning can do. -/
theorem exec_effect {i : Instr} {s t : State} (h : exec i s = .next t) : Effect s t := by
  cases i with
  | activate port => exact onPeer_effect h fun hr => switchOutput_effect _ _ _ hr
  | deactivate port => exact onPeer_effect h fun hr => switchOutput_effect _ _ _ hr
  | readAnalog pin =>
    refine onPeer_effect h fun _ => ?_
    unfold readAnalogPin; split
    · exact .of_onlyEnv rfl
    · exact .raise _ _ s
  | readDigital pin =>
    refine onPeer_effect h fun _ => ?_
    unfold readDigitalPin; split
    · exact .of_onlyEnv rfl
    · exact .raise _ _ s
  | readAllAnalog =>
    exact onPeer_effect h fun _ => .of_onlyEnv ((sampleAnalogPins_spec _ s).1.trans (replyAll_spec _ _).1)
  | readAllDigital =>
    exact onPeer_effect h fun _ => .of_onlyEnv ((sampleDigitalPins_spec _ s).1.trans (replyWith_spec _ _).1)
  | motorSetRpm rpm => exact onMotorPeer_effect h fun hr hm => .motor _ _ hr hm (.setRpm rpm)
  | motorSetDir clockwise => exact onMotorPeer_effect h fun hr hm => .motor _ _ hr hm (.setDirection _)
  | motorStop => exact onMotorPeer_effect h fun hr hm => .motor _ _ hr hm .stop
  | motorStatus => exact onMotorPeer_effect h fun _ _ => .of_onlyEnv rfl
  | ackActivate port status => exact onCoordinator_effect h fun _ => .of_onlyEnv rfl
  | ackDeactivate port status => exact onCoordinator_effect h fun _ => .of_onlyEnv rfl
  | analogData pin value => exact onCoordinator_effect h fun hr => .readings [⟨pin, value⟩] hr
  | digitalData pin high =>
    refine onCoordinator_effect h fun hr => ?_
    have := Effect.levels (s := s) [high] pin.toNat hr
    simpa [storeLevels] using this
  | allAnalogData first second => exact onCoordinator_effect h fun hr => .readings _ hr
  | allDigitalData bits => exact onCoordinator_effect h fun hr => .levels _ 0 hr
  | ackMotorRpm rpm status => exact onCoordinator_effect h fun _ => .of_onlyEnv rfl
  | ackMotorDir dir status => exact onCoordinator_effect h fun _ => .of_onlyEnv rfl
  | ackMotorStop status => exact onCoordinator_effect h fun _ => .of_onlyEnv rfl
  | motorStatusData actualRpm dir setRpm fault => exact onCoordinator_effect h fun _ => .of_onlyEnv rfl
  | errorResponse subject code => exact onCoordinator_effect h fun _ => .of_onlyEnv rfl
  | invCw speed => exact sendCommand_effect h
  | invCcw speed => exact sendCommand_effect h
  | invUnbalanceQuery speed => exact sendQuery_effect h
  | invLoadQuery speed => exact sendQuery_effect h
  | invAccelProfile speed => exact sendQuery_effect h
  | invReply cls echo actual byte4 fault byte6 byte7 crc =>
    simp only [exec, execInvReply] at h
    split at h
    · next hm =>
      simp only [Host.Outcome.next.injEq] at h; subst h; split
      · exact .link _ _ _ _ hm
      · exact .refl s
    · cases h

/-! ### The dispatchers -/

theorem peerSwitch_effect {data : List Byte} {s t : State} (h : peerSwitch data s = .next t) : Effect s t := by
  unfold peerSwitch at h; split at h
  · exact exec_effect h
  · simp only [Host.Outcome.next.injEq] at h; subst h; exact .raise _ _ s
  · simp only [Host.Outcome.next.injEq] at h; subst h; split <;> exact .raise _ _ s
  · cases h

theorem coordSwitch_effect {data : List Byte} {s t : State} (h : coordSwitch data s = .next t) : Effect s t := by
  unfold coordSwitch at h; split at h
  · exact exec_effect h
  · simp only [Host.Outcome.next.injEq] at h; subst h; exact .refl s

/-- A dispatch that goes on ran its switch with `dstate` and the frame's address latched, then went back to `Idle`. -/
theorem dispatch_next {f : BusFrame} {switch : List Byte → State → Host.Outcome State Fault Refusal} {s t : State} :
    dispatch f switch s = .next t ↔ ∃ op rest u, f.data = op :: rest ∧ f.data.length ≤ 8 ∧
      switch f.data { s with dstate := .processing op, rxAddr := f.address } = .next u ∧
      t = { u with dstate := .idle } := by
  unfold dispatch
  cases hd : f.data with
  | nil => simp
  | cons op rest =>
    simp only [List.cons.injEq]
    split
    · rw [andThen_next]
      constructor
      · rintro ⟨u, hu, ht⟩
        simp only [Host.Outcome.next.injEq] at ht
        exact ⟨op, rest, u, ⟨rfl, rfl⟩, by assumption, hu, ht.symm⟩
      · rintro ⟨op', rest', u, ⟨rfl, rfl⟩, -, hu, rfl⟩
        exact ⟨u, hu, rfl⟩
    · next hl =>
      simp only [reduceCtorEq, false_iff]
      rintro ⟨_, _, _, -, h, -⟩
      exact hl h

/-- Everything phase 1 can do: nothing, or one dispatch. -/
theorem phase1_next {received : Option BusFrame} {s t : State} (h : phase1 received s = .next t) :
    t = s ∨ ∃ f op u, received = some f ∧ (s.cfg.role = .peer → f.address = s.cfg.selfAddress) ∧
      Effect { s with dstate := .processing op, rxAddr := f.address } u ∧ t = { u with dstate := .idle } := by
  unfold phase1 at h
  split at h
  · simp only [Host.Outcome.next.injEq] at h; exact .inl h.symm
  · next f =>
    split at h
    · next hr =>
      unfold peerDispatch at h
      split at h
      · next ha =>
        obtain ⟨op, rest, u, -, -, hu, ht⟩ := dispatch_next.1 h
        exact .inr ⟨f, op, u, rfl, fun _ => ha, peerSwitch_effect hu, ht⟩
      · simp only [Host.Outcome.next.injEq] at h; exact .inl h.symm
    · next hr =>
      obtain ⟨op, rest, u, -, -, hu, ht⟩ := dispatch_next.1 h
      exact .inr ⟨f, op, u, rfl, (fun h' => by rw [hr] at h'; cases h'), coordSwitch_effect hu, ht⟩

/-- Everything phase 3 can do. -/
theorem phase3_next {s t : State} (h : phase3 s = .next t) :
    t = s ∨ (s.cfg.hasMotor = true ∧ 10 ≤ s.rxFifo.length ∧ Effect { s with rxFifo := s.rxFifo.drop 10 } t) := by
  unfold phase3 at h
  split at h
  · next hm =>
    unfold rxService at h
    split at h
    · next i hd =>
      refine .inr ⟨hm, ?_, exec_effect h⟩
      unfold decodeReply at hd
      split at hd
      · next heq => rw [heq]; simp only [List.length_cons]; omega
      · cases hd
    · simp only [Host.Outcome.next.injEq] at h; exact .inl h.symm
  · simp only [Host.Outcome.next.injEq] at h; exact .inl h.symm

theorem iteration_next {advance : BitVec 31} {received : Option BusFrame} {s t : State} :
    iteration advance received s = .next t ↔
      ∃ u, phase1 received (tick advance s) = .next u ∧ phase3 (phase2 u) = .next t := andThen_next

theorem onCoordinatorHost_next {s body t : State} :
    onCoordinatorHost s body = .next t ↔ s.cfg.role = .coordinator ∧ t = body := by
  unfold onCoordinatorHost; split
  · next h => simp [h, eq_comm]
  · next h => simp [h]

theorem onMotorHost_next {s body t : State} :
    onMotorHost s body = .next t ↔ (s.cfg.role = .peer ∧ s.cfg.hasMotor = true) ∧ t = body := by
  unfold onMotorHost; split
  · next h => simp [h, eq_comm]
  · next h => simp [h]

/-- Everything a host call can do: calls only, or one motor operation on a motor node. -/
theorem hostCall_next {call : HostCall} {s t : State} (h : hostCall call s = .next t) :
    OnlyEnv s t ∨
      (s.cfg.role = .peer ∧ s.cfg.hasMotor = true ∧ ∃ u env, MotorCall s u ∧ t = { u with env := env }) := by
  cases call
  case inverterQuery q =>
    obtain ⟨u, hu, ht⟩ := andThen_next.1 h
    simp only [Host.Outcome.next.injEq] at ht
    subst ht
    left
    cases q <;>
    · simp only [queryInstr, exec, execInvUnbalanceQuery, execInvLoadQuery, execInvAccelProfile, sendQuery,
        sendCommand, if_true] at hu
      split at hu
      · split at hu
        · simp only [Host.Outcome.next.injEq] at hu; subst hu; rfl
        · cases hu
      · cases hu
  case setRpm rpm =>
    obtain ⟨⟨hr, hm⟩, ht⟩ := onMotorHost_next.1 h
    exact .inr ⟨hr, hm, _, _, .setRpm rpm, ht⟩
  case setDirection d =>
    obtain ⟨⟨hr, hm⟩, ht⟩ := onMotorHost_next.1 h
    exact .inr ⟨hr, hm, _, _, .setDirection d, ht⟩
  case stop =>
    obtain ⟨⟨hr, hm⟩, ht⟩ := onMotorHost_next.1 h
    exact .inr ⟨hr, hm, _, _, .stop, ht⟩
  case status => rw [(onMotorHost_next.1 h).2]; exact .inl rfl
  all_goals
    rw [(onCoordinatorHost_next.1 h).2]; exact .inl rfl

/-! ### The step -/

/-- A step that goes on: a legal configuration, and the next input run. -/
theorem step_next {s t : State} :
    step s = .next t ↔ s.cfg.Legal ∧ runInput s.env.nextInput.1 { s with env := s.env.nextInput.2 } = .next t := by
  unfold step takeStep; split
  · next h => exact ⟨fun h' => ⟨h, h'⟩, And.right⟩
  · next h => exact ⟨fun h' => (by cases h'), fun h' => absurd h'.1 h⟩

theorem step_illegal {s : State} (h : ¬ s.cfg.Legal) : step s = .refused .illegalConfiguration := by
  simp only [step, takeStep, if_neg h]

/-- A step on a listed input. -/
theorem step_listed {s : State} {i : Input} {rest : List Input} (hl : s.cfg.Legal) (hi : s.env.inputs = i :: rest) :
    step s = runInput i { s with env := { s.env with inputs := rest } } := by
  simp only [step, takeStep, if_pos hl, Env.nextInput_listed hi]

/-- Everything a step can do, by its input. -/
theorem step_cases {s t : State} (h : step s = .next t) : s.cfg.Legal ∧
    ∃ env,
      (∃ adv received u, phase1 received (tick adv { s with env := env }) = .next u ∧
        phase3 (phase2 u) = .next t) ∨
      (∃ adv call, hostCall call (tick adv { s with env := env }) = .next t) ∨
      (∃ b, s.cfg.hasMotor = true ∧ t = rxPush b { s with env := env }) ∨
      (∃ t0, t = State.boot s.cfg t0 env) := by
  obtain ⟨hl, h⟩ := step_next.1 h
  refine ⟨hl, s.env.nextInput.2, ?_⟩
  cases hi : s.env.nextInput.1 with
  | iteration adv received =>
    rw [hi] at h
    obtain ⟨u, h1, h2⟩ := iteration_next.1 h
    exact .inl ⟨adv, received, u, h1, h2⟩
  | hostCall adv call => rw [hi] at h; exact .inr (.inl ⟨adv, call, h⟩)
  | rxPush b =>
    rw [hi] at h
    simp only [runInput, receiveByte] at h
    split at h
    · next hm => simp only [Host.Outcome.next.injEq] at h; exact .inr (.inr (.inl ⟨b, hm, h.symm⟩))
    · cases h
  | boot t0 =>
    rw [hi] at h
    simp only [runInput, Host.Outcome.next.injEq] at h
    exact .inr (.inr (.inr ⟨t0, h.symm⟩))

end Sys2Proof.Machine
end

