-- ==== Sys2Proof/Laws/PerInstr.lean ====
section
/-! SUPPORT. One family over all constructors: the shape of what `encode` writes (R100, R129, R130, R165, R167). -/

namespace Sys2Proof.Machine

theorem putBus16_length (highFirst : Bool) (v : Half) : (putBus16 highFirst v).length = 2 := by
  cases highFirst <;> rfl

end Sys2Proof.Machine

namespace Sys2Proof.Laws.EncodeShape

open Sys2Proof.Machine

/-- A bus instruction is written as its opcode and at most six more bytes, at least its minimum length (R165, R167); an
instruction of the inverter link as ten bytes (R129, R130). -/
def Statement (i : Instr) : Prop :=
  ∀ c : Config, match i.busOp with
    | some op => (encode c i).head? = some op.code ∧ op.minLen ≤ (encode c i).length ∧ (encode c i).length ≤ 7
    | none => (encode c i).length = 10

theorem activate (port : Byte) : Statement (.activate port) := by
  intro c; simp [Instr.busOp, encode, BusOp.code, BusOp.minLen]

theorem deactivate (port : Byte) : Statement (.deactivate port) := by
  intro c; simp [Instr.busOp, encode, BusOp.code, BusOp.minLen]

theorem readAnalog (pin : Byte) : Statement (.readAnalog pin) := by
  intro c; simp [Instr.busOp, encode, BusOp.code, BusOp.minLen]

theorem readDigital (pin : Byte) : Statement (.readDigital pin) := by
  intro c; simp [Instr.busOp, encode, BusOp.code, BusOp.minLen]

theorem readAllAnalog : Statement (.readAllAnalog) := by
  intro c; simp [Instr.busOp, encode, BusOp.code, BusOp.minLen]

theorem readAllDigital : Statement (.readAllDigital) := by
  intro c; simp [Instr.busOp, encode, BusOp.code, BusOp.minLen]

theorem motorSetRpm (rpm : Half) : Statement (.motorSetRpm rpm) := by
  intro c; simp [Instr.busOp, encode, BusOp.code, BusOp.minLen, putBus16_length]

theorem motorSetDir (clockwise : Bool) : Statement (.motorSetDir clockwise) := by
  intro c; simp [Instr.busOp, encode, BusOp.code, BusOp.minLen]

theorem motorStop : Statement (.motorStop) := by
  intro c; simp [Instr.busOp, encode, BusOp.code, BusOp.minLen]

theorem motorStatus : Statement (.motorStatus) := by
  intro c; simp [Instr.busOp, encode, BusOp.code, BusOp.minLen]

theorem ackActivate (port : Byte) (status : Byte) : Statement (.ackActivate port status) := by
  intro c; simp [Instr.busOp, encode, BusOp.code, BusOp.minLen]

theorem ackDeactivate (port : Byte) (status : Byte) : Statement (.ackDeactivate port status) := by
  intro c; simp [Instr.busOp, encode, BusOp.code, BusOp.minLen]

theorem analogData (pin : Byte) (value : Half) : Statement (.analogData pin value) := by
  intro c; simp [Instr.busOp, encode, BusOp.code, BusOp.minLen, putBus16_length]

theorem digitalData (pin : Byte) (high : Bool) : Statement (.digitalData pin high) := by
  intro c; simp [Instr.busOp, encode, BusOp.code, BusOp.minLen]

theorem allAnalogData (first : AnalogReading) (second : Option AnalogReading) : Statement (.allAnalogData first second) := by
  intro c
  cases second <;> simp [Instr.busOp, encode, encodeReading, BusOp.code, BusOp.minLen, putBus16_length]

theorem allDigitalData (bits : Byte) : Statement (.allDigitalData bits) := by
  intro c; simp [Instr.busOp, encode, BusOp.code, BusOp.minLen]

theorem ackMotorRpm (rpm : Half) (status : Byte) : Statement (.ackMotorRpm rpm status) := by
  intro c; simp [Instr.busOp, encode, BusOp.code, BusOp.minLen, putBus16_length]

theorem ackMotorDir (dir : Direction) (status : Byte) : Statement (.ackMotorDir dir status) := by
  intro c; simp [Instr.busOp, encode, BusOp.code, BusOp.minLen]

theorem ackMotorStop (status : Byte) : Statement (.ackMotorStop status) := by
  intro c; simp [Instr.busOp, encode, BusOp.code, BusOp.minLen]

theorem motorStatusData (actualRpm : Half) (dir : Direction) (setRpm : BitVec 15) (fault : Byte) : Statement (.motorStatusData actualRpm dir setRpm fault) := by
  intro c; simp [Instr.busOp, encode, BusOp.code, BusOp.minLen, putBus16_length]

theorem errorResponse (subject : Byte) (code : Byte) : Statement (.errorResponse subject code) := by
  intro c; simp [Instr.busOp, encode, BusOp.code, BusOp.minLen]

theorem invCw (speed : Half) : Statement (.invCw speed) := fun _ => rfl

theorem invCcw (speed : Half) : Statement (.invCcw speed) := fun _ => rfl

theorem invUnbalanceQuery (speed : Half) : Statement (.invUnbalanceQuery speed) := fun _ => rfl

theorem invLoadQuery (speed : Half) : Statement (.invLoadQuery speed) := fun _ => rfl

theorem invAccelProfile (speed : Half) : Statement (.invAccelProfile speed) := fun _ => rfl

theorem invReply (cls : Byte) (echo : Byte) (actual : Half) (byte4 : Byte) (fault : Byte) (byte6 : Byte) (byte7 : Byte) (crc : Half) : Statement (.invReply cls echo actual byte4 fault byte6 byte7 crc) := fun _ => rfl

end Sys2Proof.Laws.EncodeShape
end

