-- ==== Sys2Proof/Tests/Slice0.lean ====
section
/-! SUPPORT. The model's own tests. Expected values are the spec's vectors (spec/95_test_vectors.md; the row is named in each
docstring); the CRC bytes are those of `CRC_REF`. Then one witness for each statement that has hypotheses. -/

namespace Sys2Proof.Tests

open Sys2Proof Sys2Proof.Machine

/-! ### Small states -/

/-- The answers of the environment: the `BusSend` outcomes, the analog samples, the digital levels. -/
def answering (sends : List SendOutcome) (analog : List Half) (digital : List Bool) (s : State) : State :=
  { s with env := ⟨s.env.inputs, sends, analog, digital, 0, []⟩ }

def sensor : State := answering [.ok, .ok, .ok, .ok] [] [] (State.resetOf Config.refSensorPeer 0#32)

def motor : State := answering [.ok, .ok] [] [] (State.resetOf Config.refMotorPeer 0#32)

def coordinator : State := answering [.ok] [] [] (State.resetOf Config.refCoordinator 0#32)

/-- The motor node holding a speed. -/
def holding (rpm : Half) : State := { motor with commandedRpm := rpm, currentRpm := rpm, targetRpm := rpm }

/-- The motor node in a deceleration. -/
def slowing (current target : Half) (last now : Time) : State :=
  { holding current with commandedRpm := target, targetRpm := target, decelerating := true, lastStepTime := last, now := now }

/-- The coordinator with a frame's address latched, at a clock value. -/
def hearing (a : Addr) (now : Time) : State := { coordinator with rxAddr := a, now := now }

/-- The link registers of the receive vectors L1 to L8. -/
def linked (fifo : List Byte) : State := { motor with actualRpm := 7#16, fault := 9#8, rxFifo := fifo }

/-- One input listed. -/
def given (i : Input) (s : State) : State := { s with env := { s.env with inputs := [i] } }

def got (o : Host.Outcome State Fault Refusal) : Option State :=
  match o with
  | .next t => some t
  | .fault _ => none
  | .refused _ => none

def stop (o : Host.Outcome State Fault Refusal) : Option Refusal :=
  match o with
  | .next _ => none
  | .fault _ => none
  | .refused r => some r

def calls (o : Host.Outcome State Fault Refusal) : Option (List Observation) := (got o).map fun t => t.env.trace

def speeds (s : State) : Half × Half × Half × Bool := (s.commandedRpm, s.currentRpm, s.targetRpm, s.decelerating)

structure Links where
  actualRpm : Half
  fault : Byte
  lastReply : ReplyClass
  lastEcho : Byte
  waiting : Nat
deriving DecidableEq, Repr

def links (s : State) : Links := ⟨s.actualRpm, s.fault, s.lastReply, s.lastEcho, s.rxFifo.length⟩

/-- The frame of vector L1. -/
def goodReply : List Byte := [0x06#8, 0x14#8, 0x05#8, 0xD7#8, 0#8, 0#8, 0#8, 0#8, 0xAB#8, 0x80#8]

/-! ### Well-formedness: one ill-formed term for each check -/

theorem test_wf_unbalance : (Instr.invUnbalanceQuery 1#16).wellFormed = false := by decide
theorem test_wf_load : (Instr.invLoadQuery 0x0100#16).wellFormed = false := by decide
theorem test_wf_accel : (Instr.invAccelProfile 0xFFFF#16).wellFormed = false := by decide
theorem test_wf_refused_by_decoder :
    decodeTableWord 24 0x010027 = none ∧ decodeTableWord 24 0x0001B0 = none ∧ decodeTableWord 24 0xFFFFA0 = none := by
  decide

theorem test_legal_motor : Config.refMotorPeer.Legal := by decide
theorem test_legal_sensor : Config.refSensorPeer.Legal := by decide
theorem test_legal_coordinator : Config.refCoordinator.Legal := by decide
theorem test_legal_node : Config.node.Legal := by decide
theorem test_illegal_ports : ¬ { Config.refSensorPeer with nPorts := 257 }.Legal := by decide
theorem test_illegal_analog : ¬ { Config.refSensorPeer with nAnalog := 257 }.Legal := by decide
theorem test_illegal_digital : ¬ { Config.refSensorPeer with nDigital := 9 }.Legal := by decide
theorem test_illegal_max_rpm : ¬ { Config.refMotorPeer with maxRpm := 0x8000#16 }.Legal := by decide
theorem test_illegal_decel_step : ¬ { Config.refMotorPeer with decelStep := 0#16 }.Legal := by decide
theorem test_illegal_decel_interval : ¬ { Config.refMotorPeer with decelInterval := 2 ^ 31 }.Legal := by decide
theorem test_illegal_keep_alive : ¬ { Config.refMotorPeer with keepAliveInterval := 0 }.Legal ∧
    ¬ { Config.refMotorPeer with keepAliveInterval := 2 ^ 31 }.Legal := by decide
theorem test_illegal_status : ¬ { Config.refMotorPeer with statusInterval := 2 ^ 31 }.Legal := by decide
theorem test_illegal_table : ¬ { Config.refCoordinator with tableSize := 0 }.Legal ∧
    ¬ { Config.refCoordinator with tablePins := 0 }.Legal := by decide
theorem test_illegal_rx_depth : ¬ { Config.refMotorPeer with rxDepth := 9 }.Legal := by decide
theorem test_illegal_ack_nak : ¬ { Config.refMotorPeer with invNak := 0x06#8 }.Legal := by decide
theorem test_illegal_codes : ¬ { Config.refMotorPeer with errLength := 0x01#8 }.Legal := by decide
theorem test_illegal_coordinator : ¬ { Config.refCoordinator with hasMotor := true }.Legal ∧
    ¬ { Config.refCoordinator with nPorts := 1 }.Legal := by decide
theorem test_deliverable : ¬ (BusFrame.mk 0x010#11 []).Deliverable ∧
    ¬ (BusFrame.mk 0x010#11 (List.replicate 9 0#8)).Deliverable := by decide

/-! ### Decoding: every constructor from a word written out from its layout (table V2 and section 2.8) -/

theorem test_decode_activate : decodeTableWord 16 0x0201 = some (.activate 2#8) := by decide
theorem test_decode_deactivate : decodeTableWord 16 0x0202 = some (.deactivate 2#8) := by decide
theorem test_decode_readAnalog : decodeTableWord 16 0x0303 = some (.readAnalog 3#8) := by decide
theorem test_decode_readDigital : decodeTableWord 16 0x0204 = some (.readDigital 2#8) := by decide
theorem test_decode_readAllAnalog : decodeTableWord 8 0x05 = some .readAllAnalog := by decide
theorem test_decode_readAllDigital : decodeTableWord 8 0x06 = some .readAllDigital := by decide
theorem test_decode_motorSetRpm : decodeTableWord 24 0xDC0530 = some (.motorSetRpm 1500#16) := by decide
theorem test_decode_motorSetDir : decodeTableWord 16 0x0131 = some (.motorSetDir true) := by decide
theorem test_decode_motorStop : decodeTableWord 8 0x32 = some .motorStop := by decide
theorem test_decode_motorStatus : decodeTableWord 8 0x33 = some .motorStatus := by decide
theorem test_decode_ackActivate : decodeTableWord 24 0x000210 = some (.ackActivate 2#8 0#8) := by decide
theorem test_decode_ackDeactivate : decodeTableWord 24 0x000211 = some (.ackDeactivate 2#8 0#8) := by decide
theorem test_decode_analogData : decodeTableWord 32 0x9A020320 = some (.analogData 3#8 0x029A#16) := by decide
theorem test_decode_digitalData : decodeTableWord 24 0x010221 = some (.digitalData 2#8 true) := by decide
theorem test_decode_allAnalogData : decodeTableWord 56 0x00020100010022 =
    some (.allAnalogData ⟨0#8, 0x0100#16⟩ (some ⟨1#8, 0x0200#16⟩)) := by decide
theorem test_decode_allAnalogData_one : decodeTableWord 32 0x00030222 =
    some (.allAnalogData ⟨2#8, 0x0300#16⟩ none) := by decide
theorem test_decode_allDigitalData : decodeTableWord 16 0x0523 = some (.allDigitalData 5#8) := by decide
theorem test_decode_ackMotorRpm : decodeTableWord 32 0x00DC0540 = some (.ackMotorRpm 1500#16 0#8) := by decide
theorem test_decode_ackMotorDir : decodeTableWord 24 0x000041 = some (.ackMotorDir .ccw 0#8) := by decide
theorem test_decode_ackMotorStop : decodeTableWord 16 0x0042 = some (.ackMotorStop 0#8) := by decide
theorem test_decode_motorStatusData : decodeTableWord 48 0x00BE85D70543 =
    some (.motorStatusData 1495#16 .cw 1470#15 0#8) := by decide
theorem test_decode_errorResponse : decodeTableWord 24 0x0309FF = some (.errorResponse 9#8 3#8) := by decide
theorem test_decode_invCw : decodeTableWord 24 0xDC0514 = some (.invCw 1500#16) := by decide
theorem test_decode_invCcw : decodeTableWord 24 0xB00418 = some (.invCcw 1200#16) := by decide
theorem test_decode_invUnbalanceQuery : decodeTableWord 8 0x27 = some (.invUnbalanceQuery 0#16) := by decide
theorem test_decode_invLoadQuery : decodeTableWord 8 0xB0 = some (.invLoadQuery 0#16) := by decide
theorem test_decode_invAccelProfile : decodeTableWord 8 0xA0 = some (.invAccelProfile 0#16) := by decide
theorem test_decode_invReply : decodeTableWord 80 0x462B00000000B004187F =
    some (.invReply 0x7F#8 0x18#8 1200#16 0#8 0#8 0#8 0#8 0x2B46#16) := by decide

/-- V3 to V9. -/
theorem test_decode_lengths :
    decodeBus true [0x30#8, 0x05#8] = .reject (.lengthError .motorSetRpm) ∧
    decodeBus true [0x03#8] = .reject (.lengthError .readAnalog) ∧
    decodeBus true [0x43#8, 0x05#8, 0xD7#8, 0x85#8, 0xBE#8] = .reject (.lengthError .motorStatusData) ∧
    decodeBus true [0x77#8, 0x01#8] = .reject (.unknownOpcode 0x77#8) ∧
    decodeBus true [0x01#8, 0x02#8, 0xAA#8, 0xBB#8] = .decoded (.activate 2#8) ∧
    decodeBus true [0x21#8, 0x02#8, 0x80#8] = .decoded (.digitalData 2#8 true) ∧
    decodeBus true [0x31#8, 0x02#8] = .decoded (.motorSetDir true) := by decide

/-- V10 to V13. -/
theorem test_decode_triples :
    decodeBus true [0x22#8, 0#8, 1#8, 0#8, 1#8, 2#8] = .decoded (.allAnalogData ⟨0#8, 0x0100#16⟩ none) ∧
    decodeBus true [0x22#8, 0#8, 1#8, 0#8, 1#8, 2#8, 0#8, 0x99#8] =
      .decoded (.allAnalogData ⟨0#8, 0x0100#16⟩ (some ⟨1#8, 0x0200#16⟩)) ∧
    decodeBus true [0x22#8, 0#8, 1#8] = .reject (.lengthError .allAnalogData) ∧
    decodeBus true [0x43#8, 0x12#8, 0x34#8, 0x7F#8, 0xFF#8, 0xAA#8] =
      .decoded (.motorStatusData 0x1234#16 .ccw 0x7FFF#15 0xAA#8) := by decide

/-- V14, V15. -/
theorem test_pack : packDigital [true, false, true] = 5#8 ∧ packAllAnalog [] = [] := by decide

/-! ### Output and sensor opcodes (section 2.3) -/

/-- D3v and D4v: the last valid port and the first invalid one. -/
theorem test_activate :
    calls (exec (.activate 3#8) sensor) =
      some [.gpioSet 3#8 .on, .busSend ⟨0x010#11, [0x10#8, 3#8, 0#8]⟩ 10 .ok] ∧
    calls (exec (.activate 4#8) sensor) = some [.busSend ⟨0x010#11, [0xFF#8, 4#8, 2#8]⟩ 10 .ok] := by decide

/-- D20v: the port stays driven when the acknowledgement is dropped. -/
theorem test_activate_dropped :
    (got (exec (.activate 1#8) (answering [.timeout, .busOff] [] [] sensor))).map (fun t => (latchRead t 1, t.env.trace)) =
      some (some .on, [.gpioSet 1#8 .on, .busSend ⟨0x010#11, [0x10#8, 1#8, 0#8]⟩ 10 .timeout,
        .busSend ⟨0x010#11, [0x10#8, 1#8, 0#8]⟩ 10 .busOff,
        .hostEvent (.txDropped ⟨0x010#11, [0x10#8, 1#8, 0#8]⟩ .timeout .busOff)]) := by decide

/-- D2v and D5v. -/
theorem test_deactivate :
    calls (exec (.deactivate 2#8) sensor) =
      some [.gpioSet 2#8 .off, .busSend ⟨0x010#11, [0x11#8, 2#8, 0#8]⟩ 10 .ok] ∧
    calls (exec (.deactivate 7#8) sensor) = some [.busSend ⟨0x010#11, [0xFF#8, 7#8, 2#8]⟩ 10 .ok] := by decide

/-- D7v and D8v. -/
theorem test_readAnalog :
    calls (exec (.readAnalog 7#8) (answering [.ok] [0xFFFF#16] [] sensor)) =
      some [.gpioReadAnalog 7#8 0xFFFF#16, .busSend ⟨0x010#11, [0x20#8, 7#8, 0xFF#8, 0xFF#8]⟩ 10 .ok] ∧
    calls (exec (.readAnalog 8#8) sensor) = some [.busSend ⟨0x010#11, [0xFF#8, 8#8, 3#8]⟩ 10 .ok] := by decide

/-- D9v and D10v. -/
theorem test_readDigital :
    calls (exec (.readDigital 2#8) (answering [.ok] [] [true] sensor)) =
      some [.gpioReadDigital 2#8 true, .busSend ⟨0x010#11, [0x21#8, 2#8, 1#8]⟩ 10 .ok] ∧
    calls (exec (.readDigital 8#8) sensor) = some [.busSend ⟨0x010#11, [0xFF#8, 8#8, 3#8]⟩ 10 .ok] := by decide

/-- P4's node: three analog pins, and a transport that fails. -/
def retrying : State :=
  answering [.busOff, .ok, .timeout, .timeout] [0x0100#16, 0x0200#16, 0x0300#16] []
    { sensor with cfg := { Config.refSensorPeer with nAnalog := 3 } }

/-- P4: three pins, two frames, failures of the transport. -/
theorem test_readAllAnalog :
    calls (exec .readAllAnalog retrying) =
      some [.gpioReadAnalog 0#8 0x0100#16, .gpioReadAnalog 1#8 0x0200#16, .gpioReadAnalog 2#8 0x0300#16,
        .busSend ⟨0x010#11, [0x22#8, 0#8, 1#8, 0#8, 1#8, 2#8, 0#8]⟩ 10 .busOff, .busRecover,
        .busSend ⟨0x010#11, [0x22#8, 0#8, 1#8, 0#8, 1#8, 2#8, 0#8]⟩ 10 .ok,
        .busSend ⟨0x010#11, [0x22#8, 2#8, 3#8, 0#8]⟩ 10 .timeout, .busSend ⟨0x010#11, [0x22#8, 2#8, 3#8, 0#8]⟩ 10 .timeout,
        .hostEvent (.txDropped ⟨0x010#11, [0x22#8, 2#8, 3#8, 0#8]⟩ .timeout .timeout)] := by decide

/-- D12v. -/
theorem test_readAllDigital :
    (calls (exec .readAllDigital (answering [.ok] [] [true, false, true, false, false, false, false, false] sensor))).map
      (fun tr => (tr.length, tr.getLast?)) =
      some (9, some (.busSend ⟨0x010#11, [0x23#8, 0x05#8]⟩ 10 .ok)) := by decide

/-- D17v and D18v. -/
theorem test_unsupported :
    calls (exec (.motorSetRpm 1500#16) sensor) = some [.busSend ⟨0x010#11, [0xFF#8, 0x30#8, 1#8]⟩ 10 .ok] ∧
    calls (exec (.analogData 3#8 0x029A#16) sensor) = some [.busSend ⟨0x010#11, [0xFF#8, 0x20#8, 1#8]⟩ 10 .ok] := by decide

/-! ### Motor opcodes (section 2.4) and the ramp (section 2.7) -/

/-- M2: the clamp. -/
theorem test_motorSetRpm_up :
    (got (exec (.motorSetRpm 0xFFFF#16) motor)).map (fun t => (speeds t, t.env.trace)) =
      some ((3000#16, 3000#16, 3000#16, false),
        [.serialSend [0x14#8, 0x0B#8, 0xB8#8, 0#8, 0#8, 0#8, 0#8, 0#8, 0x41#8, 0xD9#8],
         .busSend ⟨0x020#11, [0x40#8, 0x0B#8, 0xB8#8, 0#8]⟩ 10 .ok]) := by decide

/-- M3, and A2: a deceleration under way keeps its step clock. -/
theorem test_motorSetRpm_down :
    (got (exec (.motorSetRpm 0#16) { holding 1500#16 with now := 10000#32 })).map
      (fun t => (speeds t, t.lastStepTime, t.env.trace)) =
      some ((0#16, 1500#16, 0#16, true), 10000#32, [.busSend ⟨0x020#11, [0x40#8, 0#8, 0#8, 0#8]⟩ 10 .ok]) ∧
    speeds (setRpm 800#16 (slowing 900#16 0#16 7000#32 7100#32)) = (800#16, 900#16, 800#16, true) ∧
    (setRpm 800#16 (slowing 900#16 0#16 7000#32 7100#32)).lastStepTime = 7000#32 := by decide

/-- M4. -/
theorem test_motorSetDir :
    (got (exec (.motorSetDir false) (holding 1200#16))).map (fun t => (speeds t, t.direction, t.env.trace)) =
      some ((1200#16, 1200#16, 1200#16, false), .ccw,
        [.serialSend [0x18#8, 0x04#8, 0xB0#8, 0#8, 0#8, 0#8, 0#8, 0#8, 0xD7#8, 0xC5#8],
         .busSend ⟨0x020#11, [0x41#8, 0#8, 0#8]⟩ 10 .ok]) := by decide

/-- M6. -/
theorem test_motorStop :
    (got (exec .motorStop (slowing 1500#16 0#16 0#32 0#32))).map (fun t => (speeds t, t.env.trace)) =
      some ((0#16, 0#16, 0#16, false),
        [.serialSend [0x14#8, 0#8, 0#8, 0#8, 0#8, 0#8, 0#8, 0#8, 0xFC#8, 0x18#8],
         .busSend ⟨0x020#11, [0x42#8, 0#8]⟩ 10 .ok]) := by decide

/-- M8 and M10. -/
theorem test_motorStatus :
    calls (exec .motorStatus { holding 1470#16 with actualRpm := 1495#16 }) =
      some [.busSend ⟨0x020#11, [0x43#8, 0x05#8, 0xD7#8, 0x85#8, 0xBE#8, 0#8]⟩ 10 .ok] ∧
    calls (exec .motorStatus { holding 3000#16 with direction := .ccw, fault := 3#8 }) =
      some [.busSend ⟨0x020#11, [0x43#8, 0#8, 0#8, 0x0B#8, 0xB8#8, 3#8]⟩ 10 .ok] := by decide

/-- A8 to A10, A6: too early, one step however late, across the wrap of the clock, the snap. -/
theorem test_rampTick :
    rampTick (slowing 1500#16 0#16 1000#32 1599#32) = slowing 1500#16 0#16 1000#32 1599#32 ∧
    speeds (rampTick (slowing 1500#16 0#16 1000#32 4000#32)) = (0#16, 1470#16, 0#16, true) ∧
    speeds (rampTick (slowing 1500#16 0#16 0xFFFFFF00#32 0x158#32)) = (0#16, 1470#16, 0#16, true) ∧
    speeds (rampTick (slowing 30#16 0#16 0#32 600#32)) = (0#16, 0#16, 0#16, false) ∧
    speeds (rampTick (slowing 31#16 0#16 0#32 600#32)) = (0#16, 1#16, 0#16, true) := by decide

/-- A14: the step first, then the keep-alive, both with the new speed. -/
theorem test_phase2 :
    (phase2 { slowing 1500#16 0#16 400#32 1000#32 with lastKeepAlive := 0#32 }).env.trace =
      [.serialSend [0x14#8, 0x05#8, 0xBE#8, 0#8, 0#8, 0#8, 0#8, 0#8, 0xFE#8, 0xB0#8],
       .serialSend [0x14#8, 0x05#8, 0xBE#8, 0#8, 0#8, 0#8, 0#8, 0#8, 0xFE#8, 0xB0#8]] := by decide

/-- A15: the status frame shows the new speed. -/
theorem test_statusBeacon :
    (phase2 { slowing 1500#16 0#16 0#32 600#32 with
      cfg := { Config.refMotorPeer with statusInterval := 600 }, actualRpm := 1495#16 }).env.trace =
      [.serialSend [0x14#8, 0x05#8, 0xBE#8, 0#8, 0#8, 0#8, 0#8, 0#8, 0xFE#8, 0xB0#8],
       .busSend ⟨0x020#11, [0x43#8, 0x05#8, 0xD7#8, 0x85#8, 0xBE#8, 0#8]⟩ 10 .ok] := by decide

/-! ### The coordinator (sections 2.5 and 2.6) -/

/-- K7 to K13. -/
theorem test_responses :
    calls (exec (.ackActivate 2#8 0#8) (hearing 0x010#11 0#32)) =
      some [.hostEvent (.response 0x010#11 (.ackActivate 2#8 0#8))] ∧
    calls (exec (.ackDeactivate 2#8 0#8) (hearing 0x010#11 0#32)) =
      some [.hostEvent (.response 0x010#11 (.ackDeactivate 2#8 0#8))] ∧
    calls (exec (.ackMotorRpm 3000#16 0#8) (hearing 0x020#11 0#32)) =
      some [.hostEvent (.response 0x020#11 (.ackMotorRpm 3000#16 0#8))] ∧
    calls (exec (.ackMotorDir .ccw 0#8) (hearing 0x020#11 0#32)) =
      some [.hostEvent (.response 0x020#11 (.ackMotorDir .ccw 0#8))] ∧
    calls (exec (.ackMotorStop 0#8) (hearing 0x020#11 0#32)) =
      some [.hostEvent (.response 0x020#11 (.ackMotorStop 0#8))] ∧
    calls (exec (.motorStatusData 1495#16 .cw 1470#15 0#8) (hearing 0x020#11 0#32)) =
      some [.hostEvent (.response 0x020#11 (.motorStatusData 1495#16 .cw 1470#15 0#8))] ∧
    calls (exec (.errorResponse 9#8 3#8) (hearing 0x010#11 0#32)) =
      some [.hostEvent (.response 0x010#11 (.errorResponse 9#8 3#8))] := by decide

/-- K1 and K6: slot 0; a pin at `TABLE_PINS` stores nothing. -/
theorem test_analogData :
    (got (exec (.analogData 3#8 0x029A#16) (hearing 0x010#11 5000#32))).map (fun t => (analogRead t 0 3#8, t.analogTab.length)) =
      some (some ⟨0x029A#16, 5000#32⟩, 1) ∧
    (got (exec (.analogData 16#8 1#16) (hearing 0x010#11 5050#32))).map (fun t => t.analogTab) = some [] := by decide

/-- K17: the unknown device 0x7FF is slot 7. -/
theorem test_digitalData :
    (got (exec (.digitalData 0#8 false) (hearing 0x7FF#11 5060#32))).map (fun t => (digitalRead t 7 0#8, t.digitalTab.length)) =
      some (some ⟨false, 5060#32⟩, 1) := by decide

/-- K3 and K4. -/
theorem test_allAnalogData :
    (got (exec (.allAnalogData ⟨0#8, 0x0100#16⟩ (some ⟨1#8, 0x0200#16⟩)) (hearing 0x010#11 5020#32))).map
      (fun t => (analogRead t 0 0#8, analogRead t 0 1#8)) =
      some (some ⟨0x0100#16, 5020#32⟩, some ⟨0x0200#16, 5020#32⟩) ∧
    (got (exec (.allAnalogData ⟨2#8, 0x0300#16⟩ none) (hearing 0x013#11 5030#32))).map (fun t => analogRead t 3 2#8) =
      some (some ⟨0x0300#16, 5030#32⟩) := by decide

/-- K5. -/
theorem test_allDigitalData :
    (got (exec (.allDigitalData 5#8) (hearing 0x010#11 5040#32))).map
      (fun t => (t.digitalTab.map fun e => (e.1, e.2.level), digitalRead t 0 7#8)) =
      some ([(0, true), (1, false), (2, true), (3, false), (4, false), (5, false), (6, false), (7, false)],
        some ⟨false, 5040#32⟩) := by decide

/-- C2v, C3v, C5v: the two kinds apart, aliasing of 0x010 and 0x018, a pin outside the table. -/
theorem test_get :
    getReading (storeAnalog 0x010#11 3#8 0x029A#16 (hearing 0#11 5000#32)) 0x010#11 3#8 true =
      .analog 0x029A#16 5000#32 ∧
    getReading (storeAnalog 0x010#11 3#8 0x029A#16 (hearing 0#11 5000#32)) 0x010#11 3#8 false = .invalid ∧
    getReading (storeAnalog 0x018#11 3#8 0x0111#16 (hearing 0#11 5200#32)) 0x010#11 3#8 true =
      .analog 0x0111#16 5200#32 ∧
    getReading (storeAnalog 0x010#11 16#8 1#16 (hearing 0#11 5400#32)) 0x010#11 16#8 true = .invalid := by decide

/-- The client functions' rows, and P2 step 5's `get` after an aliasing store: one command frame; a speed above every maximum goes out unclamped. -/
theorem test_client :
    calls (hostCall (.setMotorRpm 0x020#11 40000#16) coordinator) =
      some [.busSend ⟨0x020#11, [0x30#8, 0x9C#8, 0x40#8]⟩ 10 .ok, .hostReturn (.sent .sent)] ∧
    calls (hostCall (.get 0x010#11 3#8 true) (storeAnalog 0x018#11 3#8 0x0111#16 (hearing 0#11 5200#32))) =
      some [.hostReturn (.reading (.analog 0x0111#16 5200#32))] ∧
    calls (hostCall (.setOutput 0x010#11 2#8 false) coordinator) =
      some [.busSend ⟨0x010#11, [0x02#8, 2#8]⟩ 10 .ok, .hostReturn (.sent .sent)] := by decide

/-! ### The inverter link (section 2.8) -/

/-- The CRC table's rows, with `CRC_REF`. -/
theorem test_crc :
    crc16 Config.refMotorPeer [0#8, 0#8, 0#8, 0#8, 0#8, 0#8, 0#8, 0#8] = 0xCEC1#16 ∧
    crc16 Config.refMotorPeer [0x15#8, 0x14#8, 0#8, 0#8, 0#8, 3#8, 0#8, 0#8] = 0x1426#16 ∧
    crc16 Config.refMotorPeer [0x7F#8, 0x18#8, 0x04#8, 0xB0#8, 0#8, 0#8, 0#8, 0#8] = 0x2B46#16 := by decide

/-- The register trace of the first two bytes of `14 05 DC …`. -/
theorem test_crc_trace :
    crcByte Config.refMotorPeer 0xFFFF#16 0x14#8 = 0xB345#16 ∧
    crcByte Config.refMotorPeer 0xB345#16 0x05#8 = 0x821D#16 := by decide

theorem test_invCw : calls (exec (.invCw 1500#16) motor) =
    some [.serialSend [0x14#8, 0x05#8, 0xDC#8, 0#8, 0#8, 0#8, 0#8, 0#8, 0x2A#8, 0xE8#8]] := by decide

theorem test_invCcw : calls (exec (.invCcw 1200#16) motor) =
    some [.serialSend [0x18#8, 0x04#8, 0xB0#8, 0#8, 0#8, 0#8, 0#8, 0#8, 0xD7#8, 0xC5#8]] := by decide

/-- R304 to R306: the frame of speed 0, where the host is given it; the first three bytes of each. -/
theorem test_queries :
    let s := { motor with cfg := { Config.refMotorPeer with hostInverterQueries := true } }
    (calls (exec (.invUnbalanceQuery 0#16) s)) = some [.serialSend (buildCommandFrame s.cfg 0x27#8 0#16)] ∧
    (calls (exec (.invLoadQuery 0#16) s)) = some [.serialSend (buildCommandFrame s.cfg 0xB0#8 0#16)] ∧
    (calls (exec (.invAccelProfile 0#16) s)) = some [.serialSend (buildCommandFrame s.cfg 0xA0#8 0#16)] ∧
    stop (exec (.invLoadQuery 0#16) motor) = some .inverterQueryNotGiven ∧
    stop (exec (.invLoadQuery 1#16) s) = some .inverterPayloadUnknown := by decide

/-- L1, L6, L7: a whole frame, nine bytes, thirteen bytes. -/
theorem test_rxService :
    (got (phase3 (linked goodReply))).map links = some ⟨1495#16, 0#8, .ack, 0x14#8, 0⟩ ∧
    (got (phase3 (linked (goodReply.take 9)))).map links = some ⟨7#16, 9#8, .none, 0#8, 9⟩ ∧
    (got (phase3 (linked (goodReply ++ [0x15#8, 0x14#8, 0#8])))).map (fun t => (links t, t.rxFifo)) =
      some (⟨1495#16, 0#8, .ack, 0x14#8, 3⟩, [0x15#8, 0x14#8, 0#8]) := by decide

/-- L2, L3, L8 as frames, and L4. -/
theorem test_invReply :
    (got (exec (.invReply 0x15#8 0x14#8 0#16 0#8 3#8 0#8 0#8 0x1426#16) (linked []))).map links =
      some ⟨0#16, 3#8, .nak, 0x14#8, 0⟩ ∧
    (got (exec (.invReply 0x7F#8 0x18#8 1200#16 0#8 0#8 0#8 0#8 0x2B46#16) (linked []))).map links =
      some ⟨1200#16, 0#8, .other, 0x18#8, 0⟩ ∧
    (got (exec (.invReply 0x06#8 0x14#8 0xFFFF#16 0#8 0xFF#8 0#8 0#8 0x79C4#16) (linked []))).map links =
      some ⟨65535#16, 0xFF#8, .ack, 0x14#8, 0⟩ ∧
    (got (exec (.invReply 0x06#8 0x14#8 0x05D7#16 0#8 0#8 0#8 0#8 0xAB81#16) (linked []))).map links =
      some ⟨7#16, 9#8, .none, 0#8, 0⟩ := by decide

/-- L9. -/
theorem test_rxPush_full : rxPush 1#8 (linked (List.replicate 64 0#8)) = linked (List.replicate 64 0#8) := by decide

/-! ### The loop (section 2.9, P1) -/

/-- Q1: phase 1 answers with the register before phase 3 takes the new reply. -/
theorem test_loop_order :
    (got (step (given (.iteration 10#31 (some ⟨0x020#11, [0x33#8]⟩)) { linked goodReply with actualRpm := 1494#16 }))).map
      (fun t => (t.actualRpm, t.now, t.env.trace)) =
      some (1495#16, 10#32, [.busSend ⟨0x020#11, [0x43#8, 0x05#8, 0xD6#8, 0x80#8, 0#8, 9#8]⟩ 10 .ok]) := by decide

/-- D13v, D14v, D16v: filtered, unknown, short. -/
theorem test_dispatch :
    calls (step (given (.iteration 1#31 (some ⟨0x011#11, [0x01#8, 2#8]⟩)) sensor)) = some [] ∧
    calls (step (given (.iteration 1#31 (some ⟨0x010#11, [0x77#8, 1#8]⟩)) sensor)) =
      some [.busSend ⟨0x010#11, [0xFF#8, 0x77#8, 1#8]⟩ 10 .ok] ∧
    calls (step (given (.iteration 1#31 (some ⟨0x010#11, [0x03#8]⟩)) sensor)) =
      some [.busSend ⟨0x010#11, [0xFF#8, 0x03#8, 4#8]⟩ 10 .ok] := by decide

/-- K14 to K16: a command, a short response, an unknown opcode at the coordinator. -/
theorem test_dispatch_coordinator :
    calls (step (given (.iteration 1#31 (some ⟨0x001#11, [0x03#8, 3#8]⟩)) coordinator)) = some [] ∧
    calls (step (given (.iteration 1#31 (some ⟨0x010#11, [0x20#8, 3#8, 2#8]⟩)) coordinator)) = some [] ∧
    calls (step (given (.iteration 1#31 (some ⟨0x010#11, [0x77#8]⟩)) coordinator)) = some [] := by decide

/-- P1 step 4 (a keep-alive that is due), and the reset of the model, whose first step runs what is placed. -/
theorem test_step_placed :
    calls (step (given (.iteration 1000#31 none) (holding 1500#16))) =
      some [.serialSend [0x14#8, 0x05#8, 0xDC#8, 0#8, 0#8, 0#8, 0#8, 0#8, 0x2A#8, 0xE8#8]] ∧
    (got (step (State.reset.withFetchWord 24 0xDC0530))).map speeds = some (1500#16, 1500#16, 1500#16, false) := by
  decide

/-! ### Witnesses: for each statement with hypotheses, a concrete case that meets them, at the boundary of each clause -/

/-- What an outcome that goes on shows. -/
theorem next_of {α : Type} {o : Host.Outcome State Fault Refusal} {f : State → α} {x : α}
    (h : (got o).map f = some x) : ∃ t, o = .next t ∧ f t = x := by
  cases o with
  | next t => exact ⟨t, rfl, by simpa [got] using h⟩
  | fault r => cases h
  | refused r => cases h

/-- What an outcome that stops shows. -/
theorem stop_of {o : Host.Outcome State Fault Refusal} {r : Refusal} (h : stop o = some r) : o = .refused r := by
  cases o with
  | next t => cases h
  | fault r => cases h
  | refused r => simpa [stop] using h

/-- A state with empty tables meets the invariant when its motor state and FIFO do. -/
theorem inv_of_empty {s : State} (hl : s.cfg.Legal) (hm : MotorInv s) (hf : s.rxFifo.length ≤ s.cfg.rxDepth)
    (ha : s.analogTab = []) (hd : s.digitalTab = []) (ho : s.outLatch = []) (hi : s.dstate = .idle) : Inv s :=
  ⟨hl, hm, hf, by constructor <;> simp [ha, hd, ho, Table.Sorted], hi⟩

/-- The motor node slowing from 1500 to 0, with one iteration listed. -/
def slowingFor (advance : BitVec 31) : State := given (.iteration advance none) (slowing 1500#16 0#16 0#32 0#32)

theorem slowingFor_inv (advance : BitVec 31) : Inv (slowingFor advance) :=
  inv_of_empty test_legal_motor
    ⟨show (0#16).toNat ≤ (3000#16).toNat by decide, show (1500#16).toNat ≤ (3000#16).toNat by decide,
      show (0#16).toNat ≤ (3000#16).toNat by decide, fun _ => show (0#16).toNat < (1500#16).toNat by decide,
      fun h => absurd (show true = false from h) (by decide), rfl⟩
    (show 0 ≤ 64 by decide) rfl rfl rfl rfl

/-- A speaking coordinator: one frame for it, listed. -/
def heard (data : List Byte) : State := given (.iteration 5#31 (some ⟨0x010#11, data⟩)) coordinator

theorem witness_BusDecodeInvertsEncode : (Instr.allAnalogData ⟨7#8, 0xFFFF#16⟩ none).busOp ≠ none := by decide

theorem witness_FrameLayouts : Config.refMotorPeer.busU16HighFirst = true := by decide

theorem witness_SurplusBytesIgnored :
    ((Instr.allAnalogData ⟨0#8, 1#16⟩ none).busOp ≠ none ∧ [1#8, 2#8].length < 3) ∧
    ((Instr.activate 2#8).busOp ≠ none ∧ ∀ r, Instr.activate 2#8 = .allAnalogData r none → [1#8, 2#8, 3#8].length < 3) :=
  ⟨by decide, by decide, by simp⟩

theorem witness_ActivateDrivesAndAcknowledges :
    sensor.cfg.role = .peer ∧ (3#8).toNat < sensor.cfg.nPorts ∧ ¬ (4#8).toNat < sensor.cfg.nPorts := by decide

theorem witness_DeactivateReleasesAndAcknowledges :
    sensor.cfg.role = .peer ∧ (0#8).toNat < sensor.cfg.nPorts ∧ ¬ (255#8).toNat < sensor.cfg.nPorts := by decide

theorem witness_ReadAnalogSamplesAndReplies :
    sensor.cfg.role = .peer ∧ (7#8).toNat < sensor.cfg.nAnalog ∧ ¬ (8#8).toNat < sensor.cfg.nAnalog := by decide

theorem witness_ReadDigitalSamplesAndReplies :
    sensor.cfg.role = .peer ∧ (7#8).toNat < sensor.cfg.nDigital ∧ ¬ (8#8).toNat < sensor.cfg.nDigital := by decide

theorem witness_ReadAllAnalogSamplesThenSends : sensor.cfg.role = .peer ∧ 0 < sensor.cfg.nAnalog := by decide

theorem witness_ReadAllDigitalRepliesBitfield : sensor.cfg.role = .peer ∧ 0 < sensor.cfg.nDigital := by decide

theorem witness_DigitalPackingBitByBit : (List.replicate 8 true).length ≤ 8 ∧ 7 < 8 := by decide

/-- Both branches: a request equal to the applied speed, and one below it. -/
theorem witness_MotorSetRpmAppliesOrDecelerates :
    (holding 1500#16).cfg.role = .peer ∧ (holding 1500#16).cfg.hasMotor = true ∧
    (holding 1500#16).currentRpm.toNat ≤ min (1500#16).toNat (holding 1500#16).cfg.maxRpm.toNat ∧
    ¬ (holding 1500#16).currentRpm.toNat ≤ min (1499#16).toNat (holding 1500#16).cfg.maxRpm.toNat := by decide

theorem witness_MotorSetDirKeepsSpeed : motor.cfg.role = .peer ∧ motor.cfg.hasMotor = true := by decide

theorem witness_MotorStopIsImmediate :
    (slowingFor 0#31).cfg.role = .peer ∧ (slowingFor 0#31).cfg.hasMotor = true ∧
    (slowingFor 0#31).decelerating = true := by decide

theorem witness_MotorStatusReportsRegisters : motor.cfg.role = .peer ∧ motor.cfg.hasMotor = true := by decide

theorem witness_UnsupportedOpcodesRaiseError :
    (Instr.ackMotorStop 0#8).busOp = some .ackMotorStop ∧ BusOp.ackMotorStop.isCommand = false ∧
    Instr.motorStop.busOp = some .motorStop ∧ BusOp.motorStop.needsMotor = true ∧
    sensor.cfg.role = .peer ∧ sensor.cfg.hasMotor = false := by decide

theorem witness_CommandsAtCoordinatorDiscarded :
    Instr.motorStop.busOp = some .motorStop ∧ BusOp.motorStop.isCommand = true ∧ coordinator.cfg.role = .coordinator := by
  decide

theorem witness_ResponsesBecomeHostEvents : (hearing 0x020#11 9#32).cfg.role = .coordinator := by decide

/-- The last pin of the table, and the first one outside it. -/
theorem witness_AnalogDataStored :
    (hearing 0x7FF#11 9#32).cfg.role = .coordinator ∧ (15#8).toNat < (hearing 0x7FF#11 9#32).cfg.tablePins ∧
    ¬ (16#8).toNat < (hearing 0x7FF#11 9#32).cfg.tablePins := by decide

theorem witness_DigitalDataStored :
    (hearing 0x7FF#11 9#32).cfg.role = .coordinator ∧ (15#8).toNat < (hearing 0x7FF#11 9#32).cfg.tablePins ∧
    ¬ (16#8).toNat < (hearing 0x7FF#11 9#32).cfg.tablePins := by decide

theorem witness_AllAnalogDataStored :
    (hearing 0x010#11 9#32).cfg.role = .coordinator ∧ (15#8).toNat < (hearing 0x010#11 9#32).cfg.tablePins := by decide

theorem witness_AllDigitalDataStored :
    (hearing 0x010#11 9#32).cfg.role = .coordinator ∧ (7#8).toNat < (hearing 0x010#11 9#32).cfg.tablePins := by decide

theorem witness_InverterCommandsSent :
    (holding 1500#16).cfg.hasMotor = true ∧ sensor.cfg.hasMotor = false := by decide

/-- A motor node whose host is given the three commands. -/
def asking : State := { motor with cfg := { Config.refMotorPeer with hostInverterQueries := true } }

theorem witness_InverterQueriesOnlyWhereGiven :
    asking.cfg.hostInverterQueries = true ∧ asking.cfg.hasMotor = true ∧ (1#16) ≠ (0#16) ∧
    motor.cfg.hostInverterQueries = false := by decide

/-- Both branches: the frame of L1, and that of L4. -/
theorem witness_ReplyAcceptedOnCrcAlone :
    motor.cfg.hasMotor = true ∧ crc16 motor.cfg (goodReply.take 8) = 0xAB80#16 ∧
    crc16 motor.cfg (goodReply.take 8) ≠ 0xAB81#16 := by decide

/-- L4, with bytes behind it. -/
theorem witness_CorruptGroupDroppedWhole :
    (linked (goodReply.set 9 0x81#8 ++ [1#8])).cfg.hasMotor = true ∧
    (linked (goodReply.set 9 0x81#8 ++ [1#8])).rxFifo =
      [0x06#8, 0x14#8, 0x05#8, 0xD7#8, 0#8, 0#8, 0#8, 0#8, 0xAB#8, 0x81#8] ++ [1#8] ∧
    crc16 motor.cfg [0x06#8, 0x14#8, 0x05#8, 0xD7#8, 0#8, 0#8, 0#8, 0#8] ≠ u16be 0xAB#8 0x81#8 := by decide

/-- No motor; nine bytes; ten bytes with a valid CRC. -/
theorem witness_SerialServiceTakesTenBytes :
    sensor.cfg.hasMotor = false ∧ (linked (goodReply.take 9)).rxFifo.length < 10 ∧
    (linked goodReply).cfg.hasMotor = true ∧
    (linked goodReply).rxFifo = [0x06#8, 0x14#8, 0x05#8, 0xD7#8, 0#8, 0#8, 0#8, 0#8, 0xAB#8, 0x80#8] ++ [] ∧
    crc16 motor.cfg [0x06#8, 0x14#8, 0x05#8, 0xD7#8, 0#8, 0#8, 0#8, 0#8] = u16be 0xAB#8 0x80#8 := by decide

/-- One place left, and none. -/
theorem witness_ArrivingByteKeptOrLost :
    (given (.rxPush 1#8) (linked (List.replicate 63 0#8))).cfg.hasMotor = true ∧
    (given (.rxPush 1#8) (linked (List.replicate 63 0#8))).env.inputs = [.rxPush 1#8] ∧
    (linked (List.replicate 63 0#8)).rxFifo.length < 64 ∧ ¬ (linked (List.replicate 64 0#8)).rxFifo.length < 64 := by
  decide

theorem witness_ArrivingByteKeptOrLost_legal : (given (.rxPush 1#8) (linked (List.replicate 63 0#8))).cfg.Legal :=
  test_legal_motor

/-- The known-good frame of S6, with `CRC_REF`, which has the property: the first byte, and the last. -/
theorem witness_SingleByteCorruptionRejected :
    Config.node.crcStep = .configured ∧ Config.refMotorPeer.crcStep = .tableHigh Config.crcRefTable ∧
    { Config.refMotorPeer with crcStep := .tableLow Config.crcRefTable }.crcStep = .tableLow Config.crcRefTable ∧
    CrcDetectsByteError Config.refMotorPeer ∧ goodReply.length = 10 ∧ goodReply[0]? ≠ some 0x07#8 ∧
    goodReply[9]? ≠ some 0x81#8 ∧
    frameValid Config.refMotorPeer (goodReply.take 8) (u16be (goodReply.getD 8 0#8) (goodReply.getD 9 0#8)) = true :=
  ⟨rfl, rfl, rfl, crcRef_detects, by decide, by decide, by decide, by decide⟩

theorem witness_SendWithRetryFollowsAnswers :
    (answering [.timeout, .busOff] [] [] sensor).env.sendAnswers = .timeout :: .busOff :: [] := by decide

/-- A step that goes on, and one that stops. -/
theorem witness_SendOutcomesChangeNoState :
    (∃ t, step (slowingFor 600#31) = .next t ∧ t.currentRpm = 1470#16) ∧
    step (given (.hostCall 0#31 .status) sensor) = .refused .hostCallNotExposed :=
  ⟨next_of (by decide), stop_of (by decide)⟩

/-- Another address; the own address, with eight bytes. -/
theorem witness_AddressFilter :
    sensor.cfg.role = .peer ∧ (0x011#11) ≠ sensor.cfg.selfAddress ∧ (0x010#11) = sensor.cfg.selfAddress ∧
    (List.replicate 8 (1#8)) = 1#8 :: List.replicate 7 1#8 ∧ (List.replicate 8 (1#8)).length ≤ 8 := by decide

/-- The four outcomes: no opcode; one the node does not support; one byte short; long enough. -/
theorem witness_PeerChecksInOrder :
    sensor.cfg.role = .peer ∧ (0x010#11) = sensor.cfg.selfAddress ∧ BusOp.ofByte 0x77#8 = none ∧
    BusOp.ofByte 0x30#8 = some .motorSetRpm ∧ supported sensor.cfg .motorSetRpm = false ∧
    BusOp.ofByte 0x01#8 = some .activate ∧ supported sensor.cfg .activate = true ∧
    [0x01#8].length < BusOp.activate.minLen ∧ ¬ [0x01#8, 2#8].length < BusOp.activate.minLen := by decide

/-- A response; a command, a short response and an unknown byte, of which none decodes to a response. -/
theorem witness_CoordinatorRunsResponsesOnly :
    coordinator.cfg.role = .coordinator ∧
    decodeBus coordinator.cfg.busU16HighFirst [0x42#8, 0#8] = .decoded (.ackMotorStop 0#8) ∧
    BusOp.ackMotorStop.isCommand = false ∧
    decodeBus coordinator.cfg.busU16HighFirst [0x32#8] = .decoded .motorStop ∧
    Instr.motorStop.busOp = some .motorStop ∧ BusOp.motorStop.isCommand = true ∧
    decodeBus coordinator.cfg.busU16HighFirst [0x42#8] = .reject (.lengthError .ackMotorStop) := by decide

/-- A frame for the node; a reply group without a frame; nine bytes, and no motor, without a frame; a host call; its query. -/
theorem witness_StepRunsDecodedInstruction :
    (given (.iteration 1#31 (some ⟨0x020#11, [0x33#8]⟩)) motor).env.inputs =
      [.iteration 1#31 (some ⟨0x020#11, 0x33#8 :: []⟩)] ∧
    motor.cfg.selfAddress = 0x020#11 ∧ decodeBus motor.cfg.busU16HighFirst [0x33#8] = .decoded .motorStatus ∧
    (given (.iteration 1#31 none) (linked goodReply)).env.inputs = [.iteration 1#31 none] ∧
    (linked goodReply).cfg.hasMotor = true ∧
    (linked goodReply).rxFifo = [0x06#8, 0x14#8, 0x05#8, 0xD7#8, 0#8, 0#8, 0#8, 0#8, 0xAB#8, 0x80#8] ++ [] ∧
    (given (.iteration 1#31 none) (linked (goodReply.take 9))).env.inputs = [.iteration 1#31 none] ∧
    (linked (goodReply.take 9)).rxFifo.length < 10 ∧ sensor.cfg.hasMotor = false ∧
    (given (.hostCall 1#31 .status) motor).env.inputs = [.hostCall 1#31 .status] ∧
    (given (.hostCall 1#31 (.inverterQuery .load)) asking).env.inputs = [.hostCall 1#31 (.inverterQuery .load)] := by
  decide

theorem witness_StepRunsDecodedInstruction_legal :
    motor.cfg.Legal ∧ (linked goodReply).cfg.Legal ∧ sensor.cfg.Legal := ⟨test_legal_motor, test_legal_motor, test_legal_sensor⟩

theorem witness_ClientFunctionsSendOneFrame : coordinator.cfg.role = .coordinator := by decide

theorem witness_HostMotorCalls :
    (holding 1500#16).cfg.role = .peer ∧ (holding 1500#16).cfg.hasMotor = true := by decide

/-- Not due by one millisecond; due, at the snap's boundary and one above it. -/
theorem witness_RampTickStepsOrSnaps :
    elapsed 599#32 0#32 < 600 ∧ 600 ≤ elapsed 600#32 0#32 ∧
    (slowing 30#16 0#16 0#32 600#32).decelerating = true ∧
    (slowing 30#16 0#16 0#32 600#32).currentRpm.toNat - (0#16).toNat ≤ (30#16).toNat ∧
    ¬ (slowing 31#16 0#16 0#32 600#32).currentRpm.toNat - (0#16).toNat ≤ (30#16).toNat := by decide

/-- One millisecond before each interval, and at it. -/
theorem witness_PeriodicFramesWhenDue :
    elapsed 999#32 motor.lastKeepAlive < motor.cfg.keepAliveInterval ∧
    motor.cfg.keepAliveInterval ≤ elapsed 1000#32 motor.lastKeepAlive ∧ motor.cfg.statusInterval = 0 ∧
    0 < { motor.cfg with statusInterval := 600 }.statusInterval ∧
    elapsed 599#32 motor.lastStatus < 600 ∧ 600 ≤ elapsed 600#32 motor.lastStatus := by decide

/-- A step that is one ramp step, and one a millisecond too early for it. -/
theorem witness_DecelerationStepBound :
    Inv (slowingFor 600#31) ∧ Inv (slowingFor 599#31) ∧ (slowingFor 600#31).decelerating = true ∧
    (∃ t, step (slowingFor 600#31) = .next t ∧ (t.decelerating, t.currentRpm) = (true, 1470#16)) ∧
    (∃ t, step (slowingFor 599#31) = .next t ∧ (t.decelerating, t.currentRpm) = (true, 1500#16)) :=
  ⟨slowingFor_inv _, slowingFor_inv _, rfl, next_of (by decide), next_of (by decide)⟩

/-- One iteration inside a deceleration is a run of its clock's advance. -/
theorem run_of_slowing {advance : BitVec 31} {n : Nat} {rpm : Half}
    (h : (got (step (slowingFor advance))).map (fun t => (t.decelerating, t.currentRpm, elapsed t.now 0#32)) =
      some (true, rpm, n)) : ∃ t, DecelRun n (slowingFor advance) t ∧ t.currentRpm = rpm := by
  obtain ⟨t, ht, hx⟩ := next_of h
  simp only [Prod.mk.injEq] at hx
  have := DecelRun.step 0 _ _ t (.refl (slowingFor advance)) rfl ht hx.1
  rw [Nat.zero_add, show (slowingFor advance).now = 0#32 from rfl, hx.2.2] at this
  exact ⟨t, this, hx.2.1⟩

/-- A run of a whole interval with one step in it (its first and third clauses), and one of 599 ms (its second). -/
theorem witness_DecelerationWindowBound :
    Inv (slowingFor 600#31) ∧ Inv (slowingFor 599#31) ∧ 1 ≤ (slowingFor 600#31).cfg.decelInterval ∧
    (∃ t, DecelRun 600 (slowingFor 600#31) t ∧ t.currentRpm = 1470#16) ∧
    (∃ t, DecelRun 599 (slowingFor 599#31) t ∧ t.currentRpm = 1500#16) ∧
    elapsed (slowingFor 600#31).now (slowingFor 600#31).lastStepTime < (slowingFor 600#31).cfg.decelInterval :=
  ⟨slowingFor_inv _, slowingFor_inv _, by decide, run_of_slowing (by decide), run_of_slowing (by decide), by decide⟩

/-- A5's clock values. -/
theorem witness_DecelerationEndsInCountedSteps :
    MotorInv (slowingFor 0#31) ∧ (slowingFor 0#31).decelerating = true ∧ 1 ≤ (slowingFor 0#31).cfg.decelStep.toNat ∧
    DueChain (slowingFor 0#31).cfg.decelInterval (slowingFor 0#31).lastStepTime [600#32, 1200#32, 1800#32, 2400#32] :=
  ⟨(slowingFor_inv _).motor, rfl, by decide,
    show 600 ≤ elapsed 600#32 0#32 by decide, show 600 ≤ elapsed 1200#32 600#32 by decide,
    show 600 ≤ elapsed 1800#32 1200#32 by decide, show 600 ≤ elapsed 2400#32 1800#32 by decide, trivial⟩

theorem witness_ResetValues :
    sensor.cfg.Legal ∧ (given (.boot 77#32) sensor).env.inputs = .boot 77#32 :: [] := ⟨test_legal_sensor, rfl⟩

theorem witness_ResetMeetsInvariant : Config.refCoordinator.Legal := test_legal_coordinator

theorem witness_StepKeepsInvariant :
    Inv (slowingFor 600#31) ∧ ∃ t, step (slowingFor 600#31) = .next t ∧ t.currentRpm = 1470#16 :=
  ⟨slowingFor_inv _, next_of (by decide)⟩

theorem witness_ConfigurationNeverWritten :
    ¬ { motor with cfg := { Config.refMotorPeer with rxDepth := 9 } }.cfg.Legal ∧
    ∃ t, step (slowingFor 600#31) = .next t ∧ t.cfg.maxRpm = 3000#16 :=
  ⟨test_illegal_rx_depth, next_of (by decide)⟩

/-- A boot; and a step that stores a reading. -/
theorem witness_ValidityLostOnlyByBoot :
    (given (.boot 77#32) coordinator).env.nextInput.1 = .boot 77#32 ∧
    (∃ t, step (given (.boot 77#32) coordinator) = .next t ∧ t.now = 77#32) ∧
    (∀ t0, (heard [0x20#8, 3#8, 0x02#8, 0x9A#8]).env.nextInput.1 ≠ .boot t0) ∧
    (∃ t, step (heard [0x20#8, 3#8, 0x02#8, 0x9A#8]) = .next t ∧ analogRead t 0 3#8 = some ⟨0x029A#16, 5#32⟩) :=
  ⟨rfl, next_of (by decide), nofun, next_of (by decide)⟩

/-- A peer without a motor, a peer without ports, the coordinator. -/
theorem witness_UnusedStateNeverWritten :
    sensor.cfg.hasMotor = false ∧ sensor.cfg.role = .peer ∧ motor.cfg.nPorts = 0 ∧ coordinator.cfg.role = .coordinator ∧
    (∀ t0, (given (.iteration 1#31 none) sensor).env.nextInput.1 ≠ .boot t0) ∧
    (∃ t, step (given (.iteration 1#31 none) sensor) = .next t ∧ t.now = 1#32) :=
  ⟨by decide, by decide, by decide, by decide, nofun, next_of (by decide)⟩

/-- A step with an inverter frame in it. -/
theorem witness_SerialFramesAreCommands :
    ∃ t, step (slowingFor 600#31) = .next t ∧ t.env.trace.length = 1 := next_of (by decide)

/-- A peer's step and a coordinator's iteration, each with what it sends. -/
theorem witness_BusFramesByRole :
    (∃ t, step (given (.iteration 1#31 (some ⟨0x010#11, [0x06#8]⟩)) sensor) = .next t ∧ t.now = 1#32) ∧
    coordinator.cfg.role = .coordinator ∧
    (heard [0x42#8, 0#8]).env.nextInput.1 = .iteration 5#31 (some ⟨0x010#11, [0x42#8, 0#8]⟩) ∧
    (∃ t, step (heard [0x42#8, 0#8]) = .next t ∧ t.env.trace.countP Observation.isBusSend = 0) :=
  ⟨next_of (by decide), by decide, by decide, next_of (by decide)⟩

/-- Without a frame; with a frame whose function emits, a keep-alive and a reply group; with two reply frames, both retried. -/
theorem witness_IterationIsBounded :
    motor.cfg.Legal ∧ (∃ t, iteration 1000#31 none motor = .next t ∧
      t.env.trace.countP Observation.isSerialSend = 1) ∧
    (∃ t, iteration 1000#31 (some ⟨0x020#11, [0x32#8]⟩) (linked goodReply) = .next t ∧
      (t.env.trace.countP Observation.isBusSend, t.env.trace.countP Observation.isSerialSend, t.rxFifo) = (1, 2, [])) ∧
    (∃ t, iteration 1#31 (some ⟨0x010#11, [0x05#8]⟩) retrying = .next t ∧
      t.env.trace.countP Observation.isBusSend = 4) ∧ retrying.cfg.Legal :=
  ⟨test_legal_motor, next_of (by decide), next_of (by decide), next_of (by decide), by decide⟩

/-- 0x010 and 0x018 are congruent modulo 8, 0x011 is not; pin 15 is the last of the table, 16 the first outside it. -/
theorem witness_CongruentAddressesShareReadings :
    coordinator.cfg.role = .coordinator ∧ coordinator.cfg.tablePins ≤ (16#8).toNat ∧
    (15#8).toNat < coordinator.cfg.tablePins ∧
    (0x018#11).toNat % coordinator.cfg.tableSize = (0x010#11).toNat % coordinator.cfg.tableSize ∧
    (0x011#11).toNat % coordinator.cfg.tableSize ≠ (0x010#11).toNat % coordinator.cfg.tableSize := by decide

/-- Two nodes, of which the frame's is not left as it was. -/
theorem witness_AtMostOnePeerActs :
    AddressesUnique [sensor, motor] ∧ [sensor, motor][0]? = some sensor ∧ sensor.cfg.role = .peer ∧
    phase1 (some ⟨0x010#11, [0x01#8, 3#8]⟩) sensor ≠ .next sensor := by
  refine ⟨by decide, rfl, rfl, fun h => ?_⟩
  have : (got (phase1 (some ⟨0x010#11, [0x01#8, 3#8]⟩) sensor)).map (fun t => latchRead t 3) = some none := by
    rw [h]; decide
  exact absurd this (by decide)

/-- The coordinator's half of the exchange; the peer's half is `asked` below. -/
def answered (data : List Byte) : State := given (.iteration 5000#31 (some ⟨0x010#11, data⟩)) coordinator

/-- The peer with the request of `requestAnalog(0x010, 7)` pending. -/
def asked : State :=
  given (.iteration 4990#31 (some ⟨0x010#11, encode Config.refCoordinator (.readAnalog 7#8)⟩))
    (answering [.ok] [0x029A#16] [] sensor)

theorem witness_AnalogRequestEndToEnd :
    asked.cfg.Legal ∧ asked.cfg.role = .peer ∧ (7#8).toNat < asked.cfg.nAnalog ∧ asked.env.sendAnswers = .ok :: [] ∧
    (answered [0x20#8, 7#8, 0x02#8, 0x9A#8]).cfg.Legal ∧
    (answered [0x20#8, 7#8, 0x02#8, 0x9A#8]).cfg.role = .coordinator ∧
    (7#8).toNat < coordinator.cfg.tablePins ∧ coordinator.cfg.busU16HighFirst = asked.cfg.busU16HighFirst ∧
    asked.env.inputs =
      .iteration 4990#31 (some ⟨asked.cfg.selfAddress, encode coordinator.cfg (.readAnalog 7#8)⟩) :: [] ∧
    (answered [0x20#8, 7#8, 0x02#8, 0x9A#8]).env.inputs =
      .iteration 5000#31 (some ⟨asked.cfg.selfAddress, [0x20#8, 7#8, 0x02#8, 0x9A#8]⟩) :: [] :=
  ⟨test_legal_sensor, rfl, by decide, rfl, test_legal_coordinator, rfl, by decide, rfl, rfl, rfl⟩

end Sys2Proof.Tests
end

section
/-! The bus codec read one opcode at a time (R165 to R168), and the checksum as one fold over half-bytes (R296). -/

namespace Sys2Proof.Machine

open Laws

/-! ### Words and opcodes -/

/-- The two bytes of a `u16`, put together again (R11). -/
@[simp] theorem u16be_hi8_lo8 (v : Half) : u16be (hi8 v) (lo8 v) = v := by
  calc u16be (hi8 v) (lo8 v) = v.extractLsb' 0 16 := BitVec.extractLsb'_append_extractLsb'_eq_extractLsb' rfl
    _ = v := BitVec.extractLsb'_eq_self

@[simp] theorem getBus16_true (h l : Byte) : getBus16 true h l = u16be h l := rfl

@[simp] theorem putBus16_true (v : Half) : putBus16 true v = [hi8 v, lo8 v] := rfl

@[simp] theorem ofByte_code (op : BusOp) : BusOp.ofByte op.code = some op := by
  cases op <;> decide

/-! ### Frames of the bus -/

/-- Once the opcode is known and the frame is long enough, decoding is reading the fields. -/
theorem decodeBus_code_cons {highFirst : Bool} {op : BusOp} {rest : List Byte} {i : Instr}
    (hlen : op.minLen ≤ rest.length + 1) (hread : readFields highFirst op rest = some i) :
    decodeBus highFirst (op.code :: rest) = .decoded i := by
  simp [decodeBus, hlen, hread]

/-- A layout in both directions: an instruction written as its opcode and the bytes `rest`, from which its fields are read
back, decodes from them. The length is that of `encode`'s shape. -/
theorem layout_of_readFields {c : Config} {i : Instr} {op : BusOp} {rest : List Byte}
    (hshape : EncodeShape.Statement i) (hop : i.busOp = some op) (henc : encode c i = op.code :: rest)
    (hread : readFields c.busU16HighFirst op rest = some i) :
    encode c i = op.code :: rest ∧ decodeBus c.busU16HighFirst (op.code :: rest) = .decoded i := by
  have hc := hshape c
  rw [hop, henc] at hc
  obtain ⟨-, hlen, -⟩ := hc
  exact ⟨henc, decodeBus_code_cons hlen hread⟩

/-- `ANALOG_DATA` with the high byte of the value first (R115). -/
theorem analogData_layout {c : Config} (hc : c.busU16HighFirst = true) (pin : Byte) (value : Half) :
    encode c (.analogData pin value) = [0x20#8, pin, hi8 value, lo8 value] ∧
      decodeBus true [0x20#8, pin, hi8 value, lo8 value] = .decoded (.analogData pin value) := by
  have h := layout_of_readFields (c := c) (rest := [pin, hi8 value, lo8 value])
    (EncodeShape.analogData pin value) rfl (by simp [encode, BusOp.code, hc]) (by simp [readFields, hc])
  rwa [hc] at h

/-- `ALL_ANALOG_DATA` of one triple, the high byte of the value first (R118). -/
theorem allAnalogData_one_layout {c : Config} (hc : c.busU16HighFirst = true) (a : AnalogReading) :
    encode c (.allAnalogData a none) = [0x22#8, a.pin, hi8 a.value, lo8 a.value] ∧
      decodeBus true [0x22#8, a.pin, hi8 a.value, lo8 a.value] = .decoded (.allAnalogData a none) := by
  have h := layout_of_readFields (c := c) (rest := [a.pin, hi8 a.value, lo8 a.value])
    (EncodeShape.allAnalogData a none) rfl (by simp [encode, encodeReading, BusOp.code, hc])
    (by simp [readFields, hc])
  rwa [hc] at h

/-- `ALL_ANALOG_DATA` of two triples, the high byte of each value first (R118). -/
theorem allAnalogData_two_layout {c : Config} (hc : c.busU16HighFirst = true) (a b : AnalogReading) :
    encode c (.allAnalogData a (some b)) =
        [0x22#8, a.pin, hi8 a.value, lo8 a.value, b.pin, hi8 b.value, lo8 b.value] ∧
      decodeBus true [0x22#8, a.pin, hi8 a.value, lo8 a.value, b.pin, hi8 b.value, lo8 b.value] =
        .decoded (.allAnalogData a (some b)) := by
  have h := layout_of_readFields (c := c)
    (rest := [a.pin, hi8 a.value, lo8 a.value, b.pin, hi8 b.value, lo8 b.value])
    (EncodeShape.allAnalogData a (some b)) rfl (by simp [encode, encodeReading, BusOp.code, hc])
    (by simp [readFields, hc])
  rwa [hc] at h

/-- Settles O5. The fields of the first ten layouts are whole bytes, read back as they are written; those with a `u16` are the
three lemmas above. -/
theorem frameLayouts : Obligations.FrameLayouts := by
  intro c
  exact
    ⟨fun port => layout_of_readFields (EncodeShape.activate port) rfl rfl rfl,
      fun port => layout_of_readFields (EncodeShape.deactivate port) rfl rfl rfl,
      fun pin => layout_of_readFields (EncodeShape.readAnalog pin) rfl rfl rfl,
      fun pin => layout_of_readFields (EncodeShape.readDigital pin) rfl rfl rfl,
      layout_of_readFields EncodeShape.readAllAnalog rfl rfl rfl,
      layout_of_readFields EncodeShape.readAllDigital rfl rfl rfl,
      layout_of_readFields EncodeShape.motorStop rfl rfl rfl,
      layout_of_readFields EncodeShape.motorStatus rfl rfl rfl,
      fun port status => layout_of_readFields (EncodeShape.ackDeactivate port status) rfl rfl rfl,
      fun status => layout_of_readFields (EncodeShape.ackMotorStop status) rfl rfl rfl,
      fun hc => ⟨analogData_layout hc, allAnalogData_one_layout hc, allAnalogData_two_layout hc⟩⟩

/-! ### Frames of the inverter link -/

/-- The half-bytes of a byte as a list, in the order they go through `CRC_STEP`. -/
def crcNibbleList (c : Config) (b : Byte) : List (BitVec 4) := [(crcNibbles c b).1, (crcNibbles c b).2]

theorem crcNibbleList_eq (c : Config) (b : Byte) : crcNibbleList c b =
    if c.crcHighNibbleFirst then [b.extractLsb' 4 4, b.extractLsb' 0 4] else [b.extractLsb' 0 4, b.extractLsb' 4 4] := by
  unfold crcNibbleList crcNibbles
  split <;> rfl

theorem crcByte_eq_foldl (c : Config) (crc : Half) (b : Byte) :
    crcByte c crc b = (crcNibbleList c b).foldl (crcStep c) crc := rfl

/-- Byte by byte or half-byte by half-byte, `crc16` is the same fold (R296). -/
theorem crc16_eq_foldl_nibbles (c : Config) (bytes : List Byte) :
    crc16 c bytes = (bytes.flatMap (crcNibbleList c)).foldl (crcStep c) 0xFFFF#16 ^^^ 0xFFFF#16 := by
  rw [List.foldl_flatMap]
  simp only [← crcByte_eq_foldl]
  rfl

/-- Settles O27. The checksum is `crc16_eq_foldl_nibbles`; the frame and the five command bytes are how `buildCommandFrame` and
`encode` are written. -/
theorem commandFrameLayout : Obligations.CommandFrameLayout := by
  intro c speed
  refine ⟨fun bytes => ?checksum, fun cmd => ⟨_, rfl, rfl⟩, rfl, rfl, rfl, rfl, rfl⟩
  case checksum =>
    simp only [← crcNibbleList_eq]
    exact crc16_eq_foldl_nibbles c bytes

end Sys2Proof.Machine
end

section
/-! The attempts of one `SendWithRetry`, counted on the five call traces it can leave (R154, R156). -/

namespace Sys2Proof.Machine

/-- A second attempt is made after a failed first one, and none after it (R156). -/
theorem SendTrace.countP_isBusSend_le {f : BusFrame} {timeout : Nat} {tr : List Observation} {r : SendResult}
    (h : SendTrace f timeout tr r) : tr.countP Observation.isBusSend ≤ 2 := by
  obtain ⟨rfl, -⟩ | ⟨rfl, -⟩ | ⟨rfl, -⟩ | ⟨r2, -, -, rfl⟩ | ⟨r2, -, -, rfl⟩ := h <;>
    simp [List.countP_cons, Observation.isBusSend]

/-- `BusRecover` is called once after a first `BusOff`, and not otherwise: a second `BusOff` drops the frame (R156). -/
theorem SendTrace.count_busRecover_le {f : BusFrame} {timeout : Nat} {tr : List Observation} {r : SendResult}
    (h : SendTrace f timeout tr r) : tr.count .busRecover ≤ 1 := by
  obtain ⟨rfl, -⟩ | ⟨rfl, -⟩ | ⟨rfl, -⟩ | ⟨r2, -, -, rfl⟩ | ⟨r2, -, -, rfl⟩ := h <;>
    simp

/-- Settles O36. Listed or free, the answers leave one of the traces of `SendTrace`, on which the calls are counted. -/
theorem atMostTwoTransmitAttempts : Obligations.AtMostTwoTransmitAttempts := by
  intro f timeout e
  obtain ⟨tr, htr, htrace, -⟩ := e.sendWithRetry_spec f timeout
  exact ⟨tr, htrace, htr.countP_isBusSend_le, htr.count_busRecover_le⟩

end Sys2Proof.Machine
end

section
/-! The digital bitfield of R170, from either end: `packFrom` read bit by bit, and the eight levels of `unpackDigital`. -/

namespace Sys2Proof.Machine

/-- Packing one more level at position `j` sets bit `j` to that level and leaves the other bits to the levels after it. -/
theorem getLsbD_packFrom_cons (l : Bool) (ls : List Bool) (j k : Nat) :
    (packFrom j (l :: ls)).getLsbD k = ((decide (j < 8) && decide (j = k) && l) || (packFrom (j + 1) ls).getLsbD k) := by
  have hbit : (1#8 <<< j).getLsbD k = (decide (j < 8) && decide (j = k)) := BitVec.getLsbD_twoPow j k
  rw [packFrom, BitVec.getLsbD_or]
  cases l with
  | false => simp
  | true => rw [if_pos rfl, hbit, Bool.and_true]

/-- Packing from position `j` up leaves the bits below `j` clear. -/
theorem getLsbD_packFrom_of_lt (levels : List Bool) {j k : Nat} (hk : k < j) :
    (packFrom j levels).getLsbD k = false := by
  induction levels generalizing j with
  | nil => simp [packFrom]
  | cons l ls ih =>
    have hother : j ≠ k := hk.ne'
    rw [getLsbD_packFrom_cons, ih (Nat.lt_succ_of_lt hk)]
    simp [hother]

/-- Packing from position `j` up puts level `i` in bit `j + i`. -/
theorem getLsbD_packFrom_add (levels : List Bool) {j i : Nat} (hi : j + i < 8) :
    (packFrom j levels).getLsbD (j + i) = levels.getD i false := by
  induction levels generalizing j i with
  | nil => simp [packFrom]
  | cons l ls ih =>
    rw [getLsbD_packFrom_cons]
    cases i with
    | zero =>
      have hj : j < 8 := hi
      rw [Nat.add_zero, getLsbD_packFrom_of_lt ls j.lt_succ_self]
      simp [hj]
    | succ i =>
      have hshift : j + (i + 1) = j + 1 + i := by omega
      rw [hshift] at hi ⊢
      have hother : j ≠ j + 1 + i := by omega
      rw [ih hi]
      simp [hother]

/-- `unpackDigital` does not know how many pins the sender has (R170). -/
@[simp] theorem length_unpackDigital (bits : Byte) : (unpackDigital bits).length = 8 := by
  simp [unpackDigital]

/-- Unpacked level `i` is bit `i`. -/
theorem getElem?_unpackDigital (bits : Byte) {i : Nat} (hi : i < 8) :
    (unpackDigital bits)[i]? = some (bits.getLsbD i) := by
  simp [unpackDigital, hi]

/-- Settles O14. Packing starts at position 0, so bit `i` is level `i` by `getLsbD_packFrom_add`; only the bit's index has to be
below 8, not the number of levels. -/
theorem digitalPackingBitByBit : Obligations.DigitalPackingBitByBit := by
  refine ⟨fun levels i _ hi => ?pack, fun bits => ⟨length_unpackDigital bits, fun _ hi => getElem?_unpackDigital bits hi⟩⟩
  case pack =>
    have hbit : (packFrom 0 levels).getLsbD (0 + i) = levels.getD i false :=
      getLsbD_packFrom_add levels (by omega)
    rwa [Nat.zero_add] at hbit

end Sys2Proof.Machine
end

section
/-! The output and sensor opcodes at a peer (R189 to R194): one lemma per shared operation says what it does to a valid index and
to any other; each opcode's meaning is that operation. -/

namespace Sys2Proof.Machine

/-! ### Output ports -/

/-- Switching an output (R189, R190): a valid port is driven before the acknowledgement, which leaves the latch alone; any other
raises `invalid-port`. -/
theorem switchOutput_spec (port : Byte) (level : Level) (ack : Instr) (s : State) :
    if port.toNat < s.cfg.nPorts then
      (∀ p, latchRead (switchOutput port level ack s) p = if p = port.toNat then some level else latchRead s p) ∧
      switchOutput port level ack s =
        { s with outLatch := (switchOutput port level ack s).outLatch, env := (switchOutput port level ack s).env } ∧
      RepliedAfter s (switchOutput port level ack s) [.gpioSet port level] (encode s.cfg ack)
    else ErrorTaken s (switchOutput port level ack s) port s.cfg.errInvalidPort := by
  by_cases hport : port.toNat < s.cfg.nPorts
  · simp only [switchOutput, portValid, hport, decide_true, if_true]
    exact ⟨driveOutput_latchRead port level s, rfl, replyWith_after ack (driveOutput_spec port level s).1 rfl⟩
  · simp only [switchOutput, portValid, hport, decide_false, Bool.false_eq_true, if_false]
    exact raiseProtocolError_spec port _ s

/-- Settles O8. `ACTIVATE` switches the port `On`; its acknowledgement carries the one status byte there is (R114, R127). -/
theorem activateDrivesAndAcknowledges : Obligations.ActivateDrivesAndAcknowledges :=
  fun port s hpeer => ⟨_, onPeer_next hpeer, switchOutput_spec port .on (.ackActivate port ackStatus) s⟩

/-- Settles O9. `DEACTIVATE` is the same operation, switching `Off` (R115, R127). -/
theorem deactivateReleasesAndAcknowledges : Obligations.DeactivateReleasesAndAcknowledges :=
  fun port s hpeer => ⟨_, onPeer_next hpeer, switchOutput_spec port .off (.ackDeactivate port ackStatus) s⟩

/-! ### Single pins -/

/-- Reading an analog pin (R191): a valid one is sampled before the reply, which is made of the transformed sample; any other
raises `invalid-pin` with no sample taken. -/
theorem readAnalogPin_spec (pin : Byte) (s : State) :
    if pin.toNat < s.cfg.nAnalog then
      OnlyEnv s (readAnalogPin pin s) ∧
      RepliedAfter s (readAnalogPin pin s) [.gpioReadAnalog pin (sampleAnalog pin s).1]
        (encode s.cfg (.analogData pin (analogValue s.cfg pin (sampleAnalog pin s).1)))
    else ErrorTaken s (readAnalogPin pin s) pin s.cfg.errInvalidPin := by
  by_cases hpin : pin.toNat < s.cfg.nAnalog
  · simp only [readAnalogPin, analogPinValid, hpin, decide_true, if_true]
    exact ⟨(sampleAnalog_onlyEnv pin s).trans (replyWith_spec _ _).1,
      replyWith_after _ (sampleAnalog_observed pin s) rfl⟩
  · simp only [readAnalogPin, analogPinValid, hpin, decide_false, Bool.false_eq_true, if_false]
    exact raiseProtocolError_spec pin _ s

/-- Settles O10. The sample is the environment's answer, and `ANALOG_DATA` is written by `putBus16` (R116). -/
theorem readAnalogSamplesAndReplies : Obligations.ReadAnalogSamplesAndReplies :=
  ⟨putBus16_true, fun pin s hpeer => ⟨_, onPeer_next hpeer, readAnalogPin_spec pin s⟩⟩

/-- Reading a digital pin (R192), as `readAnalogPin_spec`; the range of digital pins is its own (R42). -/
theorem readDigitalPin_spec (pin : Byte) (s : State) :
    if pin.toNat < s.cfg.nDigital then
      OnlyEnv s (readDigitalPin pin s) ∧
      RepliedAfter s (readDigitalPin pin s) [.gpioReadDigital pin (sampleDigital pin s).1]
        (encode s.cfg (.digitalData pin (sampleDigital pin s).1))
    else ErrorTaken s (readDigitalPin pin s) pin s.cfg.errInvalidPin := by
  by_cases hpin : pin.toNat < s.cfg.nDigital
  · simp only [readDigitalPin, digitalPinValid, hpin, decide_true, if_true]
    exact ⟨(sampleDigital_onlyEnv pin s).trans (replyWith_spec _ _).1,
      replyWith_after _ (sampleDigital_observed pin s) rfl⟩
  · simp only [readDigitalPin, digitalPinValid, hpin, decide_false, Bool.false_eq_true, if_false]
    exact raiseProtocolError_spec pin _ s

/-- Settles O11. The sample is the environment's answer, and `DIGITAL_DATA` writes it by `putBool` (R117, R126). -/
theorem readDigitalSamplesAndReplies : Obligations.ReadDigitalSamplesAndReplies :=
  fun pin s hpeer => ⟨_, onPeer_next hpeer, readDigitalPin_spec pin s⟩

/-! ### All digital pins -/

@[simp] theorem length_pinsBelow (n : Nat) : (pinsBelow n).length = n := by simp [pinsBelow]

/-- A listed answer is the sample, and is used up. -/
theorem sampleDigital_listed {s : State} {level : Bool} {rest : List Bool} (pin : Byte)
    (h : s.env.digitalAnswers = level :: rest) :
    (sampleDigital pin s).1 = level ∧ (sampleDigital pin s).2.env.digitalAnswers = rest := by
  simp [sampleDigital, Env.nextDigital, Env.observe, h]

/-- The samples of several pins are the listed answers, in order, as far as they are listed. -/
theorem sampleDigitalPins_listed (pins : List Byte) (s : State) :
    (sampleDigitalPins pins s).1.take s.env.digitalAnswers.length = s.env.digitalAnswers.take pins.length := by
  induction pins generalizing s with
  | nil => simp [sampleDigitalPins]
  | cons pin pins ih =>
    cases hanswers : s.env.digitalAnswers with
    | nil => simp
    | cons level rest =>
      obtain ⟨hsample, hrest⟩ := sampleDigital_listed pin hanswers
      have hothers := ih (sampleDigital pin s).2
      rw [hrest] at hothers
      simp [sampleDigitalPins, hsample, hothers]

/-- Settles O13. The samples come first, and the one reply carries their bitfield. -/
theorem readAllDigitalRepliesBitfield : Obligations.ReadAllDigitalRepliesBitfield := by
  intro s hpeer
  obtain ⟨honly, hlength, hobserved⟩ := sampleDigitalPins_spec (pinsBelow s.cfg.nDigital) s
  have hcfg : (sampleDigitalPins (pinsBelow s.cfg.nDigital) s).2.cfg = s.cfg := by rw [honly]
  have hlisted := sampleDigitalPins_listed (pinsBelow s.cfg.nDigital) s
  rw [length_pinsBelow] at hlength hlisted
  exact ⟨readAllDigitalPins s, _, onPeer_next hpeer, honly.trans (replyWith_spec _ _).1, hlength, hlisted,
    replyWith_after _ hobserved hcfg⟩

end Sys2Proof.Machine
end

section
/-! The address filter of a peer (R185), and the dispatch of a frame that passes it. -/

namespace Sys2Proof.Machine

/-- A frame of one to eight bytes is run by the switch between `Processing(data[0])` and `Idle` (R33, R339). -/
theorem dispatch_of_cons {f : BusFrame} {op : Byte} {rest : List Byte} (hdata : f.data = op :: rest)
    (hlen : f.data.length ≤ 8) (switch : List Byte → State → Host.Outcome State Fault Refusal) (s : State) :
    dispatch f switch s =
      andThen (switch f.data { s with dstate := .processing op, rxAddr := f.address })
        (fun u => .next { u with dstate := .idle }) := by
  rw [hdata] at hlen
  simp only [dispatch, hdata, if_pos hlen]

/-- Phase 1 of a peer is `PeerDispatch` (R331). -/
theorem phase1_peer {s : State} (hpeer : s.cfg.role = .peer) (f : BusFrame) :
    phase1 (some f) s = peerDispatch f s := by
  simp only [phase1, hpeer]

/-- A peer does nothing in phase 1 with a frame under another address (R185). -/
theorem phase1_other_address {s : State} {f : BusFrame} (hpeer : s.cfg.role = .peer)
    (hother : f.address ≠ s.cfg.selfAddress) : phase1 (some f) s = .next s := by
  rw [phase1_peer hpeer, peerDispatch, if_neg hother]

/-- A frame under a peer's own address goes to its switch (R185). -/
theorem phase1_own_address {s : State} {f : BusFrame} (hpeer : s.cfg.role = .peer)
    (hown : f.address = s.cfg.selfAddress) : phase1 (some f) s = dispatch f peerSwitch s := by
  rw [phase1_peer hpeer, peerDispatch, if_pos hown]

/-- Settles O38. The filter reads only the configuration, which the iteration's reading of the clock leaves alone. -/
theorem addressFilter : Obligations.AddressFilter := by
  intro s f hpeer
  refine ⟨fun hother => ⟨phase1_other_address hpeer hother, fun advance => ?iteration⟩,
    fun op rest hown hdata hlen => ?dispatch⟩
  case iteration =>
    have hphase1 : phase1 (some f) (tick advance s) = phase1 none (tick advance s) :=
      phase1_other_address (s := tick advance s) hpeer hother
    rw [iteration, hphase1, iteration]
  case dispatch =>
    rw [phase1_own_address hpeer hown, dispatch_of_cons hdata hlen]

end Sys2Proof.Machine
end

section
/-! The motor status at a peer (R211): the packed word of R128 read bit by bit, and the reply it stands in. -/

namespace Sys2Proof.Machine

/-- A packed word is the direction bit over the set speed (R128, the spec's decision D9). -/
theorem getLsbD_packStatusWord (dir : Direction) (setRpm : BitVec 15) (i : Nat) :
    (packStatusWord dir setRpm).getLsbD i =
      if i < 15 then setRpm.getLsbD i else (BitVec.ofBool (isClockwise dir)).getLsbD (i - 15) :=
  BitVec.getLsbD_append

/-- Bits 14:0 of a packed word are the set speed. -/
theorem getLsbD_packStatusWord_of_lt (dir : Direction) (setRpm : BitVec 15) {i : Nat} (hi : i < 15) :
    (packStatusWord dir setRpm).getLsbD i = setRpm.getLsbD i := by
  rw [getLsbD_packStatusWord, if_pos hi]

/-- Bit 15 of a packed word says whether the direction is `CW`. -/
theorem getLsbD_packStatusWord_fifteen (dir : Direction) (setRpm : BitVec 15) :
    (packStatusWord dir setRpm).getLsbD 15 = decide (dir = .cw) := by
  rw [getLsbD_packStatusWord]
  cases dir <;> rfl

/-- Settles O19. The one call is the reply, made of the registers of `s` itself; the set speed in it is `currentRpm` below the
direction bit (R209). -/
theorem motorStatusReportsRegisters : Obligations.MotorStatusReportsRegisters := by
  refine ⟨putBus16_true, fun s hpeer hmotor => ?_⟩
  obtain ⟨honly, hreplied⟩ := replyWith_spec (statusInstr s) s
  refine ⟨_, packStatusWord s.direction (s.currentRpm.extractLsb' 0 15), onMotorPeer_next hpeer hmotor, honly,
    fun i hi => ?speed, getLsbD_packStatusWord_fifteen _ _, hreplied⟩
  case speed =>
    rw [getLsbD_packStatusWord_of_lt _ _ hi]
    simp [hi]

end Sys2Proof.Machine
end

section
/-! The sensor table at the coordinator (R224 to R226): what each reading opcode leaves at every slot and pin, from the rule of
one `store`. -/

namespace Sys2Proof.Machine

/-! ### One reading -/

/-- Settles O23. The meaning is one `store` under the frame's address; `storeAnalog_read` is what it leaves. -/
theorem analogDataStored : Obligations.AnalogDataStored :=
  fun pin value s hcoord =>
    ⟨_, onCoordinator_next hcoord, storeAnalog_frame s.rxAddr pin value s, storeAnalog_read s.rxAddr pin value s⟩

/-- Settles O24. As O23, with the digital `store`. -/
theorem digitalDataStored : Obligations.DigitalDataStored :=
  fun pin high s hcoord =>
    ⟨_, onCoordinator_next hcoord, storeDigital_frame s.rxAddr pin high s, storeDigital_read s.rxAddr pin high s⟩

/-! ### Several readings of one frame -/

@[simp] theorem storeAnalog_cfg (address : Addr) (pin : Byte) (value : Half) (s : State) :
    (storeAnalog address pin value s).cfg = s.cfg := by rw [storeAnalog_frame]

@[simp] theorem storeAnalog_now (address : Addr) (pin : Byte) (value : Half) (s : State) :
    (storeAnalog address pin value s).now = s.now := by rw [storeAnalog_frame]

/-- A table pin of the address's slot is written by the `store` that names it and by no other (R250). -/
theorem storeAnalog_read_inside {address : Addr} {s : State} {slot : Nat} {p : Byte}
    (hin : p.toNat < s.cfg.tablePins ∧ slot = slotOf s.cfg address) (pin : Byte) (value : Half) :
    analogRead (storeAnalog address pin value s) slot p =
      if p = pin then some ⟨value, s.now⟩ else analogRead s slot p := by
  obtain ⟨hpin, hslot⟩ := hin
  rw [storeAnalog_read]
  by_cases hp : p = pin
  · rw [if_pos ⟨hp ▸ hpin, hslot, hp⟩, if_pos hp]
  · rw [if_neg fun h => hp h.2.2, if_neg hp]

/-- No `store` writes a pin outside the table or at another slot (R250, R251). -/
theorem storeAnalog_read_outside {address : Addr} {s : State} {slot : Nat} {p : Byte}
    (hout : ¬ (p.toNat < s.cfg.tablePins ∧ slot = slotOf s.cfg address)) (pin : Byte) (value : Half) :
    analogRead (storeAnalog address pin value s) slot p = analogRead s slot p := by
  rw [storeAnalog_read, if_neg]
  rintro ⟨hpin, hslot, rfl⟩
  exact hout ⟨hpin, hslot⟩

/-- The readings of a frame leave every entry outside the table's pins and the address's slot as it was. -/
theorem storeReadings_read_outside {address : Addr} {slot : Nat} {p : Byte} (rs : List AnalogReading) {s : State}
    (hout : ¬ (p.toNat < s.cfg.tablePins ∧ slot = slotOf s.cfg address)) :
    analogRead (storeReadings address rs s) slot p = analogRead s slot p := by
  induction rs generalizing s with
  | nil => rfl
  | cons r rs ih =>
    rw [storeReadings, ih (by rwa [storeAnalog_cfg]), storeAnalog_read_outside hout]

/-- Of two readings stored in order, the later one stands where both name one pin (R226). -/
theorem storeReadings_two_read_inside {address : Addr} {s : State} {slot : Nat} {p : Byte}
    (hin : p.toNat < s.cfg.tablePins ∧ slot = slotOf s.cfg address) (first second : AnalogReading) :
    analogRead (storeReadings address [first, second] s) slot p =
      if p = second.pin then some ⟨second.value, s.now⟩
      else if p = first.pin then some ⟨first.value, s.now⟩ else analogRead s slot p := by
  have hin' : p.toNat < (storeAnalog address first.pin first.value s).cfg.tablePins ∧
      slot = slotOf (storeAnalog address first.pin first.value s).cfg address := by rwa [storeAnalog_cfg]
  rw [storeReadings, storeReadings, storeReadings, storeAnalog_read_inside hin', storeAnalog_read_inside hin,
    storeAnalog_now]

/-- Settles O25. The meaning stores the frame's triples in order; an entry they can reach is decided by the last that names it. -/
theorem allAnalogDataStored : Obligations.AllAnalogDataStored := by
  intro first second s hcoord
  refine ⟨_, onCoordinator_next hcoord, storeReadings_frame s.rxAddr _ s, fun slot p => ?_⟩
  by_cases hin : p.toNat < s.cfg.tablePins ∧ slot = s.rxAddr.toNat % s.cfg.tableSize
  · rw [if_pos hin]
    cases second with
    | none => exact storeAnalog_read_inside hin first.pin first.value
    | some second => exact storeReadings_two_read_inside hin first second
  · rw [if_neg hin]
    exact storeReadings_read_outside _ hin

end Sys2Proof.Machine
end

section
/-! The client functions of the coordinator (R233 to R241): one rule for the frame they all send, and the bytes of each. -/

namespace Sys2Proof.Machine

/-- A client function sends its command by one `SendWithRetry` and then returns the result (R154). -/
theorem clientSend_spec (address : Addr) (command : Instr) (s : State) :
    SentForHost s (clientSend address command s) ⟨address, encode s.cfg command⟩ := by
  obtain ⟨tr, htrace, hsent⟩ := sendFrame_spec ⟨address, encode s.cfg command⟩ s
  exact ⟨rfl, tr, _, htrace, hsent.trans (observe_observed _ _)⟩

/-- On a coordinator a client function goes on, and the frame holds its command's bytes. -/
theorem onCoordinatorHost_clientSend {s : State} (hcoord : s.cfg.role = .coordinator) (address : Addr) {command : Instr}
    {bytes : List Byte} (hbytes : encode s.cfg command = bytes) :
    ∃ t, onCoordinatorHost s (clientSend address command s) = .next t ∧ SentForHost s t ⟨address, bytes⟩ :=
  ⟨_, onCoordinatorHost_next.2 ⟨hcoord, rfl⟩, hbytes ▸ clientSend_spec address command s⟩

/-- `setOutput` sends `ACTIVATE` or `DEACTIVATE` of the port (R237). -/
theorem encode_outputCommand (c : Config) (port : Byte) (on : Bool) :
    encode c (outputCommand port on) = [if on then 0x01#8 else 0x02#8, port] := by
  cases on <;> rfl

/-- Settles O42. Each call is `clientSend` of its command, whose bytes are its layout (R103 to R112); none clamps the speed. -/
theorem clientFunctionsSendOneFrame : Obligations.ClientFunctionsSendOneFrame :=
  ⟨putBus16_true, fun s a hcoord =>
    ⟨fun _ => onCoordinatorHost_clientSend hcoord a rfl,
      fun _ => onCoordinatorHost_clientSend hcoord a rfl,
      onCoordinatorHost_clientSend hcoord a rfl,
      onCoordinatorHost_clientSend hcoord a rfl,
      fun port on => onCoordinatorHost_clientSend hcoord a (encode_outputCommand s.cfg port on),
      fun _ => onCoordinatorHost_clientSend hcoord a rfl,
      fun _ => onCoordinatorHost_clientSend hcoord a rfl,
      onCoordinatorHost_clientSend hcoord a rfl,
      onCoordinatorHost_clientSend hcoord a rfl⟩⟩

end Sys2Proof.Machine
end

section
/-! The sensor table as `get` reads it (R252), and the sharing of readings between congruent addresses (R79, R253). -/

namespace Sys2Proof.Machine

/-! ### What `get` reads -/

/-- A pin at or above `TABLE_PINS` reads `Invalid` in either kind (R251). -/
theorem getReading_outside {s : State} {pin : Byte} (hout : s.cfg.tablePins ≤ pin.toNat) (address : Addr)
    (isAnalog : Bool) : getReading s address pin isAnalog = .invalid := by
  simp [getReading, tablePinValid, hout]

/-- At a table pin `get` reads the analog entry of the address's slot. -/
theorem getReading_analog {s : State} {pin : Byte} (hin : pin.toNat < s.cfg.tablePins) (address : Addr) :
    getReading s address pin true = analogReading (analogRead s (slotOf s.cfg address) pin) := by
  simp [getReading, tablePinValid, hin]

/-- At a table pin `get` reads the digital entry of the address's slot. -/
theorem getReading_digital {s : State} {pin : Byte} (hin : pin.toNat < s.cfg.tablePins) (address : Addr) :
    getReading s address pin false = digitalReading (digitalRead s (slotOf s.cfg address) pin) := by
  simp [getReading, tablePinValid, hin]

/-- `get` looks at the configuration and at the one entry of its kind, slot and pin. -/
theorem getReading_congr {s t : State} {address : Addr} {pin : Byte} {isAnalog : Bool} (hcfg : t.cfg = s.cfg)
    (hanalog : isAnalog = true → analogRead t (slotOf s.cfg address) pin = analogRead s (slotOf s.cfg address) pin)
    (hdigital : isAnalog = false → digitalRead t (slotOf s.cfg address) pin = digitalRead s (slotOf s.cfg address) pin) :
    getReading t address pin isAnalog = getReading s address pin isAnalog := by
  cases isAnalog with
  | true => simp [getReading, hcfg, hanalog rfl]
  | false => simp [getReading, hcfg, hdigital rfl]

/-- On a coordinator `get` goes on, and its one call is the return of the reading (R336). -/
theorem hostCall_get {s : State} (hcoord : s.cfg.role = .coordinator) (address : Addr) (pin : Byte) (isAnalog : Bool) :
    hostCall (.get address pin isAnalog) s =
      .next (observe (.hostReturn (.reading (getReading s address pin isAnalog))) s) :=
  onCoordinatorHost_next.2 ⟨hcoord, rfl⟩

/-! ### `get` after a `store` -/

@[simp] theorem storeDigital_cfg (address : Addr) (pin : Byte) (level : Bool) (s : State) :
    (storeDigital address pin level s).cfg = s.cfg := by rw [storeDigital_frame]

@[simp] theorem digitalRead_storeAnalog (address : Addr) (pin : Byte) (value : Half) (s : State) (slot : Nat) (p : Byte) :
    digitalRead (storeAnalog address pin value s) slot p = digitalRead s slot p := by
  rw [storeAnalog_frame]; rfl

@[simp] theorem analogRead_storeDigital (address : Addr) (pin : Byte) (level : Bool) (s : State) (slot : Nat) (p : Byte) :
    analogRead (storeDigital address pin level s) slot p = analogRead s slot p := by
  rw [storeDigital_frame]; rfl

/-- A stored value is what `get` of its pin returns for every address of the same slot (R253). -/
theorem getReading_storeAnalog_congruent {s : State} {a b : Addr} {pin : Byte} (hin : pin.toNat < s.cfg.tablePins)
    (hslot : slotOf s.cfg b = slotOf s.cfg a) (value : Half) :
    getReading (storeAnalog a pin value s) b pin true = .analog value s.now := by
  rw [getReading_analog (by rwa [storeAnalog_cfg]), storeAnalog_cfg, storeAnalog_read, if_pos ⟨hin, hslot, rfl⟩,
    analogReading]

/-- A stored level is what `get` of its pin returns for every address of the same slot (R253). -/
theorem getReading_storeDigital_congruent {s : State} {a b : Addr} {pin : Byte} (hin : pin.toNat < s.cfg.tablePins)
    (hslot : slotOf s.cfg b = slotOf s.cfg a) (level : Bool) :
    getReading (storeDigital a pin level s) b pin false = .digital level s.now := by
  rw [getReading_digital (by rwa [storeDigital_cfg]), storeDigital_cfg, storeDigital_read, if_pos ⟨hin, hslot, rfl⟩,
    digitalReading]

/-- An analog `store` is not seen by `get` of the other kind, of another pin or at another slot. -/
theorem getReading_storeAnalog_other {s : State} {a b : Addr} {pin q : Byte} {isAnalog : Bool}
    (hother : isAnalog = false ∨ q ≠ pin ∨ slotOf s.cfg b ≠ slotOf s.cfg a) (value : Half) :
    getReading (storeAnalog a pin value s) b q isAnalog = getReading s b q isAnalog := by
  refine getReading_congr (storeAnalog_cfg a pin value s) (fun hkind => ?_)
    (fun _ => digitalRead_storeAnalog a pin value s _ q)
  rw [storeAnalog_read, if_neg]
  rintro ⟨-, hslot, hpin⟩
  simp [hkind, hslot, hpin] at hother

/-- A digital `store` is not seen by `get` of the other kind, of another pin or at another slot. -/
theorem getReading_storeDigital_other {s : State} {a b : Addr} {pin q : Byte} {isAnalog : Bool}
    (hother : isAnalog = true ∨ q ≠ pin ∨ slotOf s.cfg b ≠ slotOf s.cfg a) (level : Bool) :
    getReading (storeDigital a pin level s) b q isAnalog = getReading s b q isAnalog := by
  refine getReading_congr (storeDigital_cfg a pin level s)
    (fun _ => analogRead_storeDigital a pin level s _ q) (fun hkind => ?_)
  rw [storeDigital_read, if_neg]
  rintro ⟨-, hslot, hpin⟩
  simp [hkind, hslot, hpin] at hother

/-- Settles O58. `store` and `get` both reach the table through the address's slot alone, so congruent addresses cannot be told
apart. -/
theorem congruentAddressesShareReadings : Obligations.CongruentAddressesShareReadings :=
  fun _ a pin =>
    ⟨fun hcoord => hostCall_get hcoord a pin,
      fun hout => getReading_outside hout a,
      fun hin => ⟨getReading_analog hin a, getReading_digital hin a⟩,
      fun value _ hin hslot => getReading_storeAnalog_congruent hin hslot value,
      fun level _ hin hslot => getReading_storeDigital_congruent hin hslot level,
      fun value _ _ _ hother => getReading_storeAnalog_other hother value,
      fun level _ _ _ hother => getReading_storeDigital_other hother level⟩

end Sys2Proof.Machine
end

section
/-! The reply frames of the inverter link (R308 to R313): the bytes of a received word, a reply executed on a node with a motor,
and phase 3 on ten received bytes. -/

namespace Sys2Proof.Machine

/-- The high byte of a received `u16` is its first byte (R11). -/
@[simp] theorem hi8_u16be (h l : Byte) : hi8 (u16be h l) = h := BitVec.extractLsb'_append_eq_left

/-- The low byte of a received `u16` is its second byte (R11). -/
@[simp] theorem lo8_u16be (h l : Byte) : lo8 (u16be h l) = l := BitVec.extractLsb'_append_eq_right

/-- A reply on a node with the link is accepted on its CRC alone (R310), else dropped. -/
theorem exec_invReply_of_hasMotor {s : State} (hmotor : s.cfg.hasMotor = true) (cls echo : Byte) (actual : Half)
    (byte4 fault byte6 byte7 : Byte) (crc : Half) :
    exec (.invReply cls echo actual byte4 fault byte6 byte7 crc) s =
      .next (if crc16 s.cfg [cls, echo, hi8 actual, lo8 actual, byte4, fault, byte6, byte7] = crc then
        acceptReply cls echo actual fault s else s) := by
  calc exec (.invReply cls echo actual byte4 fault byte6 byte7 crc) s
      = execInvReply cls echo actual byte4 fault byte6 byte7 crc s := rfl
    _ = _ := by simp only [execInvReply, hmotor, if_true, frameValid, beq_iff_eq]

/-- With ten bytes held, phase 3 removes exactly these ten and executes them as a reply frame (R308). -/
theorem phase3_of_tenBytes {s : State} {b0 b1 b2 b3 b4 b5 b6 b7 h l : Byte} {rest : List Byte}
    (hmotor : s.cfg.hasMotor = true) (hfifo : s.rxFifo = [b0, b1, b2, b3, b4, b5, b6, b7, h, l] ++ rest) :
    phase3 s = exec (.invReply b0 b1 (u16be b2 b3) b4 b5 b6 b7 (u16be h l)) { s with rxFifo := rest } := by
  have hreply : decodeReply s.rxFifo = .decoded (.invReply b0 b1 (u16be b2 b3) b4 b5 b6 b7 (u16be h l)) := by
    rw [hfifo]; rfl
  have hrest : s.rxFifo.drop 10 = rest := by rw [hfifo]; rfl
  simp only [phase3, hmotor, if_true, rxService, hreply, hrest]

/-- Settles O31. The ten bytes leave `rxFifo` before the reply is judged; the CRC is then tested over the received bytes
themselves, and its failure leaves the state as it is. -/
theorem corruptGroupDroppedWhole : Obligations.CorruptGroupDroppedWhole := by
  intro s b0 b1 b2 b3 b4 b5 b6 b7 h l rest hmotor hfifo hcrc
  calc phase3 s
      = exec (.invReply b0 b1 (u16be b2 b3) b4 b5 b6 b7 (u16be h l)) { s with rxFifo := rest } :=
        phase3_of_tenBytes hmotor hfifo
    _ = .next { s with rxFifo := rest } := by
        rw [exec_invReply_of_hasMotor (s := { s with rxFifo := rest }) hmotor, hi8_u16be, lo8_u16be, if_neg hcrc]

end Sys2Proof.Machine
end

section
/-! The validity of table entries (R402): the operations that keep a valid entry valid, up to a whole step, and what a boot
leaves of the table. -/

namespace Sys2Proof.Machine

/-- Every entry of the sensor table that is valid in `s` is valid in `t`, whatever it then holds. -/
def KeepsValid (s t : State) : Prop :=
  ∀ slot pin, (analogRead s slot pin ≠ none → analogRead t slot pin ≠ none) ∧
    (digitalRead s slot pin ≠ none → digitalRead t slot pin ≠ none)

theorem KeepsValid.trans {s u t : State} (h : KeepsValid s u) (h' : KeepsValid u t) : KeepsValid s t :=
  fun slot pin => ⟨(h' slot pin).1 ∘ (h slot pin).1, (h' slot pin).2 ∘ (h slot pin).2⟩

/-- Validity is a fact of the two tables alone. -/
theorem SameTables.keepsValid {s t : State} (h : SameTables s t) : KeepsValid s t := by
  obtain ⟨hanalog, hdigital⟩ := h
  intro slot pin
  simp only [analogRead, digitalRead, hanalog, hdigital]
  exact ⟨id, id⟩

theorem KeepsValid.refl (s : State) : KeepsValid s s := SameTables.keepsValid ⟨rfl, rfl⟩

theorem OnlyEnv.sameTables {s t : State} (h : OnlyEnv s t) : SameTables s t := by
  unfold OnlyEnv at h
  rw [h]
  exact ⟨rfl, rfl⟩

/-! ### The coordinator's stores -/

/-- A `store` makes entries valid, and never invalid (R250). -/
theorem storeAnalog_keepsValid (address : Addr) (pin : Byte) (value : Half) (s : State) :
    KeepsValid s (storeAnalog address pin value s) := by
  intro slot p
  rw [storeAnalog_read, digitalRead_storeAnalog]
  refine ⟨fun hvalid => ?_, id⟩
  split
  · exact Option.some_ne_none _
  · exact hvalid

theorem storeDigital_keepsValid (address : Addr) (pin : Byte) (level : Bool) (s : State) :
    KeepsValid s (storeDigital address pin level s) := by
  intro slot p
  rw [storeDigital_read, analogRead_storeDigital]
  refine ⟨id, fun hvalid => ?_⟩
  split
  · exact Option.some_ne_none _
  · exact hvalid

theorem storeReadings_keepsValid (address : Addr) (rs : List AnalogReading) (s : State) :
    KeepsValid s (storeReadings address rs s) := by
  induction rs generalizing s with
  | nil => exact .refl s
  | cons r rs ih => exact (storeAnalog_keepsValid address r.pin r.value s).trans (ih _)

theorem storeLevels_keepsValid (address : Addr) (i : Nat) (ls : List Bool) (s : State) :
    KeepsValid s (storeLevels address i ls s) := by
  induction ls generalizing i s with
  | nil => exact .refl s
  | cons l ls ih => exact (storeDigital_keepsValid address _ l s).trans (ih _ _)

/-! ### The motor's operations -/

theorem MotorCall.sameTables {s t : State} (h : MotorCall s t) : SameTables s t := by
  cases h with
  | setRpm r => unfold Machine.setRpm; split <;> exact ⟨rfl, rfl⟩
  | setDirection d => exact ⟨rfl, rfl⟩
  | stop => exact ⟨rfl, rfl⟩

theorem rampTick_sameTables (s : State) : SameTables s (rampTick s) := by
  unfold rampTick rampStep
  split_ifs <;> exact ⟨rfl, rfl⟩

theorem keepAlive_sameTables (s : State) : SameTables s (keepAlive s) := by
  unfold keepAlive
  split <;> exact ⟨rfl, rfl⟩

theorem statusBeacon_sameTables (s : State) : SameTables s (statusBeacon s) := by
  unfold statusBeacon
  split <;> exact ⟨rfl, rfl⟩

/-! ### One step -/

/-- Of everything a meaning can do, only the stores write the table. -/
theorem Effect.keepsValid {s t : State} (h : Effect s t) : KeepsValid s t := by
  cases h with
  | calls env d hd => exact SameTables.keepsValid ⟨rfl, rfl⟩
  | latch port level env hpeer hport => exact SameTables.keepsValid ⟨rfl, rfl⟩
  | readings rs hcoord => exact storeReadings_keepsValid s.rxAddr rs s
  | levels ls i hcoord => exact storeLevels_keepsValid s.rxAddr i ls s
  | motor u env hpeer hmotor hcall => exact hcall.sameTables.keepsValid
  | link cls echo actual fault hmotor => exact SameTables.keepsValid ⟨rfl, rfl⟩

theorem phase1_keepsValid {received : Option BusFrame} {s t : State} (h : phase1 received s = .next t) :
    KeepsValid s t := by
  obtain rfl | ⟨f, op, u, -, -, heffect, rfl⟩ := phase1_next h
  · exact .refl t
  · exact heffect.keepsValid

theorem phase2_keepsValid (s : State) : KeepsValid s (phase2 s) := by
  unfold phase2
  split
  · have hramp : KeepsValid s (rampTick s) := (rampTick_sameTables s).keepsValid
    have halive := (keepAlive_sameTables (rampTick s)).keepsValid
    have hbeacon := (statusBeacon_sameTables (keepAlive (rampTick s))).keepsValid
    exact (hramp.trans halive).trans hbeacon
  · exact .refl s

theorem phase3_keepsValid {s t : State} (h : phase3 s = .next t) : KeepsValid s t := by
  obtain rfl | ⟨-, -, heffect⟩ := phase3_next h
  · exact .refl t
  · exact heffect.keepsValid

theorem iteration_keepsValid {advance : BitVec 31} {received : Option BusFrame} {s t : State}
    (h : iteration advance received s = .next t) : KeepsValid s t := by
  obtain ⟨u, hphase1, hphase3⟩ := iteration_next.1 h
  have hreceive : KeepsValid s u := phase1_keepsValid (s := tick advance s) hphase1
  exact (hreceive.trans (phase2_keepsValid u)).trans (phase3_keepsValid hphase3)

theorem hostCall_sameTables {call : HostCall} {s t : State} (h : hostCall call s = .next t) : SameTables s t := by
  obtain honly | ⟨-, -, u, env, hcall, rfl⟩ := hostCall_next h
  · exact honly.sameTables
  · exact hcall.sameTables

theorem rxPush_sameTables (b : Byte) (s : State) : SameTables s (rxPush b s) := by
  rw [rxPush_spec]
  exact ⟨rfl, rfl⟩

theorem receiveByte_sameTables {b : Byte} {s t : State} (h : receiveByte b s = .next t) : SameTables s t := by
  unfold receiveByte at h
  split at h
  · cases h
    exact rxPush_sameTables b s
  · cases h

/-- Every input but a boot keeps the valid entries valid (R402). -/
theorem runInput_keepsValid {i : Input} {s t : State} (hnoboot : ∀ t0, i ≠ .boot t0) (h : runInput i s = .next t) :
    KeepsValid s t := by
  cases i with
  | iteration advance received => exact iteration_keepsValid h
  | hostCall advance call => exact (hostCall_sameTables (s := tick advance s) h).keepsValid
  | rxPush b => exact (receiveByte_sameTables h).keepsValid
  | boot t0 => exact absurd rfl (hnoboot t0)

/-! ### A boot -/

theorem analogRead_boot (cfg : Config) (t0 : Time) (env : Env) (slot : Nat) (pin : Byte) :
    analogRead (State.boot cfg t0 env) slot pin = none := rfl

theorem digitalRead_boot (cfg : Config) (t0 : Time) (env : Env) (slot : Nat) (pin : Byte) :
    digitalRead (State.boot cfg t0 env) slot pin = none := rfl

/-- After a boot `get` finds no reading (R37, R252). -/
theorem getReading_boot (cfg : Config) (t0 : Time) (env : Env) (address : Addr) (pin : Byte) (isAnalog : Bool) :
    getReading (State.boot cfg t0 env) address pin isAnalog = .invalid := by
  simp [getReading, analogRead_boot, digitalRead_boot, analogReading, digitalReading]

/-- Settles O53. A boot empties both tables; for any other input only the environment's record differs between `s` and the state
that the input is run on. -/
theorem validityLostOnlyByBoot : Obligations.ValidityLostOnlyByBoot := by
  intro s t hstep
  obtain ⟨-, hrun⟩ := step_next.1 hstep
  refine ⟨fun t0 hboot => ?boot, fun hnoboot => ?other⟩
  case boot =>
    rw [hboot] at hrun
    obtain rfl : State.boot s.cfg t0 s.env.nextInput.2 = t := Host.Outcome.next.inj hrun
    exact ⟨fun slot pin => ⟨analogRead_boot _ _ _ slot pin, digitalRead_boot _ _ _ slot pin⟩, getReading_boot _ _ _⟩
  case other => exact runInput_keepsValid (s := { s with env := s.env.nextInput.2 }) hnoboot hrun

end Sys2Proof.Machine
end

section
/-! Decoding in full (R165 to R169): the fields of an opcode read back from what `encode` writes with any bytes behind it, and
from any frame that is long enough. -/

namespace Sys2Proof.Machine

open Laws

/-! ### Fields written and read back -/

/-- A `u16` field in either byte order (R71): two bytes, from which `getBus16` gives the field back. -/
theorem exists_putBus16 (highFirst : Bool) (v : Half) :
    ∃ a b, putBus16 highFirst v = [a, b] ∧ getBus16 highFirst a b = v := by
  cases highFirst with
  | true => exact ⟨hi8 v, lo8 v, rfl, u16be_hi8_lo8 v⟩
  | false => exact ⟨lo8 v, hi8 v, rfl, u16be_hi8_lo8 v⟩

@[simp] theorem getBool_putBool (b : Bool) : getBool (putBool b) = b := by cases b <;> rfl

@[simp] theorem directionOf_isClockwise (d : Direction) : directionOf (isClockwise d) = d := by cases d <;> rfl

/-- The direction is read back from the packed word (R128). -/
@[simp] theorem statusWordDirection_packStatusWord (dir : Direction) (setRpm : BitVec 15) :
    statusWordDirection (packStatusWord dir setRpm) = dir := by
  rw [statusWordDirection, getLsbD_packStatusWord_fifteen]
  cases dir <;> rfl

/-- The set speed is read back from the packed word (R128). -/
@[simp] theorem statusWordSpeed_packStatusWord (dir : Direction) (setRpm : BitVec 15) :
    statusWordSpeed (packStatusWord dir setRpm) = setRpm := by
  refine BitVec.eq_of_getLsbD_eq fun i hi => ?_
  rw [statusWordSpeed, BitVec.getLsbD_extractLsb', Nat.zero_add, getLsbD_packStatusWord_of_lt dir setRpm hi]
  simp [hi]

/-- The fields that `encode` writes after the opcode are read back, whatever follows them; three bytes behind a one-triple
`ALL_ANALOG_DATA` would be a second triple (R168, R173). Single bytes are read as they stand; booleans, directions and `u16`
fields are decoded. -/
theorem readFields_encode_append (c : Config) {i : Instr} {op : BusOp} (hop : i.busOp = some op) (extra : List Byte)
    (hextra : ∀ r, i = .allAnalogData r none → extra.length < 3) :
    readFields c.busU16HighFirst op ((encode c i).tail ++ extra) = some i := by
  cases i <;> cases hop
  case motorSetRpm value | analogData _ value | ackMotorRpm value _ =>
    obtain ⟨a, b, hput, hget⟩ := exists_putBus16 c.busU16HighFirst value
    simp [encode, readFields, hput, hget]
  case motorSetDir | digitalData | ackMotorDir => simp [encode, readFields]
  case allAnalogData.refl first second =>
    obtain ⟨a, b, hput, hget⟩ := exists_putBus16 c.busU16HighFirst first.value
    cases second with
    | none =>
      have hshort := hextra first rfl
      match extra with
      | [] | [_] | [_, _] => simp [encode, encodeReading, readFields, hput, hget]
      | _ :: _ :: _ :: _ => simp only [List.length_cons] at hshort; omega
    | some second =>
      obtain ⟨a', b', hput', hget'⟩ := exists_putBus16 c.busU16HighFirst second.value
      simp [encode, encodeReading, readFields, hput, hget, hput', hget']
  case motorStatusData actualRpm dir setRpm fault =>
    obtain ⟨a, b, hput, hget⟩ := exists_putBus16 c.busU16HighFirst actualRpm
    obtain ⟨a', b', hput', hget'⟩ := exists_putBus16 c.busU16HighFirst (packStatusWord dir setRpm)
    simp [encode, readFields, hput, hget, hput', hget']
  all_goals rfl

/-- The shape of what `encode` writes, for every instruction. -/
theorem encodeShape (i : Instr) : EncodeShape.Statement i := by
  cases i with
  | activate port => exact EncodeShape.activate port
  | deactivate port => exact EncodeShape.deactivate port
  | readAnalog pin => exact EncodeShape.readAnalog pin
  | readDigital pin => exact EncodeShape.readDigital pin
  | readAllAnalog => exact EncodeShape.readAllAnalog
  | readAllDigital => exact EncodeShape.readAllDigital
  | motorSetRpm rpm => exact EncodeShape.motorSetRpm rpm
  | motorSetDir clockwise => exact EncodeShape.motorSetDir clockwise
  | motorStop => exact EncodeShape.motorStop
  | motorStatus => exact EncodeShape.motorStatus
  | ackActivate port status => exact EncodeShape.ackActivate port status
  | ackDeactivate port status => exact EncodeShape.ackDeactivate port status
  | analogData pin value => exact EncodeShape.analogData pin value
  | digitalData pin high => exact EncodeShape.digitalData pin high
  | allAnalogData first second => exact EncodeShape.allAnalogData first second
  | allDigitalData bits => exact EncodeShape.allDigitalData bits
  | ackMotorRpm rpm status => exact EncodeShape.ackMotorRpm rpm status
  | ackMotorDir dir status => exact EncodeShape.ackMotorDir dir status
  | ackMotorStop status => exact EncodeShape.ackMotorStop status
  | motorStatusData actualRpm dir setRpm fault => exact EncodeShape.motorStatusData actualRpm dir setRpm fault
  | errorResponse subject code => exact EncodeShape.errorResponse subject code
  | invCw speed => exact EncodeShape.invCw speed
  | invCcw speed => exact EncodeShape.invCcw speed
  | invUnbalanceQuery speed => exact EncodeShape.invUnbalanceQuery speed
  | invLoadQuery speed => exact EncodeShape.invLoadQuery speed
  | invAccelProfile speed => exact EncodeShape.invAccelProfile speed
  | invReply cls echo actual byte4 fault byte6 byte7 crc =>
    exact EncodeShape.invReply cls echo actual byte4 fault byte6 byte7 crc

/-- A bus operation is written as its opcode and its fields, in at most seven bytes (R100, R165). -/
theorem encode_bus (c : Config) {i : Instr} {op : BusOp} (hop : i.busOp = some op) :
    encode c i = op.code :: (encode c i).tail ∧ op.minLen ≤ (encode c i).length ∧ (encode c i).length ≤ 7 := by
  have hshape := encodeShape i c
  rw [hop] at hshape
  obtain ⟨hhead, hmin, hmax⟩ := hshape
  exact ⟨(List.cons_head?_tail hhead).symm, hmin, hmax⟩

/-- A frame decodes to the operation at its head, whatever follows that is not read as a second triple. -/
theorem decodeBus_encode_append (c : Config) {i : Instr} {op : BusOp} (hop : i.busOp = some op) (extra : List Byte)
    (hextra : ∀ r, i = .allAnalogData r none → extra.length < 3) :
    decodeBus c.busU16HighFirst (encode c i ++ extra) = .decoded i := by
  obtain ⟨hcons, hmin, -⟩ := encode_bus c hop
  have hread := readFields_encode_append c hop extra hextra
  rw [hcons] at hmin ⊢
  exact decodeBus_code_cons (by simp at hmin ⊢; omega) hread

/-- Decoding what `encode` wrote (R169). -/
theorem decodeBus_encode (c : Config) {i : Instr} {op : BusOp} (hop : i.busOp = some op) :
    decodeBus c.busU16HighFirst (encode c i) = .decoded i := by
  simpa using decodeBus_encode_append c hop [] (fun _ _ => by simp)

/-- Settles O1, as decoding with nothing behind the frame. -/
theorem busDecodeInvertsEncode : Obligations.BusDecodeInvertsEncode := by
  intro c i hbus
  obtain ⟨op, hop⟩ := Option.ne_none_iff_exists'.1 hbus
  exact decodeBus_encode c hop

/-- Settles O6. The layouts read from the front, so only a second triple could be read from the extra bytes. -/
theorem surplusBytesIgnored : Obligations.SurplusBytesIgnored := by
  intro c i extra hbus hextra
  obtain ⟨op, hop⟩ := Option.ne_none_iff_exists'.1 hbus
  exact decodeBus_encode_append c hop extra hextra

/-! ### Frames that are long enough -/

theorem exists_two_of_length {l : List Byte} (h : 2 ≤ l.length) : ∃ a b t, l = a :: b :: t := by
  match l, h with
  | a :: b :: t, _ => exact ⟨a, b, t, rfl⟩

theorem exists_three_of_length {l : List Byte} (h : 3 ≤ l.length) : ∃ a b c t, l = a :: b :: c :: t := by
  match l, h with
  | a :: b :: c :: t, _ => exact ⟨a, b, c, t, rfl⟩

theorem exists_five_of_length {l : List Byte} (h : 5 ≤ l.length) :
    ∃ a b c d e t, l = a :: b :: c :: d :: e :: t := by
  match l, h with
  | a :: b :: c :: d :: e :: t, _ => exact ⟨a, b, c, d, e, t, rfl⟩

/-- From `minlen(op)` bytes on, the fields of `op` are all there (R167). -/
theorem readFields_of_minLen (highFirst : Bool) {op : BusOp} {rest : List Byte} (hlen : op.minLen ≤ rest.length + 1) :
    ∃ i, readFields highFirst op rest = some i ∧ i.busOp = some op := by
  have hfields : op.minLen - 1 ≤ rest.length := by omega
  cases op with
  | activate | deactivate | readAnalog | readDigital | motorSetDir | allDigitalData | ackMotorStop =>
    obtain ⟨_, _, rfl⟩ := List.exists_cons_of_length_pos hfields
    exact ⟨_, rfl, rfl⟩
  | readAllAnalog | readAllDigital | motorStop | motorStatus => exact ⟨_, rfl, rfl⟩
  | motorSetRpm | ackActivate | ackDeactivate | digitalData | ackMotorDir | errorResponse =>
    obtain ⟨_, _, _, rfl⟩ := exists_two_of_length hfields
    exact ⟨_, rfl, rfl⟩
  | analogData | ackMotorRpm =>
    obtain ⟨_, _, _, _, rfl⟩ := exists_three_of_length hfields
    exact ⟨_, rfl, rfl⟩
  | allAnalogData =>
    obtain ⟨_, _, _, t, rfl⟩ := exists_three_of_length hfields
    match t with
    | [] | [_] | [_, _] | _ :: _ :: _ :: _ => exact ⟨_, rfl, rfl⟩
  | motorStatusData =>
    obtain ⟨_, _, _, _, _, _, rfl⟩ := exists_five_of_length hfields
    exact ⟨_, rfl, rfl⟩

/-- Byte 0 is no opcode. -/
theorem decodeBus_unknown (highFirst : Bool) {b : Byte} (h : BusOp.ofByte b = none) (rest : List Byte) :
    decodeBus highFirst (b :: rest) = .reject (.unknownOpcode b) := by
  simp only [decodeBus, h]

/-- Byte 0 is an opcode and the frame is too short for it. -/
theorem decodeBus_short (highFirst : Bool) {b : Byte} {op : BusOp} {rest : List Byte} (h : BusOp.ofByte b = some op)
    (hlen : rest.length + 1 < op.minLen) : decodeBus highFirst (b :: rest) = .reject (.lengthError op) := by
  simp only [decodeBus, h, List.length_cons, if_pos hlen]

/-- Byte 0 is an opcode and the frame is long enough for it. -/
theorem decodeBus_long (highFirst : Bool) {b : Byte} {op : BusOp} {rest : List Byte} (h : BusOp.ofByte b = some op)
    (hlen : op.minLen ≤ rest.length + 1) :
    ∃ i, decodeBus highFirst (b :: rest) = .decoded i ∧ i.busOp = some op := by
  obtain ⟨i, hread, hop⟩ := readFields_of_minLen highFirst hlen
  exact ⟨i, by simp only [decodeBus, h, List.length_cons, if_neg (Nat.not_lt.2 hlen), hread], hop⟩

/-- Settles O3: the three outcomes, by byte 0 and by the length. -/
theorem decodeOutcomeByOpcodeAndLength : Obligations.DecodeOutcomeByOpcodeAndLength := by
  intro highFirst b rest
  cases hbyte : BusOp.ofByte b with
  | none => exact decodeBus_unknown highFirst hbyte rest
  | some op =>
    by_cases hlen : rest.length + 1 < op.minLen
    · simpa only [if_pos hlen] using decodeBus_short highFirst hbyte hlen
    · simpa only [if_neg hlen] using decodeBus_long highFirst hbyte (Nat.not_lt.1 hlen)

/-! ### The opcode map -/

/-- A byte reads as an opcode only when it is that opcode's byte (R102). -/
theorem code_of_ofByte {b : Byte} {op : BusOp} (h : BusOp.ofByte b = some op) : op.code = b := by
  simpa using List.find?_some h

theorem mem_busOp_all (op : BusOp) : op ∈ BusOp.all := by cases op <;> decide

/-- The number of bytes from `start` to `start + n - 1` that read as no opcode. -/
def unassignedFrom (start n : Nat) : Nat :=
  (((List.range' start n).map (BitVec.ofNat 8)).filter fun b => BusOp.ofByte b = none).length

theorem unassignedFrom_add (start m n : Nat) :
    unassignedFrom start (m + n) = unassignedFrom start m + unassignedFrom (start + m) n := by
  simp only [unassignedFrom, ← List.range'_append_1, List.map_append, List.filter_append, List.length_append]

/-- Four blocks of 64 bytes: ten commands and six responses are below 0x40, four more below 0x80, and `ERROR_RESPONSE` is the
last byte (R102, R133). -/
theorem unassigned_count : unassignedFrom 0 256 = 235 := by
  have hquarters : unassignedFrom 0 256 =
      unassignedFrom 0 64 + (unassignedFrom 64 64 + (unassignedFrom 128 64 + unassignedFrom 192 64)) := by
    rw [← unassignedFrom_add 128 64 64, ← unassignedFrom_add 64 64 128, ← unassignedFrom_add 0 64 192]
  have h0 : unassignedFrom 0 64 = 48 := by decide
  have h1 : unassignedFrom 64 64 = 60 := by decide
  have h2 : unassignedFrom 128 64 = 64 := by decide
  have h3 : unassignedFrom 192 64 = 63 := by decide
  rw [hquarters, h0, h1, h2, h3]

/-- Settles O4. The table is how `code`, `minLen` and `isCommand` are written; the map in both directions is `ofByte_code` and
`code_of_ofByte`. -/
theorem opcodeMapOfTheTable : Obligations.OpcodeMapOfTheTable := by
  refine ⟨rfl, fun op => ⟨mem_busOp_all op, ofByte_code op⟩, fun _ _ => code_of_ofByte, ?_⟩
  rw [List.range_eq_range']
  exact unassigned_count

/-- Settles O7, by running the decoder on each word. -/
theorem writtenOutWordsDecode : Obligations.WrittenOutWordsDecode :=
  ⟨rfl, rfl, rfl, rfl, rfl, rfl, rfl, rfl, rfl, rfl⟩

/-! ### The inverter link -/

/-- A command frame passes its own CRC test, and its speed is read back (R129, R300). -/
theorem decodeCommand_buildCommandFrame (c : Config) (cmd : Byte) (speed : Half) :
    decodeCommand c (buildCommandFrame c cmd speed) = commandOf cmd speed := by
  simp [buildCommandFrame, withCrc, decodeCommand, decodeCommandBody]

/-- Settles O2. A command's frame is built around its command byte; a reply's `u16` fields are joined again, its CRC being
carried and not computed. -/
theorem inverterDecodeInvertsEncode : Obligations.InverterDecodeInvertsEncode := by
  refine ⟨fun c speed => ⟨?_, ?_⟩, fun c => ⟨?_, ?_, ?_⟩, fun c cls echo actual byte4 fault byte6 byte7 crc rest => ?_⟩
  · exact decodeCommand_buildCommandFrame c 0x14#8 speed
  · exact decodeCommand_buildCommandFrame c 0x18#8 speed
  · exact decodeCommand_buildCommandFrame c 0x27#8 0#16
  · exact decodeCommand_buildCommandFrame c 0xB0#8 0#16
  · exact decodeCommand_buildCommandFrame c 0xA0#8 0#16
  · simp [encode, decodeReply]

end Sys2Proof.Machine
end

section
/-! The ramp (R272): one tick in its three cases, and a whole deceleration at due clock values, counted by induction (R280). -/

namespace Sys2Proof.Machine

/-! ### One tick -/

/-- Nothing happens outside a deceleration, or before its interval has elapsed. -/
theorem rampTick_not_due {s : State}
    (h : s.decelerating = false ∨ elapsed s.now s.lastStepTime < s.cfg.decelInterval) : rampTick s = s := by
  rw [rampTick, if_neg]
  rcases h with hsettled | hearly
  · simp [hsettled]
  · simp [due, hearly]

theorem rampTick_due {s : State} (hdecel : s.decelerating = true)
    (hdue : s.cfg.decelInterval ≤ elapsed s.now s.lastStepTime) : rampTick s = rampStep s := by
  rw [rampTick, if_pos (by simp [hdecel, due, hdue])]

/-- Within one `DECEL_STEP` the step snaps to the target and ends the deceleration. -/
theorem rampStep_snap {s : State} (h : s.currentRpm.toNat - s.targetRpm.toNat ≤ s.cfg.decelStep.toNat) :
    rampStep s =
      emitInverterCommand { s with lastStepTime := s.now, currentRpm := s.targetRpm, decelerating := false } := by
  rw [rampStep, if_pos (by simpa [withinOneStep] using h)]

/-- Farther away it subtracts `DECEL_STEP` and goes on. -/
theorem rampStep_subtract {s : State} (h : s.cfg.decelStep.toNat < s.currentRpm.toNat - s.targetRpm.toNat) :
    rampStep s =
      emitInverterCommand { s with lastStepTime := s.now, currentRpm := s.currentRpm - s.cfg.decelStep } := by
  rw [rampStep, if_neg (by simp only [withinOneStep, decide_eq_true_eq]; omega)]

/-- A full step does not wrap. -/
theorem toNat_sub_decelStep {s : State} (h : s.cfg.decelStep.toNat < s.currentRpm.toNat - s.targetRpm.toNat) :
    (s.currentRpm - s.cfg.decelStep).toNat = s.currentRpm.toNat - s.cfg.decelStep.toNat :=
  BitVec.toNat_sub_of_le (BitVec.le_def.2 (by omega))

/-- Settles O44, by the three cases of a tick. -/
theorem rampTickStepsOrSnaps : Obligations.RampTickStepsOrSnaps := by
  refine fun s => ⟨rampTick_not_due, fun hdecel hdue _ => ?due⟩
  case due =>
    rw [rampTick_due hdecel hdue]
    by_cases hwithin : s.currentRpm.toNat - s.targetRpm.toNat ≤ s.cfg.decelStep.toNat
    · simp only [if_pos hwithin, rampStep_snap hwithin]
      exact ⟨s.targetRpm, ⟨rfl, rfl⟩, rfl, rfl⟩
    · simp only [if_neg hwithin, rampStep_subtract (Nat.not_le.1 hwithin)]
      have hspeed := toNat_sub_decelStep (Nat.not_le.1 hwithin)
      exact ⟨s.currentRpm - s.cfg.decelStep, ⟨rfl, rfl⟩, hspeed, by omega, rfl⟩

/-! ### A whole deceleration -/

/-- The ramp steps a deceleration still takes: `ceil((current - target) / DECEL_STEP)` (R280). -/
def decelSteps (s : State) : Nat :=
  (s.currentRpm.toNat - s.targetRpm.toNat + s.cfg.decelStep.toNat - 1) / s.cfg.decelStep.toNat

/-- From within one step of the target, but not at it, one step is left. -/
theorem decelSteps_within {s : State} (habove : s.targetRpm.toNat < s.currentRpm.toNat)
    (hwithin : s.currentRpm.toNat - s.targetRpm.toNat ≤ s.cfg.decelStep.toNat) : decelSteps s = 1 :=
  Nat.div_eq_of_lt_le (by omega) (by omega)

/-- A full step leaves one step less. -/
theorem decelSteps_subtract {s u : State} (hstep : 1 ≤ s.cfg.decelStep.toNat) (hcfg : u.cfg = s.cfg)
    (htarget : u.targetRpm = s.targetRpm) (hspeed : u.currentRpm.toNat = s.currentRpm.toNat - s.cfg.decelStep.toNat)
    (hfar : s.cfg.decelStep.toNat < s.currentRpm.toNat - s.targetRpm.toNat) : decelSteps s = decelSteps u + 1 := by
  simp only [decelSteps, hcfg, htarget, hspeed]
  rw [← Nat.add_div_right _ hstep]
  congr 1
  omega

/-- A due tick near the target, with its new reading of the clock. -/
theorem rampTickAt_snap {s : State} {now : Time} (hdecel : s.decelerating = true)
    (hdue : s.cfg.decelInterval ≤ elapsed now s.lastStepTime)
    (h : s.currentRpm.toNat - s.targetRpm.toNat ≤ s.cfg.decelStep.toNat) :
    rampTickAt s now = emitInverterCommand
      { s with now := now, lastStepTime := now, currentRpm := s.targetRpm, decelerating := false } :=
  (rampTick_due (s := { s with now := now }) hdecel hdue).trans (rampStep_snap h)

/-- A due tick farther away. -/
theorem rampTickAt_subtract {s : State} {now : Time} (hdecel : s.decelerating = true)
    (hdue : s.cfg.decelInterval ≤ elapsed now s.lastStepTime)
    (h : s.cfg.decelStep.toNat < s.currentRpm.toNat - s.targetRpm.toNat) :
    rampTickAt s now = emitInverterCommand
      { s with now := now, lastStepTime := now, currentRpm := s.currentRpm - s.cfg.decelStep } :=
  (rampTick_due (s := { s with now := now }) hdecel hdue).trans (rampStep_subtract h)

/-- Ticks after the end of a deceleration change no register. -/
theorem foldl_rampTickAt_settled {s : State} (hsettled : s.decelerating = false) (times : List Time) :
    (times.foldl rampTickAt s).targetRpm = s.targetRpm ∧ (times.foldl rampTickAt s).decelerating = false ∧
      (times.foldl rampTickAt s).currentRpm = s.currentRpm := by
  induction times generalizing s with
  | nil => exact ⟨rfl, hsettled, rfl⟩
  | cons now rest ih =>
    have htick : rampTickAt s now = { s with now := now } := rampTick_not_due (.inl hsettled)
    rw [List.foldl_cons, htick]
    exact ih hsettled

/-- Due ticks of a deceleration, counted: each takes a full step while more than one is left, and the last one snaps. -/
theorem foldl_rampTickAt_due {s : State} {times : List Time} (hdecel : s.decelerating = true)
    (habove : s.targetRpm.toNat < s.currentRpm.toNat) (hstep : 1 ≤ s.cfg.decelStep.toNat)
    (hchain : DueChain s.cfg.decelInterval s.lastStepTime times) :
    (times.foldl rampTickAt s).targetRpm = s.targetRpm ∧
      (times.foldl rampTickAt s).decelerating = decide (times.length < decelSteps s) ∧
      (times.foldl rampTickAt s).currentRpm.toNat =
        if times.length < decelSteps s then s.currentRpm.toNat - times.length * s.cfg.decelStep.toNat
        else s.targetRpm.toNat := by
  induction times generalizing s with
  | nil =>
    have hleft : 0 < decelSteps s := Nat.div_pos (by omega) hstep
    simp [hleft, hdecel]
  | cons now rest ih =>
    obtain ⟨hdue, hrest⟩ := hchain
    rw [List.foldl_cons, List.length_cons]
    by_cases hwithin : s.currentRpm.toNat - s.targetRpm.toNat ≤ s.cfg.decelStep.toNat
    · have htick := rampTickAt_snap hdecel hdue hwithin
      obtain ⟨htarget, hend, hspeed⟩ := foldl_rampTickAt_settled (s := rampTickAt s now) (by rw [htick]; rfl) rest
      rw [htarget, hend, hspeed, decelSteps_within habove hwithin, htick]
      simp
    · have hfar := Nat.not_le.1 hwithin
      have htick := rampTickAt_subtract hdecel hdue hfar
      have hspeed : (rampTickAt s now).currentRpm.toNat = s.currentRpm.toNat - s.cfg.decelStep.toNat := by
        rw [htick]; exact toNat_sub_decelStep hfar
      have hcfg : (rampTickAt s now).cfg = s.cfg := by rw [htick]; rfl
      have htarget : (rampTickAt s now).targetRpm = s.targetRpm := by rw [htick]; rfl
      have hleft := decelSteps_subtract hstep hcfg htarget hspeed hfar
      obtain ⟨htarget', hdecel', hspeed'⟩ := ih (s := rampTickAt s now) (by rw [htick]; exact hdecel)
        (by rw [htarget, hspeed]; omega) (by rwa [hcfg]) (by rw [htick]; exact hrest)
      refine ⟨htarget'.trans htarget, by simp [hdecel', hleft], ?_⟩
      rw [hspeed', hspeed, hcfg, htarget, hleft, Nat.succ_mul, Nat.sub_sub,
        Nat.add_comm s.cfg.decelStep.toNat (rest.length * _)]
      simp only [Nat.add_lt_add_iff_right]

/-- Settles O48. Of the motor invariant only the order of target and current speed is used. -/
theorem decelerationEndsInCountedSteps : Obligations.DecelerationEndsInCountedSteps := by
  intro s times hmotor hdecel hstep hchain
  exact foldl_rampTickAt_due hdecel (hmotor.above_target hdecel) hstep hchain

end Sys2Proof.Machine
end

section
/-! Every step but a boot as a sequence of moves, each of which writes one thing (10_state.md); what every move keeps, every such
step keeps. Then the configuration (R39), the state a node does not use (R20, R371) and the invariant of a node. -/

namespace Sys2Proof.Machine

/-! ### Moves -/

/-- One write to the state of a node, with the role and the capability it needs. -/
inductive Move (s : State) : State → Prop where
  /-- the environment's record and the model's own latches, and the dispatcher state -/
  | record (env : Env) (now : Time) (addr : Addr) (d : DState) :
      Move s { s with env := env, now := now, rxAddr := addr, dstate := d }
  | latch (port : Byte) (level : Level) : s.cfg.role = .peer → port.toNat < s.cfg.nPorts →
      Move s { s with outLatch := Table.insert port.toNat level s.outLatch }
  | analog (address : Addr) (pin : Byte) (value : Half) : s.cfg.role = .coordinator →
      Move s (storeAnalog address pin value s)
  | digital (address : Addr) (pin : Byte) (level : Bool) : s.cfg.role = .coordinator →
      Move s (storeDigital address pin level s)
  | motor (u : State) : s.cfg.hasMotor = true → MotorCall s u → Move s u
  | ramp : s.cfg.hasMotor = true → Move s (rampTick s)
  | timers (alive status : Time) : s.cfg.hasMotor = true →
      Move s { s with lastKeepAlive := alive, lastStatus := status }
  | link (cls echo : Byte) (actual : Half) (fault : Byte) : s.cfg.hasMotor = true →
      Move s (acceptReply cls echo actual fault s)
  | consume : s.cfg.hasMotor = true → Move s { s with rxFifo := s.rxFifo.drop 10 }
  | push (b : Byte) : s.cfg.hasMotor = true → Move s (rxPush b s)

/-- Any number of moves, one after the other. -/
abbrev Moves : State → State → Prop := Relation.ReflTransGen Move

theorem Moves.record (s : State) (env : Env) (now : Time) (addr : Addr) (d : DState) :
    Moves s { s with env := env, now := now, rxAddr := addr, dstate := d } := .single (.record env now addr d)

theorem OnlyEnv.moves {s t : State} (h : OnlyEnv s t) : Moves s t := by
  unfold OnlyEnv at h
  rw [h]
  exact .record s t.env s.now s.rxAddr s.dstate

theorem storeReadings_moves (address : Addr) (rs : List AnalogReading) {s : State}
    (hcoord : s.cfg.role = .coordinator) : Moves s (storeReadings address rs s) := by
  induction rs generalizing s with
  | nil => exact .refl
  | cons r rs ih => exact .head (.analog address r.pin r.value hcoord) (ih (by rwa [storeAnalog_cfg]))

theorem storeLevels_moves (address : Addr) (i : Nat) (ls : List Bool) {s : State}
    (hcoord : s.cfg.role = .coordinator) : Moves s (storeLevels address i ls s) := by
  induction ls generalizing i s with
  | nil => exact .refl
  | cons l ls ih => exact .head (.digital address _ l hcoord) (ih (i + 1) (by rwa [storeDigital_cfg]))

theorem Effect.moves {s t : State} (h : Effect s t) : Moves s t := by
  cases h with
  | calls env d _ => exact .record s env s.now s.rxAddr d
  | latch port level env hpeer hport => exact .tail (.single (.latch port level hpeer hport)) (.record env _ _ _)
  | readings rs hcoord => exact storeReadings_moves s.rxAddr rs hcoord
  | levels ls i hcoord => exact storeLevels_moves s.rxAddr i ls hcoord
  | motor u env _ hmotor hcall => exact .tail (.single (.motor u hmotor hcall)) (.record env _ _ _)
  | link cls echo actual fault hmotor => exact .single (.link cls echo actual fault hmotor)

theorem phase1_moves {received : Option BusFrame} {s t : State} (h : phase1 received s = .next t) : Moves s t := by
  obtain rfl | ⟨f, op, u, -, -, heffect, rfl⟩ := phase1_next h
  · exact .refl
  · exact ((Moves.record s s.env s.now f.address (.processing op)).trans heffect.moves).tail
      (.record u.env u.now u.rxAddr .idle)

@[simp] theorem rampTick_cfg (s : State) : (rampTick s).cfg = s.cfg := by
  unfold rampTick rampStep
  split_ifs <;> rfl

@[simp] theorem keepAlive_cfg (s : State) : (keepAlive s).cfg = s.cfg := by
  unfold keepAlive
  split <;> rfl

theorem keepAlive_moves {s : State} (hmotor : s.cfg.hasMotor = true) : Moves s (keepAlive s) := by
  unfold keepAlive
  split
  · exact .tail (.single (.timers s.now s.lastStatus hmotor)) (.record _ _ _ _)
  · exact .refl

theorem statusBeacon_moves {s : State} (hmotor : s.cfg.hasMotor = true) : Moves s (statusBeacon s) := by
  unfold statusBeacon
  split
  · exact .tail (.single (.timers s.lastKeepAlive s.now hmotor)) (.record _ _ _ _)
  · exact .refl

/-- Phase 2 on a node with a motor (R332). -/
theorem phase2_of_hasMotor {s : State} (hmotor : s.cfg.hasMotor = true) :
    phase2 s = statusBeacon (keepAlive (rampTick s)) := by rw [phase2, if_pos hmotor]

/-- Phase 2 on any other node (R332). -/
theorem phase2_of_no_motor {s : State} (hmotor : s.cfg.hasMotor = false) : phase2 s = s := by
  simp [phase2, hmotor]

theorem phase2_moves (s : State) : Moves s (phase2 s) := by
  by_cases hmotor : s.cfg.hasMotor = true
  · rw [phase2_of_hasMotor hmotor]
    exact .head (.ramp hmotor) ((keepAlive_moves (by rwa [rampTick_cfg])).trans
      (statusBeacon_moves (by rwa [keepAlive_cfg, rampTick_cfg])))
  · rw [phase2_of_no_motor (by simpa using hmotor)]

/-- Phase 3 without a motor, or without ten bytes, does nothing (R308, R333). -/
theorem phase3_waits {s : State} (h : s.cfg.hasMotor = false ∨ s.rxFifo.length < 10) : phase3 s = .next s := by
  unfold phase3
  split
  · next hmotor =>
    have hshort : s.rxFifo.length < 10 := h.resolve_left (by simp [hmotor])
    unfold rxService decodeReply
    split
    · next hdecoded =>
      split at hdecoded
      · next hfifo => rw [hfifo] at hshort; simp only [List.length_cons] at hshort; omega
      · cases hdecoded
    · rfl
  · rfl

theorem exists_ten_of_length {l : List Byte} (h : 10 ≤ l.length) :
    ∃ b0 b1 b2 b3 b4 b5 b6 b7 h l' t, l = [b0, b1, b2, b3, b4, b5, b6, b7, h, l'] ++ t := by
  match l, h with
  | b0 :: b1 :: b2 :: b3 :: b4 :: b5 :: b6 :: b7 :: h :: l' :: t, _ =>
    exact ⟨b0, b1, b2, b3, b4, b5, b6, b7, h, l', t, rfl⟩

/-- Phase 3 always goes on: it waits, drops ten bytes, or takes them as a reply (R308, R313). -/
theorem phase3_cases (s : State) :
    phase3 s = .next s ∨
      (s.cfg.hasMotor = true ∧ 10 ≤ s.rxFifo.length ∧
        (phase3 s = .next { s with rxFifo := s.rxFifo.drop 10 } ∨ ∃ cls echo actual fault,
          phase3 s = .next (acceptReply cls echo actual fault { s with rxFifo := s.rxFifo.drop 10 }))) := by
  by_cases hwaits : s.cfg.hasMotor = false ∨ s.rxFifo.length < 10
  · exact .inl (phase3_waits hwaits)
  · simp only [not_or, Bool.not_eq_false, Nat.not_lt] at hwaits
    obtain ⟨hmotor, hten⟩ := hwaits
    obtain ⟨b0, b1, b2, b3, b4, b5, b6, b7, h, l, rest, hfifo⟩ := exists_ten_of_length hten
    have hrest : s.rxFifo.drop 10 = rest := by rw [hfifo]; rfl
    refine .inr ⟨hmotor, hten, ?_⟩
    rw [phase3_of_tenBytes hmotor hfifo, exec_invReply_of_hasMotor (s := { s with rxFifo := rest }) hmotor, hrest]
    split
    · exact .inr ⟨b0, b1, u16be b2 b3, b5, rfl⟩
    · exact .inl rfl

theorem phase3_moves {s t : State} (h : phase3 s = .next t) : Moves s t := by
  obtain hwaits | ⟨hmotor, -, hdropped | ⟨cls, echo, actual, fault, haccepted⟩⟩ := phase3_cases s
  · cases h.symm.trans hwaits
    exact .refl
  · cases h.symm.trans hdropped
    exact .single (.consume hmotor)
  · cases h.symm.trans haccepted
    exact .tail (.single (.consume hmotor)) (.link cls echo actual fault hmotor)

theorem iteration_moves {advance : BitVec 31} {received : Option BusFrame} {s t : State}
    (h : iteration advance received s = .next t) : Moves s t := by
  obtain ⟨u, hphase1, hphase3⟩ := iteration_next.1 h
  have hclock : Moves s (tick advance s) := .record s s.env (s.now + advance.setWidth 32) s.rxAddr s.dstate
  exact ((hclock.trans (phase1_moves hphase1)).trans (phase2_moves u)).trans (phase3_moves hphase3)

theorem hostCall_moves {call : HostCall} {s t : State} (h : hostCall call s = .next t) : Moves s t := by
  obtain honly | ⟨-, hmotor, u, env, hcall, rfl⟩ := hostCall_next h
  · exact honly.moves
  · exact .tail (.single (.motor u hmotor hcall)) (.record env _ _ _)

theorem receiveByte_next {b : Byte} {s t : State} (h : receiveByte b s = .next t) :
    s.cfg.hasMotor = true ∧ t = rxPush b s := by
  unfold receiveByte at h
  split at h
  · next hmotor => exact ⟨hmotor, (Host.Outcome.next.inj h).symm⟩
  · cases h

theorem runInput_moves {i : Input} {s t : State} (hnoboot : ∀ t0, i ≠ .boot t0) (h : runInput i s = .next t) :
    Moves s t := by
  cases i with
  | iteration advance received => exact iteration_moves h
  | hostCall advance call =>
    have hclock : Moves s (tick advance s) := .record s s.env (s.now + advance.setWidth 32) s.rxAddr s.dstate
    exact hclock.trans (hostCall_moves h)
  | rxPush b =>
    obtain ⟨hmotor, rfl⟩ := receiveByte_next h
    exact .single (.push b hmotor)
  | boot t0 => exact absurd rfl (hnoboot t0)

/-- Every step but a boot is made of moves. -/
theorem step_moves {s t : State} (h : step s = .next t) (hnoboot : ∀ t0, s.env.nextInput.1 ≠ .boot t0) :
    Moves s t := by
  obtain ⟨-, hrun⟩ := step_next.1 h
  exact (Moves.record s s.env.nextInput.2 s.now s.rxAddr s.dstate).trans (runInput_moves hnoboot hrun)

/-- A step on a boot (R400). -/
theorem step_boot {s t : State} {t0 : Time} (h : step s = .next t) (hboot : s.env.nextInput.1 = .boot t0) :
    t = State.boot s.cfg t0 s.env.nextInput.2 := by
  obtain ⟨-, hrun⟩ := step_next.1 h
  rw [hboot] at hrun
  exact (Host.Outcome.next.inj hrun).symm

/-- A step is a boot or made of moves. -/
theorem step_boot_or_moves {s t : State} (h : step s = .next t) :
    (∃ t0 env, t = State.boot s.cfg t0 env) ∨ Moves s t := by
  by_cases hboot : ∃ t0, s.env.nextInput.1 = .boot t0
  · obtain ⟨t0, hboot⟩ := hboot
    exact .inl ⟨t0, _, step_boot h hboot⟩
  · exact .inr (step_moves h fun t0 h0 => hboot ⟨t0, h0⟩)

/-! ### The configuration -/

theorem MotorCall.cfg {s t : State} (h : MotorCall s t) : t.cfg = s.cfg := by
  cases h with
  | setRpm r => unfold Machine.setRpm; split <;> rfl
  | setDirection d => rfl
  | stop => rfl

theorem Move.cfg {s t : State} (h : Move s t) : t.cfg = s.cfg := by
  cases h with
  | record env now addr d => rfl
  | latch port level hpeer hport => rfl
  | analog address pin value hcoord => exact storeAnalog_cfg address pin value s
  | digital address pin level hcoord => exact storeDigital_cfg address pin level s
  | motor _ hmotor hcall => exact hcall.cfg
  | ramp hmotor => exact rampTick_cfg s
  | timers alive status hmotor => rfl
  | link cls echo actual fault hmotor => rfl
  | consume hmotor => rfl
  | push b hmotor => rw [rxPush_spec]

theorem Moves.cfg {s t : State} (h : Moves s t) : t.cfg = s.cfg := by
  induction h with
  | refl => rfl
  | tail _ hmove ih => exact hmove.cfg.trans ih

theorem step_cfg {s t : State} (h : step s = .next t) : t.cfg = s.cfg := by
  obtain ⟨t0, env, rfl⟩ | hmoves := step_boot_or_moves h
  · rfl
  · exact hmoves.cfg

/-- Settles O52. No move and no boot writes `cfg`; the check of the configuration comes before the step. -/
theorem configurationNeverWritten : Obligations.ConfigurationNeverWritten :=
  fun _ => ⟨fun _ => step_cfg, step_illegal⟩

/-! ### State that a node does not use -/

theorem SameMotor.refl (s : State) : SameMotor s s := ⟨rfl, rfl, rfl, rfl, rfl, rfl, rfl, rfl⟩

theorem SameMotor.trans {s u t : State} (h : SameMotor s u) (h' : SameMotor u t) : SameMotor s t := by
  obtain ⟨a, b, c, d, e, f, g, i⟩ := h
  obtain ⟨a', b', c', d', e', f', g', i'⟩ := h'
  exact ⟨a'.trans a, b'.trans b, c'.trans c, d'.trans d, e'.trans e, f'.trans f, g'.trans g, i'.trans i⟩

theorem SameLink.refl (s : State) : SameLink s s := ⟨rfl, rfl, rfl, rfl, rfl⟩

theorem SameLink.trans {s u t : State} (h : SameLink s u) (h' : SameLink u t) : SameLink s t := by
  obtain ⟨a, b, c, d, e⟩ := h
  obtain ⟨a', b', c', d', e'⟩ := h'
  exact ⟨a'.trans a, b'.trans b, c'.trans c, d'.trans d, e'.trans e⟩

theorem SameTables.trans {s u t : State} (h : SameTables s u) (h' : SameTables u t) : SameTables s t :=
  ⟨h'.1.trans h.1, h'.2.trans h.2⟩

/-- A move of a node without a motor writes no motor state and no link (R20). -/
theorem Move.sameMotor_sameLink {s t : State} (h : Move s t) (hmotor : s.cfg.hasMotor = false) :
    SameMotor s t ∧ SameLink s t := by
  cases h with
  | record env now addr d => exact ⟨.refl s, .refl s⟩
  | latch port level hpeer hport => exact ⟨.refl s, .refl s⟩
  | analog address pin value hcoord => rw [storeAnalog_frame]; exact ⟨.refl s, .refl s⟩
  | digital address pin level hcoord => rw [storeDigital_frame]; exact ⟨.refl s, .refl s⟩
  | motor _ hm _ | ramp hm | timers _ _ hm | link _ _ _ _ hm | consume hm | push _ hm => simp [hm] at hmotor

theorem Moves.sameMotor_sameLink {s t : State} (h : Moves s t) (hmotor : s.cfg.hasMotor = false) :
    SameMotor s t ∧ SameLink s t := by
  induction h with
  | refl => exact ⟨.refl s, .refl s⟩
  | tail hmoves hmove ih =>
    obtain ⟨hm, hl⟩ := hmove.sameMotor_sameLink (by rw [Moves.cfg hmoves, hmotor])
    exact ⟨ih.1.trans hm, ih.2.trans hl⟩

theorem MotorCall.sameLatch {s t : State} (h : MotorCall s t) : SameLatch s t := by
  cases h with
  | setRpm r => unfold Machine.setRpm; split <;> rfl
  | setDirection d => rfl
  | stop => rfl

@[simp] theorem rampTick_outLatch (s : State) : (rampTick s).outLatch = s.outLatch := by
  unfold rampTick rampStep
  split_ifs <;> rfl

/-- A move of a node without ports writes no latch (R32). -/
theorem Move.sameLatch {s t : State} (h : Move s t) (hports : s.cfg.nPorts = 0) : SameLatch s t := by
  cases h with
  | record env now addr d => rfl
  | latch port level hpeer hport => omega
  | analog address pin value hcoord => rw [storeAnalog_frame]; rfl
  | digital address pin level hcoord => rw [storeDigital_frame]; rfl
  | motor _ hmotor hcall => exact hcall.sameLatch
  | ramp hmotor => exact rampTick_outLatch s
  | timers alive status hmotor => rfl
  | link cls echo actual fault hmotor => rfl
  | consume hmotor => rfl
  | push b hmotor => rw [rxPush_spec]; rfl

theorem Moves.sameLatch {s t : State} (h : Moves s t) (hports : s.cfg.nPorts = 0) : SameLatch s t := by
  induction h with
  | refl => rfl
  | tail hmoves hmove ih => exact (hmove.sameLatch (by rw [Moves.cfg hmoves, hports])).trans ih

/-- A move of a peer writes no sensor table (R35). -/
theorem Move.sameTables {s t : State} (h : Move s t) (hpeer : s.cfg.role = .peer) : SameTables s t := by
  cases h with
  | record env now addr d => exact ⟨rfl, rfl⟩
  | latch port level hpeer hport => exact ⟨rfl, rfl⟩
  | analog _ _ _ hcoord | digital _ _ _ hcoord => simp [hpeer] at hcoord
  | motor _ hmotor hcall => exact hcall.sameTables
  | ramp hmotor => exact rampTick_sameTables s
  | timers alive status hmotor => exact ⟨rfl, rfl⟩
  | link cls echo actual fault hmotor => exact ⟨rfl, rfl⟩
  | consume hmotor => exact ⟨rfl, rfl⟩
  | push b hmotor => exact rxPush_sameTables b s

theorem Moves.sameTables {s t : State} (h : Moves s t) (hpeer : s.cfg.role = .peer) : SameTables s t := by
  induction h with
  | refl => exact ⟨rfl, rfl⟩
  | tail hmoves hmove ih => exact ih.trans (hmove.sameTables (by rw [Moves.cfg hmoves, hpeer]))

/-- The coordinator has no ports, no pins and no motor (R371). -/
theorem legal_coordinator {c : Config} (h : c.Legal) (hcoord : c.role = .coordinator) :
    c.nPorts = 0 ∧ c.nAnalog = 0 ∧ c.nDigital = 0 ∧ c.hasMotor = false := by
  obtain ⟨-, -, -, -, -, -, -, -, -, -, -, -, -, -, hrole⟩ := h
  exact hrole hcoord

/-- Settles O54. The first three clauses hold of every move; the fourth is the first two, a coordinator being legal. -/
theorem unusedStateNeverWritten : Obligations.UnusedStateNeverWritten := by
  intro s t hstep hnoboot
  have hmoves := step_moves hstep hnoboot
  refine ⟨hmoves.sameMotor_sameLink, hmoves.sameLatch, hmoves.sameTables, fun hcoord => ?_⟩
  obtain ⟨hports, -, -, hmotor⟩ := legal_coordinator (step_next.1 hstep).1 hcoord
  obtain ⟨hsame, hlink⟩ := hmoves.sameMotor_sameLink hmotor
  exact ⟨hsame, hlink, hmoves.sameLatch hports⟩

end Sys2Proof.Machine
end

section
/-! The invariant of a node (R28, R31 to R33, R35) under every step: each part of it is kept by every move. And reset, which is
where it starts (R47). -/

namespace Sys2Proof.Machine

/-! ### The motor operations -/

@[simp] theorem toNat_clampRpm (c : Config) (r : Half) : (clampRpm c r).toNat = min r.toNat c.maxRpm.toNat := by
  unfold clampRpm
  split <;> omega

/-- A request not below the applied speed is applied at once (R267). -/
theorem setRpm_up {r : Half} {s : State} (h : s.currentRpm.toNat ≤ (clampRpm s.cfg r).toNat) :
    setRpm r s = emitInverterCommand { s with
      commandedRpm := clampRpm s.cfg r, currentRpm := clampRpm s.cfg r, targetRpm := clampRpm s.cfg r,
      decelerating := false } := by
  rw [setRpm, if_pos h, setRpmUp]

/-- A request below it enters or redirects a deceleration (R268). -/
theorem setRpm_down {r : Half} {s : State} (h : ¬ s.currentRpm.toNat ≤ (clampRpm s.cfg r).toNat) :
    setRpm r s = { s with
      commandedRpm := clampRpm s.cfg r, targetRpm := clampRpm s.cfg r, decelerating := true
      lastStepTime := if s.decelerating then s.lastStepTime else s.now } := by
  rw [setRpm, if_neg h, setRpmDown]

/-! ### The motor state -/

/-- The motor invariant speaks of the configuration and the motor registers alone. -/
theorem MotorInv.congr {s t : State} (h : MotorInv s) (hcfg : t.cfg = s.cfg) (hsame : SameMotor s t) :
    MotorInv t := by
  obtain ⟨hcommanded, hcurrent, htarget, -, hdecel, -, -, -⟩ := hsame
  constructor
  · rw [hcommanded, hcfg]; exact h.commanded_le
  · rw [hcurrent, hcfg]; exact h.current_le
  · rw [htarget, hcfg]; exact h.target_le
  · rw [hdecel, htarget, hcurrent]; exact h.above_target
  · rw [hdecel, hcurrent, htarget]; exact h.at_target
  · rw [htarget, hcommanded]; exact h.target_commanded

/-- Outside a deceleration: one speed, not above `MAX_RPM`, in all three registers. -/
theorem MotorInv.of_settled {s : State} (hdecel : s.decelerating = false) (hcurrent : s.currentRpm = s.commandedRpm)
    (htarget : s.targetRpm = s.commandedRpm) (hle : s.commandedRpm.toNat ≤ s.cfg.maxRpm.toNat) : MotorInv s where
  commanded_le := hle
  current_le := hcurrent ▸ hle
  target_le := htarget ▸ hle
  above_target h := by simp [hdecel] at h
  at_target _ := hcurrent.trans htarget.symm
  target_commanded := htarget

/-- Inside a deceleration: the target is the commanded speed, below the current one. -/
theorem MotorInv.of_decelerating {s : State} (hdecel : s.decelerating = true)
    (htarget : s.targetRpm = s.commandedRpm) (habove : s.targetRpm.toNat < s.currentRpm.toNat)
    (hle : s.currentRpm.toNat ≤ s.cfg.maxRpm.toNat) : MotorInv s where
  commanded_le := by rw [← htarget]; omega
  current_le := hle
  target_le := by omega
  above_target _ := habove
  at_target h := by simp [hdecel] at h
  target_commanded := htarget

theorem MotorCall.motorInv {s t : State} (h : MotorCall s t) (hs : MotorInv s) : MotorInv t := by
  cases h with
  | setRpm r =>
    have hclamp : (clampRpm s.cfg r).toNat ≤ s.cfg.maxRpm.toNat := by simp
    by_cases hup : s.currentRpm.toNat ≤ (clampRpm s.cfg r).toNat
    · rw [setRpm_up hup]
      exact .of_settled rfl rfl rfl hclamp
    · rw [setRpm_down hup]
      exact .of_decelerating rfl rfl (Nat.not_le.1 hup) hs.current_le
  | setDirection d =>
    exact ⟨hs.commanded_le, hs.current_le, hs.target_le, hs.above_target, hs.at_target, hs.target_commanded⟩
  | stop => exact .of_settled rfl rfl rfl (Nat.zero_le _)

theorem rampTick_motorInv {s : State} (hs : MotorInv s) : MotorInv (rampTick s) := by
  by_cases hdue : s.decelerating = true ∧ s.cfg.decelInterval ≤ elapsed s.now s.lastStepTime
  · obtain ⟨hdecel, hdue⟩ := hdue
    rw [rampTick_due hdecel hdue]
    by_cases hwithin : s.currentRpm.toNat - s.targetRpm.toNat ≤ s.cfg.decelStep.toNat
    · rw [rampStep_snap hwithin]
      exact .of_settled rfl hs.target_commanded hs.target_commanded hs.commanded_le
    · rw [rampStep_subtract (Nat.not_le.1 hwithin)]
      have hspeed := toNat_sub_decelStep (Nat.not_le.1 hwithin)
      have hle := hs.current_le
      refine .of_decelerating hdecel hs.target_commanded ?_ ?_ <;>
        simp only [emitInverterCommand_targetRpm, emitInverterCommand_currentRpm, emitInverterCommand_cfg, hspeed] <;>
        omega
  · rw [rampTick_not_due (by simpa [imp_iff_not_or] using hdue)]
    exact hs

theorem Move.motorInv {s t : State} (h : Move s t) (hs : MotorInv s) : MotorInv t := by
  cases h with
  | record env now addr d => exact hs.congr rfl (.refl s)
  | latch port level hpeer hport => exact hs.congr rfl (.refl s)
  | analog address pin value hcoord => rw [storeAnalog_frame]; exact hs.congr rfl (.refl s)
  | digital address pin level hcoord => rw [storeDigital_frame]; exact hs.congr rfl (.refl s)
  | motor _ hmotor hcall => exact hcall.motorInv hs
  | ramp hmotor => exact rampTick_motorInv hs
  | timers alive status hmotor =>
    exact ⟨hs.commanded_le, hs.current_le, hs.target_le, hs.above_target, hs.at_target, hs.target_commanded⟩
  | link cls echo actual fault hmotor => exact hs.congr rfl (.refl s)
  | consume hmotor => exact hs.congr rfl (.refl s)
  | push b hmotor => rw [rxPush_spec]; exact hs.congr rfl (.refl s)

/-! ### The receive FIFO -/

theorem MotorCall.rxFifo {s t : State} (h : MotorCall s t) : t.rxFifo = s.rxFifo := by
  cases h with
  | setRpm r => unfold Machine.setRpm; split <;> rfl
  | setDirection d => rfl
  | stop => rfl

@[simp] theorem rampTick_rxFifo (s : State) : (rampTick s).rxFifo = s.rxFifo := by
  unfold rampTick rampStep
  split_ifs <;> rfl

theorem Move.rxFifo_length_le {s t : State} (h : Move s t) (hs : s.rxFifo.length ≤ s.cfg.rxDepth) :
    t.rxFifo.length ≤ s.cfg.rxDepth := by
  cases h with
  | record env now addr d => exact hs
  | latch port level hpeer hport => exact hs
  | analog address pin value hcoord => rw [storeAnalog_frame]; exact hs
  | digital address pin level hcoord => rw [storeDigital_frame]; exact hs
  | motor _ hmotor hcall => rw [hcall.rxFifo]; exact hs
  | ramp hmotor => rw [rampTick_rxFifo]; exact hs
  | timers alive status hmotor => exact hs
  | link cls echo actual fault hmotor => exact hs
  | consume hmotor => exact (List.drop_sublist 10 s.rxFifo).length_le.trans hs
  | push b hmotor => exact rxPush_length hs

/-! ### The tables -/

/-- The table invariant speaks of the configuration and the three tables alone. -/
theorem TablesInv.congr {s t : State} (h : TablesInv s) (hcfg : t.cfg = s.cfg) (htables : SameTables s t)
    (hlatch : SameLatch s t) : TablesInv t := by
  obtain ⟨hanalog, hdigital⟩ := htables
  unfold SameLatch at hlatch
  constructor
  · rw [hanalog]; exact h.analog_sorted
  · rw [hdigital]; exact h.digital_sorted
  · rw [hlatch]; exact h.latch_sorted
  · rw [hanalog, hcfg]; exact h.analog_range
  · rw [hdigital, hcfg]; exact h.digital_range
  · rw [hlatch, hcfg]; exact h.latch_range

/-- The key of a `store` is one of the table's, there being at least one slot (R8, R79). -/
theorem tabKeyInRange_store {c : Config} {pin : Byte} (hsize : 1 ≤ c.tableSize) (hpin : pin.toNat < c.tablePins)
    (address : Addr) : TabKeyInRange c (tabKey (slotOf c address) pin) :=
  ⟨slotOf c address, pin, Nat.mod_lt _ hsize, hpin, rfl⟩

/-- Inserting at a key with a property leaves every key with it. -/
theorem Table.keys_insert {α : Type} {P : Nat → Prop} {k : Nat} {l : List (Nat × α)} (hk : P k)
    (hl : ∀ q ∈ l.map Prod.fst, P q) (v : α) : ∀ q ∈ (Table.insert k v l).map Prod.fst, P q := by
  intro q hq
  obtain rfl | hq := Table.mem_keys_insert.1 hq
  · exact hk
  · exact hl q hq

theorem storeAnalog_tablesInv {s : State} (hsize : 1 ≤ s.cfg.tableSize) (hs : TablesInv s) (address : Addr)
    (pin : Byte) (value : Half) : TablesInv (storeAnalog address pin value s) := by
  unfold storeAnalog
  split
  · next hpin =>
    have hkey := tabKeyInRange_store hsize (by simpa [tablePinValid] using hpin) address
    exact ⟨Table.sorted_insert _ _ hs.analog_sorted, hs.digital_sorted, hs.latch_sorted,
      Table.keys_insert hkey hs.analog_range _, hs.digital_range, hs.latch_range⟩
  · exact hs

theorem storeDigital_tablesInv {s : State} (hsize : 1 ≤ s.cfg.tableSize) (hs : TablesInv s) (address : Addr)
    (pin : Byte) (level : Bool) : TablesInv (storeDigital address pin level s) := by
  unfold storeDigital
  split
  · next hpin =>
    have hkey := tabKeyInRange_store hsize (by simpa [tablePinValid] using hpin) address
    exact ⟨hs.analog_sorted, Table.sorted_insert _ _ hs.digital_sorted, hs.latch_sorted,
      hs.analog_range, Table.keys_insert hkey hs.digital_range _, hs.latch_range⟩
  · exact hs

theorem Move.tablesInv {s t : State} (h : Move s t) (hsize : 1 ≤ s.cfg.tableSize) (hs : TablesInv s) :
    TablesInv t := by
  cases h with
  | record env now addr d => exact hs.congr rfl ⟨rfl, rfl⟩ rfl
  | latch port level hpeer hport =>
    exact ⟨hs.analog_sorted, hs.digital_sorted, Table.sorted_insert _ _ hs.latch_sorted, hs.analog_range,
      hs.digital_range, Table.keys_insert (P := (· < s.cfg.nPorts)) hport hs.latch_range _⟩
  | analog address pin value hcoord => exact storeAnalog_tablesInv hsize hs address pin value
  | digital address pin level hcoord => exact storeDigital_tablesInv hsize hs address pin level
  | motor _ hmotor hcall => exact hs.congr hcall.cfg hcall.sameTables hcall.sameLatch
  | ramp hmotor => exact hs.congr (rampTick_cfg s) (rampTick_sameTables s) (rampTick_outLatch s)
  | timers alive status hmotor => exact hs.congr rfl ⟨rfl, rfl⟩ rfl
  | link cls echo actual fault hmotor => exact hs.congr rfl ⟨rfl, rfl⟩ rfl
  | consume hmotor => exact hs.congr rfl ⟨rfl, rfl⟩ rfl
  | push b hmotor => rw [rxPush_spec]; exact hs.congr rfl ⟨rfl, rfl⟩ rfl

/-! ### The dispatcher -/

theorem MotorCall.dstate {s t : State} (h : MotorCall s t) : t.dstate = s.dstate := by
  cases h with
  | setRpm r => unfold Machine.setRpm; split <;> rfl
  | setDirection d => rfl
  | stop => rfl

/-- Every dispatch goes back to `Idle` (R33, R339). -/
theorem phase1_idle {received : Option BusFrame} {s t : State} (hs : s.dstate = .idle)
    (h : phase1 received s = .next t) : t.dstate = .idle := by
  obtain rfl | ⟨f, op, u, -, -, -, rfl⟩ := phase1_next h
  · exact hs
  · rfl

@[simp] theorem phase2_dstate (s : State) : (phase2 s).dstate = s.dstate := by
  unfold phase2 statusBeacon keepAlive rampTick rampStep
  split_ifs <;> rfl

theorem phase3_dstate {s t : State} (h : phase3 s = .next t) : t.dstate = s.dstate := by
  obtain hwaits | ⟨-, -, hdropped | ⟨_, _, _, _, haccepted⟩⟩ := phase3_cases s
  · cases h.symm.trans hwaits; rfl
  · cases h.symm.trans hdropped; rfl
  · cases h.symm.trans haccepted; rfl

theorem hostCall_dstate {call : HostCall} {s t : State} (h : hostCall call s = .next t) : t.dstate = s.dstate := by
  obtain honly | ⟨-, -, u, env, hcall, rfl⟩ := hostCall_next h
  · unfold OnlyEnv at honly; rw [honly]
  · exact hcall.dstate

theorem runInput_idle {i : Input} {s t : State} (hs : s.dstate = .idle) (h : runInput i s = .next t) :
    t.dstate = .idle := by
  cases i with
  | iteration advance received =>
    obtain ⟨u, hphase1, hphase3⟩ := iteration_next.1 h
    have hidle : u.dstate = .idle := phase1_idle (s := tick advance s) hs hphase1
    rw [phase3_dstate hphase3, phase2_dstate, hidle]
  | hostCall advance call => exact (hostCall_dstate (s := tick advance s) h).trans hs
  | rxPush b =>
    obtain ⟨-, rfl⟩ := receiveByte_next h
    rw [rxPush_spec]; exact hs
  | boot t0 =>
    obtain rfl : State.boot s.cfg t0 s.env = t := Host.Outcome.next.inj h
    rfl

theorem step_idle {s t : State} (hs : s.dstate = .idle) (h : step s = .next t) : t.dstate = .idle :=
  runInput_idle (s := { s with env := s.env.nextInput.2 }) hs (step_next.1 h).2

/-! ### The whole invariant -/

/-- What every move keeps: the invariant of a node but for the dispatcher, which is busy inside phase 1. -/
structure DataInv (s : State) : Prop where
  legal : s.cfg.Legal
  motor : MotorInv s
  fifo : s.rxFifo.length ≤ s.cfg.rxDepth
  tables : TablesInv s

theorem legal_tableSize {c : Config} (h : c.Legal) : 1 ≤ c.tableSize := by
  obtain ⟨-, -, -, -, -, -, -, -, -, hsize, -⟩ := h
  exact hsize

theorem Move.dataInv {s t : State} (h : Move s t) (hs : DataInv s) : DataInv t where
  legal := h.cfg ▸ hs.legal
  motor := h.motorInv hs.motor
  fifo := h.cfg ▸ h.rxFifo_length_le hs.fifo
  tables := h.tablesInv (legal_tableSize hs.legal) hs.tables

theorem Moves.dataInv {s t : State} (h : Moves s t) (hs : DataInv s) : DataInv t := by
  induction h with
  | refl => exact hs
  | tail _ hmove ih => exact hmove.dataInv ih

/-- A node right after its boot meets the invariant (R47). -/
theorem boot_inv {cfg : Config} (hlegal : cfg.Legal) (t0 : Time) (env : Env) : Inv (State.boot cfg t0 env) where
  legal := hlegal
  motor := .of_settled rfl rfl rfl (Nat.zero_le _)
  fifo := Nat.zero_le _
  tables := ⟨Table.sorted_nil, Table.sorted_nil, Table.sorted_nil, nofun, nofun, nofun⟩
  idle := rfl

/-- One step keeps the invariant. -/
theorem step_inv {s t : State} (hs : Inv s) (h : step s = .next t) : Inv t := by
  obtain ⟨t0, env, rfl⟩ | hmoves := step_boot_or_moves h
  · exact boot_inv hs.legal t0 env
  · have hdata := Moves.dataInv hmoves ⟨hs.legal, hs.motor, hs.fifo, hs.tables⟩
    exact ⟨hdata.legal, hdata.motor, hdata.fifo, hdata.tables, step_idle hs.idle h⟩

/-- Settles O51. A boot starts from reset; any other step is made of moves. -/
theorem stepKeepsInvariant : Obligations.StepKeepsInvariant := fun _ _ => step_inv

/-- Settles O50: reset is a boot with nothing listed; `Config.node` is legal by computation. -/
theorem resetMeetsInvariant : Obligations.ResetMeetsInvariant :=
  ⟨fun _ t0 hlegal => boot_inv hlegal t0 Env.empty, boot_inv (by decide) 0#32 Env.empty⟩

/-- Settles O49. Every field is as `State.boot` writes it; a running node's boot takes the configuration and the environment
over, without the input. -/
theorem resetValues : Obligations.ResetValues := by
  intro cfg t0
  refine ⟨?fields, fun s rest hlegal hinputs => ⟨State.boot s.cfg t0 { s.env with inputs := rest }, ?step, rfl, rfl, rfl⟩⟩
  case fields =>
    exact ⟨rfl, rfl, rfl, rfl, rfl, rfl, rfl, rfl, rfl, rfl, rfl, rfl, rfl, rfl, rfl, fun _ => rfl, rfl,
      fun slot pin => ⟨analogRead_boot _ _ _ slot pin, digitalRead_boot _ _ _ slot pin⟩, getReading_boot _ _ _, rfl⟩
  case step => rw [step_listed hlegal hinputs, runInput]

end Sys2Proof.Machine
end

section
/-! One step inside a deceleration (R279), and runs of such steps: the time between two ramp steps, counted on a clock that may
wrap any number of times. -/

namespace Sys2Proof.Machine

/-! ### What leaves the ramp as it is -/

/-- The ramp's speed and step clock, the time and the configuration are the same. -/
def SameRamp (s t : State) : Prop :=
  t.cfg = s.cfg ∧ t.now = s.now ∧ t.currentRpm = s.currentRpm ∧ t.lastStepTime = s.lastStepTime

theorem SameRamp.refl (s : State) : SameRamp s s := ⟨rfl, rfl, rfl, rfl⟩

theorem SameRamp.trans {s u t : State} (h : SameRamp s u) (h' : SameRamp u t) : SameRamp s t := by
  obtain ⟨a, b, c, d⟩ := h
  obtain ⟨a', b', c', d'⟩ := h'
  exact ⟨a'.trans a, b'.trans b, c'.trans c, d'.trans d⟩

/-- A motor operation that finds and leaves a deceleration redirects it at most (R268). -/
theorem MotorCall.sameRamp {s t : State} (h : MotorCall s t) (hs : s.decelerating = true)
    (ht : t.decelerating = true) : SameRamp s t := by
  cases h with
  | setRpm r =>
    by_cases hup : s.currentRpm.toNat ≤ (clampRpm s.cfg r).toNat
    · rw [setRpm_up hup] at ht; cases ht
    · rw [setRpm_down hup]; exact ⟨rfl, rfl, rfl, if_pos hs⟩
  | setDirection d => exact .refl s
  | stop => cases ht

theorem Effect.sameRamp {s t : State} (h : Effect s t) (hs : s.decelerating = true) (ht : t.decelerating = true) :
    SameRamp s t := by
  cases h with
  | calls env d _ => exact .refl s
  | latch port level env _ _ => exact .refl s
  | readings rs _ => rw [storeReadings_frame]; exact .refl s
  | levels ls i _ => rw [storeLevels_frame]; exact .refl s
  | motor u env _ _ hcall => exact hcall.sameRamp hs ht
  | link cls echo actual fault _ => exact .refl s

theorem phase1_sameRamp {received : Option BusFrame} {s t : State} (h : phase1 received s = .next t)
    (hs : s.decelerating = true) (ht : t.decelerating = true) : SameRamp s t := by
  obtain rfl | ⟨f, op, u, -, -, heffect, rfl⟩ := phase1_next h
  · exact .refl t
  · exact heffect.sameRamp hs ht

theorem keepAlive_sameRamp (s : State) : SameRamp s (keepAlive s) ∧ (keepAlive s).decelerating = s.decelerating := by
  unfold keepAlive
  split <;> exact ⟨.refl s, rfl⟩

theorem statusBeacon_sameRamp (s : State) :
    SameRamp s (statusBeacon s) ∧ (statusBeacon s).decelerating = s.decelerating := by
  unfold statusBeacon
  split <;> exact ⟨.refl s, rfl⟩

theorem phase3_sameRamp {s t : State} (h : phase3 s = .next t) :
    SameRamp s t ∧ t.decelerating = s.decelerating := by
  obtain hwaits | ⟨-, -, hdropped | ⟨_, _, _, _, haccepted⟩⟩ := phase3_cases s
  · cases h.symm.trans hwaits; exact ⟨.refl s, rfl⟩
  · cases h.symm.trans hdropped; exact ⟨.refl s, rfl⟩
  · cases h.symm.trans haccepted; exact ⟨.refl s, rfl⟩

/-! ### One step -/

/-- What a step inside a deceleration does: no ramp step, or one full step at the step's time, at least `DECEL_INTERVAL` after
the one before (R279). -/
def DecelStep (s t : State) : Prop :=
  (t.currentRpm = s.currentRpm ∧ t.lastStepTime = s.lastStepTime) ∨
  (t.currentRpm.toNat + s.cfg.decelStep.toNat = s.currentRpm.toNat ∧
    s.cfg.decelInterval ≤ elapsed t.now s.lastStepTime ∧ t.lastStepTime = t.now)

theorem SameRamp.decelStep {s t : State} (h : SameRamp s t) : DecelStep s t := by
  obtain ⟨-, -, hspeed, hclock⟩ := h
  exact .inl ⟨hspeed, hclock⟩

/-- Only the speed, the step clock and the configuration before, and the speed, the step clock and the time after, decide it. -/
theorem DecelStep.congr {s t s' t' : State} (h : DecelStep s t) (hcfg : s'.cfg = s.cfg)
    (hspeed : s'.currentRpm = s.currentRpm) (hclock : s'.lastStepTime = s.lastStepTime) (ht : SameRamp t t') :
    DecelStep s' t' := by
  obtain ⟨-, hnow, hspeed', hclock'⟩ := ht
  unfold DecelStep
  rw [hcfg, hspeed, hclock, hnow, hspeed', hclock']
  exact h

theorem rampTick_decelStep {s : State} (hs : s.decelerating = true) (ht : (rampTick s).decelerating = true) :
    DecelStep s (rampTick s) := by
  by_cases hdue : s.cfg.decelInterval ≤ elapsed s.now s.lastStepTime
  · rw [rampTick_due hs hdue] at ht ⊢
    by_cases hwithin : s.currentRpm.toNat - s.targetRpm.toNat ≤ s.cfg.decelStep.toNat
    · rw [rampStep_snap hwithin] at ht; cases ht
    · rw [rampStep_subtract (Nat.not_le.1 hwithin)]
      have hspeed := toNat_sub_decelStep (Nat.not_le.1 hwithin)
      exact .inr ⟨by simp only [emitInverterCommand_currentRpm, hspeed]; omega, hdue, rfl⟩
  · rw [rampTick_not_due (.inr (Nat.not_le.1 hdue))]
    exact (SameRamp.refl s).decelStep

/-- No tick enters a deceleration. -/
theorem decelerating_of_rampTick {s : State} (h : (rampTick s).decelerating = true) : s.decelerating = true := by
  by_contra hs
  rw [rampTick_not_due (.inl (by simpa using hs))] at h
  exact hs h

theorem phase2_decelStep {s : State} (ht : (phase2 s).decelerating = true) :
    s.decelerating = true ∧ DecelStep s (phase2 s) := by
  by_cases hmotor : s.cfg.hasMotor = true
  · rw [phase2_of_hasMotor hmotor] at ht ⊢
    obtain ⟨halive, hdecel⟩ := keepAlive_sameRamp (rampTick s)
    obtain ⟨hbeacon, hdecel'⟩ := statusBeacon_sameRamp (keepAlive (rampTick s))
    rw [hdecel', hdecel] at ht
    have hs := decelerating_of_rampTick ht
    exact ⟨hs, (rampTick_decelStep hs ht).congr rfl rfl rfl (halive.trans hbeacon)⟩
  · rw [phase2_of_no_motor (by simpa using hmotor)] at ht ⊢
    exact ⟨ht, (SameRamp.refl s).decelStep⟩

theorem iteration_decelStep {advance : BitVec 31} {received : Option BusFrame} {s t : State}
    (h : iteration advance received s = .next t) (hs : s.decelerating = true) (ht : t.decelerating = true) :
    DecelStep s t := by
  obtain ⟨u, hphase1, hphase3⟩ := iteration_next.1 h
  obtain ⟨hlast, hdecel⟩ := phase3_sameRamp hphase3
  obtain ⟨hu, hstep⟩ := phase2_decelStep (hdecel ▸ ht)
  obtain ⟨hcfg, -, hspeed, hclock⟩ := phase1_sameRamp (s := tick advance s) hphase1 hs hu
  exact hstep.congr hcfg.symm hspeed.symm hclock.symm hlast

theorem runInput_decelStep {i : Input} {s t : State} (h : runInput i s = .next t) (hs : s.decelerating = true)
    (ht : t.decelerating = true) : DecelStep s t := by
  cases i with
  | iteration advance received => exact iteration_decelStep h hs ht
  | hostCall advance call =>
    obtain honly | ⟨-, -, u, env, hcall, rfl⟩ := hostCall_next (s := tick advance s) h
    · unfold OnlyEnv at honly; rw [honly]; exact .inl ⟨rfl, rfl⟩
    · exact (hcall.sameRamp hs ht).decelStep
  | rxPush b =>
    obtain ⟨-, rfl⟩ := receiveByte_next h
    rw [rxPush_spec]; exact .inl ⟨rfl, rfl⟩
  | boot t0 =>
    obtain rfl : State.boot s.cfg t0 s.env = t := Host.Outcome.next.inj h
    cases ht

theorem step_decelStep {s t : State} (h : step s = .next t) (hs : s.decelerating = true)
    (ht : t.decelerating = true) : DecelStep s t :=
  runInput_decelStep (s := { s with env := s.env.nextInput.2 }) (step_next.1 h).2 hs ht

theorem legal_decelStep {c : Config} (h : c.Legal) : 1 ≤ c.decelStep.toNat := by
  obtain ⟨-, -, -, -, hstep, -⟩ := h
  exact hstep

/-- Settles O46, by the two cases of `DecelStep`; a legal `DECEL_STEP` is at least 1, so a ramp step shows in the speed. -/
theorem decelerationStepBound : Obligations.DecelerationStepBound := by
  intro s t hinv hstep hs ht
  have hpositive := legal_decelStep hinv.legal
  obtain ⟨hspeed, hclock⟩ | ⟨hspeed, hdue, hclock⟩ := step_decelStep hstep hs ht
  · rw [hspeed]
    exact ⟨le_rfl, by omega, fun _ => hclock, fun h => absurd rfl h⟩
  · refine ⟨by omega, by omega, fun h => ?_, fun _ => ⟨hdue, hclock⟩⟩
    rw [h] at hspeed
    omega

/-! ### Runs -/

/-- Time elapsed in two parts is not less than the whole, wrapping or not (R12). -/
theorem elapsed_le_add (a b c : Time) : elapsed a c ≤ elapsed a b + elapsed b c := by
  simp only [elapsed]
  bv_omega

@[simp] theorem elapsed_self (a : Time) : elapsed a a = 0 := by simp [elapsed]

/-- A run inside a deceleration of `time` ms, with the ramp steps in it: none, and the step clock as it was; or a first step at
`first` ms, due then, and `more` after it, a `DECEL_INTERVAL` or more apart, the last one at the step clock. -/
def DecelCount (time : Nat) (s t : State) : Prop :=
  (t.currentRpm = s.currentRpm ∧ elapsed t.now t.lastStepTime ≤ time + elapsed s.now s.lastStepTime) ∨
  ∃ first more, s.cfg.decelInterval ≤ first + elapsed s.now s.lastStepTime ∧
    s.currentRpm.toNat ≤ t.currentRpm.toNat + (more + 1) * s.cfg.decelStep.toNat ∧
    first + more * s.cfg.decelInterval + elapsed t.now t.lastStepTime ≤ time

/-- One more step: it takes the time its clock advances, and a ramp step in it is one interval after the last. -/
theorem DecelCount.step {time : Nat} {s u t : State} (h : DecelCount time s u) (hcfg : u.cfg = s.cfg)
    (hstep : DecelStep u t) : DecelCount (time + elapsed t.now u.now) s t := by
  have hsum := elapsed_le_add t.now u.now u.lastStepTime
  obtain ⟨hspeed, hclock⟩ | ⟨hspeed, hdue, hclock⟩ := hstep
  · obtain ⟨hspeed', htime⟩ | ⟨first, more, hfirst, hfall, htime⟩ := h
    · exact .inl ⟨hspeed.trans hspeed', by rw [hclock]; omega⟩
    · exact .inr ⟨first, more, hfirst, by rwa [hspeed], by rw [hclock]; omega⟩
  · rw [hcfg] at hspeed hdue
    obtain ⟨hspeed', htime⟩ | ⟨first, more, hfirst, hfall, htime⟩ := h
    · rw [hspeed'] at hspeed
      exact .inr ⟨time + elapsed t.now u.now, 0, by omega, by omega, by simp [hclock]⟩
    · refine .inr ⟨first, more + 1, hfirst, ?_, ?_⟩
      · rw [Nat.succ_mul]; omega
      · rw [hclock, elapsed_self, Nat.succ_mul]; omega

/-- The ramp steps of a run are counted, over the same configuration throughout. -/
theorem DecelRun.count {time : Nat} {s t : State} (h : DecelRun time s t) : t.cfg = s.cfg ∧ DecelCount time s t := by
  induction h with
  | refl s => exact ⟨rfl, .inl ⟨rfl, by omega⟩⟩
  | step elapsedSoFar s u t hrun hu hstep ht ih =>
    obtain ⟨hcfg, hcount⟩ := ih
    exact ⟨(step_cfg hstep).trans hcfg, hcount.step hcfg (step_decelStep hstep hu ht)⟩

/-- Settles O47. The steps after the first take `more` intervals of the run's time; where no step is due at the start, the first
takes some of it too. -/
theorem decelerationWindowBound : Obligations.DecelerationWindowBound := by
  intro time s t _ hrun hinterval
  obtain ⟨-, ⟨hspeed, -⟩ | ⟨first, more, hfirst, hfall, htime⟩⟩ := hrun.count
  · simp [hspeed]
  · have hmore : more ≤ time / s.cfg.decelInterval := (Nat.le_div_iff_mul_le hinterval).2 (by omega)
    have hfall_mul := Nat.mul_le_mul_right s.cfg.decelStep.toNat (Nat.add_le_add_right hmore 1)
    have hone : more * s.cfg.decelInterval < s.cfg.decelInterval →
        s.currentRpm.toNat - t.currentRpm.toNat ≤ s.cfg.decelStep.toNat := by
      intro hlt
      have hnone : more < 1 := Nat.lt_of_mul_lt_mul_right (a := s.cfg.decelInterval) (by simpa using hlt)
      obtain rfl : more = 0 := Nat.lt_one_iff.1 hnone
      omega
    exact ⟨by omega, fun _ => hone (by omega), fun _ _ => hone (by omega)⟩

end Sys2Proof.Machine
end

section
/-! The motor operations as opcodes (R206 to R208) and as host calls (R278, R282), and the two periodic frames (R276, R334). -/

namespace Sys2Proof.Machine

/-! ### The motor opcodes -/

/-- A request applied at once is one inverter frame of the new speed (R267). -/
theorem setRpm_up_observed {r : Half} {s : State} (h : s.currentRpm.toNat ≤ (clampRpm s.cfg r).toNat) :
    Observed s (setRpm r s)
      [.serialSend (buildCommandFrame s.cfg (commandByte s.direction) (clampRpm s.cfg r))] := by
  rw [setRpm_up h]
  exact ⟨rfl, rfl⟩

/-- A deceleration is entered or redirected without a frame (R268). -/
theorem setRpm_down_observed {r : Half} {s : State} (h : ¬ s.currentRpm.toNat ≤ (clampRpm s.cfg r).toNat) :
    Observed s (setRpm r s) [] := by
  rw [setRpm_down h]
  exact (Observed.refl s).of_env rfl rfl

/-- Settles O16. The acknowledgement follows the inverter frame of `setRpm`, where there is one, and carries the clamped
request in either case. -/
theorem motorSetRpmAppliesOrDecelerates : Obligations.MotorSetRpmAppliesOrDecelerates := by
  intro rpm s hpeer hmotor
  refine ⟨_, clampRpm s.cfg rpm, onMotorPeer_next hpeer hmotor, toNat_clampRpm s.cfg rpm, ?_⟩
  by_cases hup : s.currentRpm.toNat ≤ (clampRpm s.cfg rpm).toNat
  · have hframe := setRpm_up_observed hup
    rw [if_pos hup]
    rw [setRpm_up hup] at hframe ⊢
    exact ⟨rfl, replyWith_after (.ackMotorRpm (clampRpm s.cfg rpm) ackStatus) hframe rfl⟩
  · have hframe := setRpm_down_observed hup
    rw [if_neg hup]
    rw [setRpm_down hup] at hframe ⊢
    exact ⟨rfl, replyWith_after (.ackMotorRpm (clampRpm s.cfg rpm) ackStatus) hframe rfl⟩

/-- The direction register is written, and its frame carries the unchanged speed (R274). -/
theorem setDirection_spec (d : Direction) (s : State) :
    setDirection d s = { s with direction := d, env := (setDirection d s).env } ∧
      Observed s (setDirection d s) [.serialSend (buildCommandFrame s.cfg (commandByte d) s.currentRpm)] :=
  ⟨rfl, rfl, rfl⟩

/-- Settles O17. The opcode's boolean names the direction, whose command byte and reply byte are written out. -/
theorem motorSetDirKeepsSpeed : Obligations.MotorSetDirKeepsSpeed := by
  intro clockwise s hpeer hmotor
  obtain ⟨-, hframe⟩ := setDirection_spec (directionOf clockwise) s
  have hreply := replyWith_after (.ackMotorDir (directionOf clockwise) ackStatus) hframe rfl
  refine ⟨_, onMotorPeer_next hpeer hmotor, ?_⟩
  cases clockwise with
  | true => exact ⟨rfl, hreply⟩
  | false => exact ⟨rfl, hreply⟩

/-- Every speed is 0 and no deceleration is left; the frame carries speed 0 (R275). -/
theorem stopMotor_spec (s : State) :
    stopMotor s = { s with
      commandedRpm := 0#16, currentRpm := 0#16, targetRpm := 0#16, decelerating := false, env := (stopMotor s).env } ∧
      Observed s (stopMotor s) [.serialSend (buildCommandFrame s.cfg (commandByte s.direction) 0#16)] :=
  ⟨rfl, rfl, rfl⟩

/-- Settles O18. The acknowledgement follows the frame of `stop`. -/
theorem motorStopIsImmediate : Obligations.MotorStopIsImmediate :=
  fun s hpeer hmotor =>
    ⟨_, onMotorPeer_next hpeer hmotor, rfl, replyWith_after (.ackMotorStop ackStatus) (stopMotor_spec s).2 rfl⟩

/-! ### The host calls of a motor node -/

/-- On a motor node a call goes on, and its result is returned after whatever it called. -/
theorem onMotorHost_hostReturn {s u : State} (hpeer : s.cfg.role = .peer) (hmotor : s.cfg.hasMotor = true)
    {before : List Observation} (hobserved : Observed s u before) (r : HostResult) :
    onMotorHost s (hostReturn r u) = .next (observe (.hostReturn r) u) ∧
      Observed s (observe (.hostReturn r) u) (before ++ [.hostReturn r]) :=
  ⟨onMotorHost_next.2 ⟨⟨hpeer, hmotor⟩, rfl⟩, hobserved.trans (observe_observed _ u)⟩

/-- Settles O43. Each call is the function of its opcode and then the return; there is no bus frame. -/
theorem hostMotorCalls : Obligations.HostMotorCalls := by
  intro s hpeer hmotor
  refine ⟨fun rpm => ?setRpm, fun d => ?setDirection, ?stop, ?status⟩
  case setRpm =>
    by_cases hup : s.currentRpm.toNat ≤ (clampRpm s.cfg rpm).toNat
    · obtain ⟨hnext, hobserved⟩ := onMotorHost_hostReturn hpeer hmotor (setRpm_up_observed hup) .done
      refine ⟨_, clampRpm s.cfg rpm, hnext, toNat_clampRpm s.cfg rpm, ?_⟩
      rw [if_pos hup]
      exact ⟨by rw [setRpm_up hup]; rfl, hobserved⟩
    · obtain ⟨hnext, hobserved⟩ := onMotorHost_hostReturn hpeer hmotor (setRpm_down_observed hup) .done
      refine ⟨_, clampRpm s.cfg rpm, hnext, toNat_clampRpm s.cfg rpm, ?_⟩
      rw [if_neg hup]
      exact ⟨by rw [setRpm_down hup]; rfl, hobserved⟩
  case setDirection =>
    obtain ⟨hnext, hobserved⟩ := onMotorHost_hostReturn hpeer hmotor (setDirection_spec d s).2 .done
    exact ⟨_, hnext, rfl, hobserved⟩
  case stop =>
    obtain ⟨hnext, hobserved⟩ := onMotorHost_hostReturn hpeer hmotor (stopMotor_spec s).2 .done
    exact ⟨_, hnext, rfl, hobserved⟩
  case status =>
    obtain ⟨hnext, hobserved⟩ := onMotorHost_hostReturn hpeer hmotor (.refl s) (.status (localStatus s))
    exact ⟨_, hnext, rfl, hobserved⟩

/-! ### The periodic frames -/

theorem keepAlive_not_due {s : State} (h : elapsed s.now s.lastKeepAlive < s.cfg.keepAliveInterval) :
    keepAlive s = s := by
  rw [keepAlive, if_neg (by simpa [due] using h)]

theorem keepAlive_due {s : State} (h : s.cfg.keepAliveInterval ≤ elapsed s.now s.lastKeepAlive) :
    keepAlive s = emitInverterCommand { s with lastKeepAlive := s.now } := by
  rw [keepAlive, if_pos (by simpa [due] using h)]

theorem statusBeacon_not_due {s : State}
    (h : s.cfg.statusInterval = 0 ∨ elapsed s.now s.lastStatus < s.cfg.statusInterval) : statusBeacon s = s := by
  rw [statusBeacon, if_neg]
  rcases h with hoff | hearly
  · simp [hoff]
  · simp [due, hearly]

theorem statusBeacon_due {s : State} (hon : 0 < s.cfg.statusInterval)
    (h : s.cfg.statusInterval ≤ elapsed s.now s.lastStatus) :
    statusBeacon s = replyWith (statusInstr s) { s with lastStatus := s.now } := by
  rw [statusBeacon, if_pos (by simp [due, hon, h])]

/-- Settles O45. A due keep-alive is one inverter frame, a due status frame one reply of the registers. -/
theorem periodicFramesWhenDue : Obligations.PeriodicFramesWhenDue := by
  refine fun s => ⟨keepAlive_not_due, fun hdue => ?alive, statusBeacon_not_due, fun hon hdue => ?status⟩
  case alive =>
    rw [keepAlive_due hdue]
    exact ⟨rfl, rfl, rfl⟩
  case status =>
    rw [statusBeacon_due hon hdue]
    exact ⟨rfl, replyWith_after (s := s) (u := { s with lastStatus := s.now }) (statusInstr s)
      (.of_env (.refl s) rfl rfl) rfl⟩

end Sys2Proof.Machine
end

section
/-! Operations at the role that does not run them (R196, R197, R221), the coordinator's host events (R222 to R232) and its
bitfield of levels (R227). -/

namespace Sys2Proof.Machine

/-! ### Operations of the other role -/

theorem onPeer_coordinator {s body : State} (hcoord : s.cfg.role = .coordinator) : onPeer s body = .next s := by
  simp [onPeer, hcoord]

theorem onMotorPeer_coordinator {op : BusOp} {s body : State} (hcoord : s.cfg.role = .coordinator) :
    onMotorPeer op s body = .next s := by simp [onMotorPeer, hcoord]

theorem onMotorPeer_no_motor {op : BusOp} {s body : State} (hpeer : s.cfg.role = .peer)
    (hmotor : s.cfg.hasMotor = false) : onMotorPeer op s body = .next (raiseUnknownOpcode op s) := by
  simp [onMotorPeer, hpeer, hmotor]

theorem onCoordinator_peer {op : BusOp} {s body : State} (hpeer : s.cfg.role = .peer) :
    onCoordinator op s body = .next (raiseUnknownOpcode op s) := by simp [onCoordinator, hpeer]

/-- A response raises unknown-opcode at any peer (R196). -/
theorem exec_response_at_peer {i : Instr} {op : BusOp} {s : State} (hop : i.busOp = some op)
    (hresponse : op.isCommand = false) (hpeer : s.cfg.role = .peer) :
    exec i s = .next (raiseUnknownOpcode op s) := by
  cases i <;> cases hop
  case activate | deactivate | readAnalog | readDigital | readAllAnalog | readAllDigital | motorSetRpm | motorSetDir
    | motorStop | motorStatus => cases hresponse
  all_goals exact onCoordinator_peer hpeer

/-- A motor command raises unknown-opcode at a peer without a motor (R197). -/
theorem exec_motorCommand_without_motor {i : Instr} {op : BusOp} {s : State} (hop : i.busOp = some op)
    (hneeds : op.needsMotor = true) (hpeer : s.cfg.role = .peer) (hmotor : s.cfg.hasMotor = false) :
    exec i s = .next (raiseUnknownOpcode op s) := by
  cases i <;> cases hop
  case motorSetRpm | motorSetDir | motorStop | motorStatus => exact onMotorPeer_no_motor hpeer hmotor
  all_goals cases hneeds

/-- Settles O20: in both cases the meaning is `raiseUnknownOpcode`. -/
theorem unsupportedOpcodesRaiseError : Obligations.UnsupportedOpcodesRaiseError := by
  intro i op s hop hpeer hunsupported
  refine ⟨raiseUnknownOpcode op s, ?_, raiseUnknownOpcode_spec op s⟩
  obtain hresponse | ⟨hneeds, hmotor⟩ := hunsupported
  · exact exec_response_at_peer hop hresponse hpeer
  · exact exec_motorCommand_without_motor hop hneeds hpeer hmotor

/-- Settles O21. The six commands of every peer and the four of a motor peer are each discarded by their own rule. -/
theorem commandsAtCoordinatorDiscarded : Obligations.CommandsAtCoordinatorDiscarded := by
  intro i op s hop hcommand hcoord
  cases i <;> cases hop
  case activate | deactivate | readAnalog | readDigital | readAllAnalog | readAllDigital =>
    exact onPeer_coordinator hcoord
  case motorSetRpm | motorSetDir | motorStop | motorStatus => exact onMotorPeer_coordinator hcoord
  all_goals cases hcommand

/-! ### Host events -/

/-- Settles O22. Each meaning is `responseEvent` of its fields, one observation and nothing else. -/
theorem responsesBecomeHostEvents : Obligations.ResponsesBecomeHostEvents := by
  intro s hcoord
  exact ⟨fun _ _ => onCoordinator_next hcoord, fun _ _ => onCoordinator_next hcoord,
    fun _ _ => onCoordinator_next hcoord, fun _ _ => onCoordinator_next hcoord, fun _ => onCoordinator_next hcoord,
    fun _ _ _ _ => onCoordinator_next hcoord, fun _ _ => onCoordinator_next hcoord⟩

/-! ### The bitfield -/

@[simp] theorem storeDigital_now (address : Addr) (pin : Byte) (level : Bool) (s : State) :
    (storeDigital address pin level s).now = s.now := by rw [storeDigital_frame]

/-- A digital `store` at a pin's number: that table pin of the slot, and no other (R250). -/
theorem storeDigital_read_inside {address : Addr} {s : State} {slot : Nat} {p : Byte}
    (hin : p.toNat < s.cfg.tablePins ∧ slot = slotOf s.cfg address) {i : Nat} (hi : i < 256) (level : Bool) :
    digitalRead (storeDigital address (BitVec.ofNat 8 i) level s) slot p =
      if p.toNat = i then some ⟨level, s.now⟩ else digitalRead s slot p := by
  obtain ⟨hpin, hslot⟩ := hin
  have hnumber : (BitVec.ofNat 8 i).toNat = i := by simp [Nat.mod_eq_of_lt hi]
  have hsame : p = BitVec.ofNat 8 i ↔ p.toNat = i := by rw [← BitVec.toNat_inj, hnumber]
  rw [storeDigital_read, hnumber]
  by_cases hp : p.toNat = i
  · rw [if_pos ⟨hp ▸ hpin, hslot, hsame.2 hp⟩, if_pos hp]
  · rw [if_neg fun h => hp (hsame.1 h.2.2), if_neg hp]

/-- No digital `store` writes a pin outside the table or at another slot (R250, R251). -/
theorem storeDigital_read_outside {address : Addr} {s : State} {slot : Nat} {p : Byte}
    (hout : ¬ (p.toNat < s.cfg.tablePins ∧ slot = slotOf s.cfg address)) (pin : Byte) (level : Bool) :
    digitalRead (storeDigital address pin level s) slot p = digitalRead s slot p := by
  rw [storeDigital_read, if_neg]
  rintro ⟨hpin, hslot, rfl⟩
  exact hout ⟨hpin, hslot⟩

theorem storeLevels_read_outside {address : Addr} {slot : Nat} {p : Byte} (i : Nat) (ls : List Bool) {s : State}
    (hout : ¬ (p.toNat < s.cfg.tablePins ∧ slot = slotOf s.cfg address)) :
    digitalRead (storeLevels address i ls s) slot p = digitalRead s slot p := by
  induction ls generalizing i s with
  | nil => rfl
  | cons l ls ih => rw [storeLevels, ih _ (by rwa [storeDigital_cfg]), storeDigital_read_outside hout]

/-- The levels from pin `i` up stand at their own pins, each stored once. -/
theorem storeLevels_read_inside {address : Addr} {slot : Nat} {p : Byte} {i : Nat} {ls : List Bool}
    (hlast : i + ls.length ≤ 256) {s : State} (hin : p.toNat < s.cfg.tablePins ∧ slot = slotOf s.cfg address) :
    digitalRead (storeLevels address i ls s) slot p =
      if h : i ≤ p.toNat ∧ p.toNat - i < ls.length then some ⟨ls[p.toNat - i], s.now⟩
      else digitalRead s slot p := by
  induction ls generalizing i s with
  | nil => simp [storeLevels]
  | cons l ls ih =>
    rw [List.length_cons] at hlast
    rw [storeLevels, ih (by omega) (by rwa [storeDigital_cfg]), storeDigital_read_inside hin (by omega),
      storeDigital_now]
    obtain hlt | heq | hgt := Nat.lt_trichotomy p.toNat i
    · rw [dif_neg (by omega), if_neg (by omega), dif_neg (by omega)]
    · rw [dif_neg (by omega), if_pos heq, dif_pos ⟨heq.ge, by simp [heq]⟩]
      simp [heq]
    · obtain ⟨k, hk⟩ : ∃ k, p.toNat = i + 1 + k := ⟨p.toNat - (i + 1), by omega⟩
      have hhere : p.toNat - (i + 1) = k := by omega
      have hthere : p.toNat - i = k + 1 := by omega
      simp only [hhere, hthere, List.length_cons, List.getElem_cons_succ, Nat.add_lt_add_iff_right,
        if_neg (show ¬ p.toNat = i by omega), show i + 1 ≤ p.toNat by omega, show i ≤ p.toNat by omega, true_and]

/-- Unpacked level `i` is bit `i`, for an index within the list. -/
theorem getElem_unpackDigital (bits : Byte) {i : Nat} (hi : i < (unpackDigital bits).length) :
    (unpackDigital bits)[i] = bits.getLsbD i := by simp [unpackDigital]

/-- Settles O26. The eight levels are stored at pins 0 to 7, level `i` being bit `i`. -/
theorem allDigitalDataStored : Obligations.AllDigitalDataStored := by
  intro bits s hcoord
  refine ⟨_, onCoordinator_next hcoord, storeLevels_frame s.rxAddr 0 _ s, fun slot p => ?_⟩
  by_cases hin : p.toNat < s.cfg.tablePins ∧ slot = s.rxAddr.toNat % s.cfg.tableSize
  · rw [storeLevels_read_inside (by simp) hin]
    by_cases hp : p.toNat < 8
    · rw [if_pos ⟨hp, hin⟩, dif_pos (by simpa using hp), getElem_unpackDigital, Nat.sub_zero]
    · rw [if_neg fun h => hp h.1, dif_neg (by simpa using hp)]
  · rw [storeLevels_read_outside 0 _ hin, if_neg fun h => hin h.2]

end Sys2Proof.Machine
end

section
/-! The inverter link at a node (R301 to R313): its commands handed over, its replies accepted, arriving bytes kept; and which
changes of a frame its CRC sees (R316). -/

namespace Sys2Proof.Machine

/-! ### Commands -/

/-- On a node with the link a command is its frame on the serial line (R300). -/
theorem sendCommand_of_hasMotor {s : State} (hmotor : s.cfg.hasMotor = true) (cmd : Byte) (speed : Half) :
    sendCommand cmd speed s = .next (observe (.serialSend (buildCommandFrame s.cfg cmd speed)) s) := by
  rw [sendCommand, if_pos hmotor, serialSend_eq]

/-- A node without the link has nowhere to send it (R20, log entry 10). -/
theorem sendCommand_of_no_motor {s : State} (hmotor : s.cfg.hasMotor = false) (cmd : Byte) (speed : Half) :
    sendCommand cmd speed s = .refused .noInverterLink := by simp [sendCommand, hmotor]

/-- Settles O28. Both commands are `sendCommand` of their byte, which is the direction's. -/
theorem inverterCommandsSent : Obligations.InverterCommandsSent := by
  intro s
  refine ⟨fun hmotor => ⟨fun speed => sendCommand_of_hasMotor hmotor 0x14#8 speed,
    fun speed => sendCommand_of_hasMotor hmotor 0x18#8 speed, ?emitted⟩,
    fun hmotor speed => ⟨sendCommand_of_no_motor hmotor 0x14#8 speed, sendCommand_of_no_motor hmotor 0x18#8 speed⟩⟩
  case emitted =>
    have hsent := sendCommand_of_hasMotor hmotor (commandByte s.direction) s.currentRpm
    cases hdir : s.direction with
    | cw =>
      rw [hdir] at hsent
      rw [if_pos rfl, emitInverterCommand, hdir]
      exact hsent
    | ccw =>
      rw [hdir] at hsent
      rw [if_neg (by simp), emitInverterCommand, hdir]
      exact hsent

/-- Where the host is given it, a query of speed 0 is sent as a command (R304). -/
theorem sendQuery_given {s : State} (hgiven : s.cfg.hostInverterQueries = true) (hmotor : s.cfg.hasMotor = true)
    (cmd : Byte) :
    sendQuery cmd 0#16 s = .next (observe (.serialSend (buildCommandFrame s.cfg cmd 0#16)) s) := by
  rw [sendQuery, if_pos hgiven, if_pos rfl, sendCommand_of_hasMotor hmotor]

theorem sendQuery_payload {s : State} (hgiven : s.cfg.hostInverterQueries = true) {speed : Half}
    (hspeed : speed ≠ 0#16) (cmd : Byte) : sendQuery cmd speed s = .refused .inverterPayloadUnknown := by
  rw [sendQuery, if_pos hgiven, if_neg hspeed]

theorem sendQuery_not_given {s : State} (hgiven : s.cfg.hostInverterQueries = false) (cmd : Byte) (speed : Half) :
    sendQuery cmd speed s = .refused .inverterQueryNotGiven := by simp [sendQuery, hgiven]

/-- Settles O29. The three commands are `sendQuery` of their byte. -/
theorem inverterQueriesOnlyWhereGiven : Obligations.InverterQueriesOnlyWhereGiven := by
  intro s
  exact
    ⟨fun hgiven hmotor => ⟨sendQuery_given hgiven hmotor 0x27#8, sendQuery_given hgiven hmotor 0xB0#8,
        sendQuery_given hgiven hmotor 0xA0#8⟩,
      fun hgiven _ hspeed => ⟨sendQuery_payload hgiven hspeed 0x27#8, sendQuery_payload hgiven hspeed 0xB0#8,
        sendQuery_payload hgiven hspeed 0xA0#8⟩,
      fun hgiven speed => ⟨sendQuery_not_given hgiven 0x27#8 speed, sendQuery_not_given hgiven 0xB0#8 speed,
        sendQuery_not_given hgiven 0xA0#8 speed⟩⟩

/-! ### Replies and arriving bytes -/

/-- Settles O30: acceptance writes its four registers, and a reply that fails the CRC writes nothing. -/
theorem replyAcceptedOnCrcAlone : Obligations.ReplyAcceptedOnCrcAlone := by
  intro cls echo actual byte4 fault byte6 byte7 crc s hmotor
  rw [exec_invReply_of_hasMotor hmotor]
  split
  · rfl
  · rfl

/-- Settles O32. The reply's `u16` fields are the received bytes again, over which its CRC is judged. -/
theorem serialServiceTakesTenBytes : Obligations.SerialServiceTakesTenBytes := by
  intro s
  refine ⟨fun hmotor => phase3_waits (.inl hmotor), fun hshort => phase3_waits (.inr hshort), ?_⟩
  intro b0 b1 b2 b3 b4 b5 b6 b7 h l rest hmotor hfifo
  have htaken := phase3_of_tenBytes hmotor hfifo
  refine ⟨htaken, fun hcrc => ?_⟩
  rw [htaken, exec_invReply_of_hasMotor (s := { s with rxFifo := rest }) hmotor, hi8_u16be, lo8_u16be, if_pos hcrc]
  rfl

/-- Settles O33. The step is `rxPush` of the byte on the state without that input. -/
theorem arrivingByteKeptOrLost : Obligations.ArrivingByteKeptOrLost := by
  intro s b rest hlegal hmotor hinputs
  rw [step_listed hlegal hinputs, runInput, receiveByte, if_pos hmotor, rxPush_spec]

/-! ### Corruption -/

theorem frameValid_iff {c : Config} {bytes : List Byte} {crc : Half} :
    frameValid c bytes crc = true ↔ crc16 c bytes = crc := by simp [frameValid]

/-- A changed byte of the first eight changes the CRC, under the hypothesis, and leaves the received one (R316). -/
theorem frameValid_set_body {c : Config} (hcrc : CrcDetectsByteError c) {f : List Byte} {i : Nat} {x : Byte}
    (hlen : f.length = 10) (hi : i < 8) (hx : f[i]? ≠ some x)
    (hvalid : frameValid c (f.take 8) (u16be (f.getD 8 0#8) (f.getD 9 0#8)) = true) :
    frameValid c ((f.set i x).take 8) (u16be ((f.set i x).getD 8 0#8) ((f.set i x).getD 9 0#8)) = false := by
  have h8 : (f.set i x).getD 8 0#8 = f.getD 8 0#8 := by
    simp only [List.getD_eq_getElem?_getD, List.getElem?_set_ne (show i ≠ 8 by omega)]
  have h9 : (f.set i x).getD 9 0#8 = f.getD 9 0#8 := by
    simp only [List.getD_eq_getElem?_getD, List.getElem?_set_ne (show i ≠ 9 by omega)]
  have hchanged : crc16 c ((f.take 8).set i x) ≠ crc16 c (f.take 8) :=
    hcrc (f.take 8) i x (by simp [hlen]) hi (by rwa [List.getElem?_take_of_lt hi])
  rw [frameValid_iff] at hvalid
  rw [h8, h9, List.take_set, ← Bool.not_eq_true, frameValid_iff, ← hvalid]
  exact hchanged

/-- The received CRC gives back its two bytes. -/
theorem u16be_inj {h l h' l' : Byte} (heq : u16be h l = u16be h' l') : h = h' ∧ l = l' :=
  ⟨by simpa using congrArg hi8 heq, by simpa using congrArg lo8 heq⟩

/-- A changed CRC byte leaves the computed CRC and changes the received one. -/
theorem frameValid_set_crc {c : Config} {f : List Byte} {i : Nat} {x : Byte} (hlen : f.length = 10) (hi : 8 ≤ i)
    (hi' : i < 10) (hx : f[i]? ≠ some x)
    (hvalid : frameValid c (f.take 8) (u16be (f.getD 8 0#8) (f.getD 9 0#8)) = true) :
    frameValid c ((f.set i x).take 8) (u16be ((f.set i x).getD 8 0#8) ((f.set i x).getD 9 0#8)) = false := by
  have hset : (f.set i x).getD i 0#8 = x := by simp [List.getD_eq_getElem?_getD, hlen, hi']
  have hold : f.getD i 0#8 ≠ x := fun h => hx (by
    rw [List.getD_eq_getElem?_getD, List.getElem?_eq_getElem (by omega)] at h
    rw [List.getElem?_eq_getElem (by omega), ← h, Option.getD_some])
  rw [frameValid_iff] at hvalid
  rw [List.take_set_of_le hi, ← Bool.not_eq_true, frameValid_iff, hvalid]
  intro hsame
  obtain ⟨h8, h9⟩ := u16be_inj hsame
  obtain rfl | rfl : i = 8 ∨ i = 9 := by omega
  · exact hold (h8.trans hset)
  · exact hold (h9.trans hset)

/-- An entry of the table, read from its list. -/
theorem crcEntry_eq_getD (table : Vector Half 16) (k : BitVec 4) :
    crcEntry table k = table.toList.getD k.toNat 0#16 := by
  have hk : k.toNat < 16 := k.isLt
  simp [crcEntry, List.getD_eq_getElem?_getD, hk]

/-- Settles O34. A change is in the first eight bytes or in the two of the CRC; `CRC_STEP` is as configured. -/
theorem singleByteCorruptionRejected : Obligations.SingleByteCorruptionRejected := by
  refine fun c => ⟨fun f i x hlen hi hx hcrc hvalid => ?corrupted, fun crc nibble => ⟨?opened, ?high, ?low⟩⟩
  case corrupted =>
    by_cases hbody : i < 8
    · exact frameValid_set_body (hcrc hbody) hlen hbody hx hvalid
    · exact frameValid_set_crc hlen (Nat.not_lt.1 hbody) hi hx hvalid
  case opened => intro hstep; simp only [crcStep, hstep]
  case high => intro table hstep; simp only [crcStep, hstep, crcEntry_eq_getD]
  case low => intro table hstep; simp only [crcStep, hstep, crcEntry_eq_getD]

end Sys2Proof.Machine
end

section
/-! `SendWithRetry` on listed answers (R154), and the reading of all analog pins: samples first, then frames of two readings
(R171, R193). -/

namespace Sys2Proof.Machine

/-! ### The transport on listed answers -/

/-- A listed outcome is the outcome, and is used up (R152). -/
theorem Env.busSend_listed {e : Env} {r : SendOutcome} {rest : List SendOutcome} (h : e.sendAnswers = r :: rest)
    (f : BusFrame) (timeout : Nat) :
    e.busSend f timeout = (r, { e with sendAnswers := rest, trace := e.trace ++ [.busSend f timeout r] }) := by
  simp [Env.busSend, Env.nextSend, Env.observe, h]

/-- The second attempt succeeds, or the frame is dropped with both outcomes (R155). -/
theorem Env.retrySend_listed {e : Env} {r : SendOutcome} {rest : List SendOutcome} (h : e.sendAnswers = r :: rest)
    (f : BusFrame) (timeout : Nat) (first : SendOutcome) :
    e.retrySend f timeout first =
      if r = .ok then (.sent, { e with sendAnswers := rest, trace := e.trace ++ [.busSend f timeout r] })
      else (.dropped, { e with
        sendAnswers := rest
        trace := e.trace ++ [.busSend f timeout r, .hostEvent (.txDropped f first r)] }) := by
  simp only [Env.retrySend, Env.busSend_listed h]
  cases r <;> simp [Env.observe]

/-- A first attempt that succeeds is the only one. -/
theorem Env.sendWithRetry_ok {e : Env} {rest : List SendOutcome} (h : e.sendAnswers = .ok :: rest) (f : BusFrame)
    (timeout : Nat) :
    e.sendWithRetry f timeout =
      (.sent, { e with sendAnswers := rest, trace := e.trace ++ [.busSend f timeout .ok] }) := by
  simp only [Env.sendWithRetry, Env.busSend_listed h]

/-- Settles O35. After a first failure the frame is retried, on a bus that was recovered after a `BusOff`. -/
theorem sendWithRetryFollowsAnswers : Obligations.SendWithRetryFollowsAnswers := by
  intro f timeout e r1 r2 rest hanswers
  cases r1 with
  | ok => rw [if_pos rfl, Env.sendWithRetry_ok hanswers]
  | timeout =>
    simp only [Env.sendWithRetry, Env.busSend_listed hanswers]
    rw [Env.retrySend_listed (r := r2) (rest := rest) rfl]
    simp
  | busOff =>
    simp only [Env.sendWithRetry, Env.busSend_listed hanswers, Env.busRecover, Env.observe]
    rw [Env.retrySend_listed (r := r2) (rest := rest) rfl]
    simp

/-! ### Frames of two readings -/

/-- Frame `k` carries readings `2k` and `2k+1` (R171). -/
theorem getElem?_packAllAnalog (readings : List AnalogReading) (k : Nat) :
    (packAllAnalog readings)[k]? = readings[2 * k]?.map fun a => .allAnalogData a readings[2 * k + 1]? := by
  induction readings using packAllAnalog.induct generalizing k with
  | case1 => simp [packAllAnalog]
  | case2 a =>
    cases k with
    | zero => simp [packAllAnalog]
    | succ k => simp [packAllAnalog, Nat.mul_succ]
  | case3 a b rest ih =>
    cases k with
    | zero => simp [packAllAnalog]
    | succ k => simp [packAllAnalog, Nat.mul_succ, ih]

theorem length_packAllAnalog (readings : List AnalogReading) :
    (packAllAnalog readings).length = (readings.length + 1) / 2 := by
  induction readings using packAllAnalog.induct with
  | case1 => rfl
  | case2 a => simp [packAllAnalog]
  | case3 a b rest ih =>
    simp only [packAllAnalog, List.length_cons, ih]
    omega

/-- Every frame is an `ALL_ANALOG_DATA`. -/
theorem mem_packAllAnalog {readings : List AnalogReading} {i : Instr} (h : i ∈ packAllAnalog readings) :
    ∃ a second, i = .allAnalogData a second := by
  obtain ⟨k, hk⟩ := List.mem_iff_getElem?.1 h
  rw [getElem?_packAllAnalog] at hk
  obtain ⟨a, -, rfl⟩ := Option.map_eq_some_iff.1 hk
  exact ⟨a, _, rfl⟩

/-- Two triples take 7 bytes, one takes 4 (R118). -/
theorem length_encode_allAnalogData (c : Config) (a : AnalogReading) (second : Option AnalogReading) :
    (encode c (.allAnalogData a second)).length = 7 ∨ (encode c (.allAnalogData a second)).length = 4 := by
  cases second with
  | none => right; simp [encode, encodeReading, putBus16_length]
  | some b => left; simp [encode, encodeReading, putBus16_length]

/-- Settles O15, from the three lemmas above. -/
theorem analogPackingPairByPair : Obligations.AnalogPackingPairByPair := by
  refine fun readings => ⟨getElem?_packAllAnalog readings, length_packAllAnalog readings, fun c i hi => ?_⟩
  obtain ⟨a, second, rfl⟩ := mem_packAllAnalog hi
  exact length_encode_allAnalogData c a second

/-! ### All analog pins -/

/-- A listed answer is the sample, and is used up. -/
theorem sampleAnalog_listed {s : State} {raw : Half} {rest : List Half} (pin : Byte)
    (h : s.env.analogAnswers = raw :: rest) :
    (sampleAnalog pin s).1 = raw ∧ (sampleAnalog pin s).2.env.analogAnswers = rest := by
  simp [sampleAnalog, Env.nextAnalog, Env.observe, h]

/-- The raw samples of several pins, each taken once, in list order. -/
def analogSamples : List Byte → State → List Half
  | [], _ => []
  | pin :: pins, s => (sampleAnalog pin s).1 :: analogSamples pins (sampleAnalog pin s).2

@[simp] theorem length_analogSamples (pins : List Byte) (s : State) : (analogSamples pins s).length = pins.length := by
  induction pins generalizing s with
  | nil => rfl
  | cons pin pins ih => simp [analogSamples, ih]

/-- The readings are the transformed samples, each with its pin (R193, R199). -/
theorem sampleAnalogPins_readings (pins : List Byte) (s : State) :
    (sampleAnalogPins pins s).1 =
      List.zipWith (fun p raw => ⟨p, analogValue s.cfg p raw⟩) pins (analogSamples pins s) := by
  induction pins generalizing s with
  | nil => rfl
  | cons pin pins ih => simp [sampleAnalogPins, analogSamples, ih]

theorem sampleAnalogPins_observed (pins : List Byte) (s : State) :
    Observed s (sampleAnalogPins pins s).2 (List.zipWith .gpioReadAnalog pins (analogSamples pins s)) := by
  induction pins generalizing s with
  | nil => exact .refl s
  | cons pin pins ih => exact (sampleAnalog_observed pin s).trans (ih (sampleAnalog pin s).2)

/-- The samples are the listed answers, in order, as far as they are listed. -/
theorem analogSamples_listed (pins : List Byte) (s : State) :
    (analogSamples pins s).take s.env.analogAnswers.length = s.env.analogAnswers.take pins.length := by
  induction pins generalizing s with
  | nil => simp [analogSamples]
  | cons pin pins ih =>
    cases hanswers : s.env.analogAnswers with
    | nil => simp
    | cons raw rest =>
      obtain ⟨hsample, hrest⟩ := sampleAnalog_listed pin hanswers
      have hothers := ih (sampleAnalog pin s).2
      rw [hrest] at hothers
      simp [analogSamples, hsample, hothers]

/-- Settles O12. All samples are taken first; the frames of their readings are then sent one by one. -/
theorem readAllAnalogSamplesThenSends : Obligations.ReadAllAnalogSamplesThenSends := by
  intro s hpeer
  obtain ⟨honly, -⟩ := sampleAnalogPins_spec (pinsBelow s.cfg.nAnalog) s
  have hcfg : (sampleAnalogPins (pinsBelow s.cfg.nAnalog) s).2.cfg = s.cfg := by rw [honly]
  have hlisted := analogSamples_listed (pinsBelow s.cfg.nAnalog) s
  obtain ⟨honly', trs, htraces, hsent⟩ :=
    replyAll_spec (packAllAnalog (sampleAnalogPins (pinsBelow s.cfg.nAnalog) s).1)
      (sampleAnalogPins (pinsBelow s.cfg.nAnalog) s).2
  rw [hcfg, sampleAnalogPins_readings] at htraces
  rw [length_pinsBelow] at hlisted
  exact ⟨readAllAnalogPins s, analogSamples (pinsBelow s.cfg.nAnalog) s, trs, onPeer_next hpeer, honly.trans honly',
    by simp, hlisted, htraces, (sampleAnalogPins_observed _ s).trans hsent⟩

end Sys2Proof.Machine
end

section
/-! The dispatchers on a delivered frame (R186, R220, R221), and what a step runs by its input (R330 to R336). -/

namespace Sys2Proof.Machine

/-! ### Meanings that go on -/

/-- Every bus operation goes on, on every node (R338). -/
theorem exec_bus_next {i : Instr} {op : BusOp} (hop : i.busOp = some op) (s : State) : ∃ t, exec i s = .next t := by
  cases i
  case invCw | invCcw | invUnbalanceQuery | invLoadQuery | invAccelProfile | invReply => cases hop
  all_goals exact ⟨_, rfl⟩

/-- An opcode that a peer does not support raises unknown-opcode in its own rule (R196, R197). -/
theorem exec_unsupported {i : Instr} {op : BusOp} {s : State} (hop : i.busOp = some op) (hpeer : s.cfg.role = .peer)
    (hunsupported : supported s.cfg op = false) : exec i s = .next (raiseUnknownOpcode op s) := by
  by_cases hcommand : op.isCommand = true
  · obtain ⟨hneeds, hmotor⟩ : op.needsMotor = true ∧ s.cfg.hasMotor = false := by
      simpa [supported, hcommand] using hunsupported
    exact exec_motorCommand_without_motor hop hneeds hpeer hmotor
  · exact exec_response_at_peer hop (by simpa using hcommand) hpeer

/-- What the bus decoder answers is a bus operation. -/
theorem busOp_of_decodeBus {highFirst : Bool} {data : List Byte} {i : Instr}
    (h : decodeBus highFirst data = .decoded i) : ∃ op, i.busOp = some op := by
  cases data with
  | nil => cases h
  | cons b rest =>
    cases hbyte : BusOp.ofByte b with
    | none => rw [decodeBus_unknown highFirst hbyte] at h; cases h
    | some op =>
      by_cases hlen : rest.length + 1 < op.minLen
      · rw [decodeBus_short highFirst hbyte hlen] at h; cases h
      · obtain ⟨i', hdecoded, hop⟩ := decodeBus_long highFirst hbyte (Nat.not_lt.1 hlen)
        cases hdecoded.symm.trans h
        exact ⟨op, hop⟩

/-- A node while the frame `f` with the first byte `b` is in dispatch (R33). -/
abbrev inDispatch (f : BusFrame) (b : Byte) (s : State) : State :=
  { s with dstate := .processing b, rxAddr := f.address }

/-! ### The peer -/

theorem peerSwitch_decoded {data : List Byte} {s : State} {i : Instr}
    (h : decodeBus s.cfg.busU16HighFirst data = .decoded i) : peerSwitch data s = exec i s := by
  simp only [peerSwitch, h]

/-- Byte 0 is no opcode (R195). -/
theorem peerSwitch_unknown {s : State} {b : Byte} (h : BusOp.ofByte b = none) (rest : List Byte) :
    peerSwitch (b :: rest) s = .next (raiseProtocolError b s.cfg.errUnknownOpcode s) := by
  simp only [peerSwitch, decodeBus_unknown _ h]

/-- An opcode the peer does not support, whatever the length (R196, R197, the spec's decision D12). -/
theorem peerSwitch_unsupported {s : State} {b : Byte} {op : BusOp} (hpeer : s.cfg.role = .peer)
    (h : BusOp.ofByte b = some op) (hunsupported : supported s.cfg op = false) (rest : List Byte) :
    peerSwitch (b :: rest) s = .next (raiseProtocolError b s.cfg.errUnknownOpcode s) := by
  rw [← code_of_ofByte h, ← raiseUnknownOpcode_eq, code_of_ofByte h]
  by_cases hlen : rest.length + 1 < op.minLen
  · simp only [peerSwitch, decodeBus_short _ h hlen, hunsupported, Bool.false_eq_true, if_false]
  · obtain ⟨i, hdecoded, hop⟩ := decodeBus_long s.cfg.busU16HighFirst h (Nat.not_lt.1 hlen)
    rw [peerSwitch_decoded hdecoded, exec_unsupported hop hpeer hunsupported]

/-- A supported opcode that is too short (R198). -/
theorem peerSwitch_short {s : State} {b : Byte} {op : BusOp} {rest : List Byte} (h : BusOp.ofByte b = some op)
    (hsupported : supported s.cfg op = true) (hlen : rest.length + 1 < op.minLen) :
    peerSwitch (b :: rest) s = .next (raiseProtocolError b s.cfg.errLength s) := by
  simp only [peerSwitch, decodeBus_short _ h hlen, hsupported, if_true, code_of_ofByte h]

/-- An error taken in a dispatch is one taken by the idle node: `dstate` ends at `Idle` either way (R365). -/
theorem ErrorTaken.of_processing {s t : State} {d : DState} {subject code : Byte}
    (h : ErrorTaken { s with dstate := d } t subject code) :
    ErrorTaken s { t with dstate := .idle } subject code := by
  obtain ⟨hstate, hreplied⟩ := h
  exact ⟨by rw [hstate], hreplied⟩

/-- A frame for a peer whose switch raises an error takes that error. -/
theorem phase1_error {s : State} {f : BusFrame} {b : Byte} {rest : List Byte} (hpeer : s.cfg.role = .peer)
    (hown : f.address = s.cfg.selfAddress) (hdata : f.data = b :: rest) (hlen : f.data.length ≤ 8) {code : Byte}
    (hswitch : peerSwitch f.data (inDispatch f b s) = .next (raiseProtocolError b code (inDispatch f b s))) :
    ∃ t, phase1 (some f) s = .next t ∧ ErrorTaken { s with rxAddr := f.address } t b code := by
  refine ⟨_, ?_, ErrorTaken.of_processing (d := .processing b)
    (raiseProtocolError_spec b code (inDispatch f b s))⟩
  rw [phase1_own_address hpeer hown, dispatch_of_cons hdata hlen, hswitch, andThen]

/-- Settles O39: the four cases of the switch, in order. -/
theorem peerChecksInOrder : Obligations.PeerChecksInOrder := by
  intro s f b rest hpeer hown hdata hlen
  have herror := @phase1_error s f b rest hpeer hown hdata hlen
  cases hbyte : BusOp.ofByte b with
  | none => exact herror (by rw [hdata]; exact peerSwitch_unknown hbyte rest)
  | some op =>
    by_cases hunsupported : supported s.cfg op = false
    · simp only [if_pos hunsupported]
      exact herror (by rw [hdata]; exact peerSwitch_unsupported (s := inDispatch f b s) hpeer hbyte hunsupported rest)
    have hsupported : supported s.cfg op = true := by simpa using hunsupported
    by_cases hshort : f.data.length < op.minLen
    · simp only [if_neg hunsupported, if_pos hshort]
      rw [hdata, List.length_cons] at hshort
      exact herror (by rw [hdata]; exact peerSwitch_short (s := inDispatch f b s) hbyte hsupported hshort)
    · simp only [if_neg hunsupported, if_neg hshort]
      rw [hdata, List.length_cons] at hshort
      obtain ⟨i, hdecoded, hop⟩ := decodeBus_long s.cfg.busU16HighFirst hbyte (Nat.not_lt.1 hshort)
      rw [← hdata] at hdecoded
      obtain ⟨u, hu⟩ := exec_bus_next hop (inDispatch f b s)
      refine ⟨{ u with dstate := .idle }, ?_, i, u, hdecoded, hop, hu, rfl⟩
      rw [phase1_own_address hpeer hown, dispatch_of_cons hdata hlen,
        peerSwitch_decoded (s := inDispatch f b s) hdecoded, hu, andThen]

/-! ### The coordinator -/

theorem phase1_coordinator {s : State} (hcoord : s.cfg.role = .coordinator) (f : BusFrame) :
    phase1 (some f) s = dispatch f coordSwitch s := by
  simp only [phase1, hcoord, coordDispatch]

theorem coordSwitch_decoded {data : List Byte} {s : State} {i : Instr}
    (h : decodeBus s.cfg.busU16HighFirst data = .decoded i) : coordSwitch data s = exec i s := by
  simp only [coordSwitch, h]

/-- What decodes to nothing or to a command is discarded (R221). -/
theorem coordSwitch_discards {data : List Byte} {s : State} (hcoord : s.cfg.role = .coordinator)
    (h : ∀ i op, decodeBus s.cfg.busU16HighFirst data = .decoded i → i.busOp = some op → op.isCommand = true) :
    coordSwitch data s = .next s := by
  cases hdecoded : decodeBus s.cfg.busU16HighFirst data with
  | decoded i =>
    obtain ⟨op, hop⟩ := busOp_of_decodeBus hdecoded
    rw [coordSwitch_decoded hdecoded, commandsAtCoordinatorDiscarded i op s hop (h i op hdecoded hop) hcoord]
  | reject r => simp only [coordSwitch, hdecoded]

/-- Settles O40. Between the latching of `dstate` and its return the switch runs the response, or nothing. -/
theorem coordinatorRunsResponsesOnly : Obligations.CoordinatorRunsResponsesOnly := by
  intro s f b rest hcoord hdata hlen
  rw [phase1_coordinator hcoord, dispatch_of_cons hdata hlen]
  refine ⟨fun i op hdecoded hop _ => ?response, fun hcommand => ?other⟩
  case response =>
    obtain ⟨u, hu⟩ := exec_bus_next hop (inDispatch f b s)
    exact ⟨u, hu, by rw [coordSwitch_decoded (s := inDispatch f b s) hdecoded, hu, andThen]⟩
  case other => rw [coordSwitch_discards (s := inDispatch f b s) hcoord hcommand, andThen]

/-! ### The step -/

theorem andThen_assoc (o : Host.Outcome State Fault Refusal) (k k' : State → Host.Outcome State Fault Refusal) :
    andThen (andThen o k) k' = andThen o (fun s => andThen (k s) k') := by
  cases o <;> rfl

/-- A frame for this node that decodes to an instruction runs it, in either role (R185, R220). -/
theorem phase1_decoded {s : State} {f : BusFrame} {b : Byte} {rest : List Byte} {i : Instr}
    (hdata : f.data = b :: rest) (hlen : f.data.length ≤ 8) (hown : s.cfg.role = .peer → f.address = s.cfg.selfAddress)
    (hdecoded : decodeBus s.cfg.busU16HighFirst f.data = .decoded i) :
    phase1 (some f) s =
      andThen (exec i (inDispatch f b s))
        (fun u => .next { u with dstate := .idle }) := by
  cases hrole : s.cfg.role with
  | peer =>
    rw [phase1_own_address hrole (hown hrole), dispatch_of_cons hdata hlen,
      peerSwitch_decoded (s := inDispatch f b s) hdecoded]
  | coordinator =>
    rw [phase1_coordinator hrole, dispatch_of_cons hdata hlen, coordSwitch_decoded (s := inDispatch f b s) hdecoded]

theorem phase1_none (s : State) : phase1 none s = .next s := rfl

@[simp] theorem phase2_cfg (s : State) : (phase2 s).cfg = s.cfg := Moves.cfg (phase2_moves s)

@[simp] theorem phase2_rxFifo (s : State) : (phase2 s).rxFifo = s.rxFifo := by
  unfold phase2 statusBeacon keepAlive rampTick rampStep
  split_ifs <;> rfl

/-- An iteration without a frame is phase 2 and phase 3. -/
theorem iteration_none (advance : BitVec 31) (s : State) :
    iteration advance none s = phase3 (phase2 (tick advance s)) := by
  rw [iteration, phase1_none, andThen]

/-- An iteration with such a frame is its instruction and then phases 2 and 3. -/
theorem iteration_decoded {s : State} {f : BusFrame} {b : Byte} {rest : List Byte} {i : Instr}
    (hdata : f.data = b :: rest) (hlen : f.data.length ≤ 8) (hown : s.cfg.role = .peer → f.address = s.cfg.selfAddress)
    (hdecoded : decodeBus s.cfg.busU16HighFirst f.data = .decoded i) (advance : BitVec 31) :
    iteration advance (some f) s =
      andThen (exec i (inDispatch f b (tick advance s))) (fun u => phase3 (phase2 { u with dstate := .idle })) := by
  rw [iteration, phase1_decoded (s := tick advance s) hdata hlen hown hdecoded, andThen_assoc]
  rfl

/-- Settles O41. A listed input is run on the state without it; the iteration's three phases are then taken one by one. -/
theorem stepRunsDecodedInstruction : Obligations.StepRunsDecodedInstruction := by
  refine ⟨fun s => ⟨phase1_none s, rfl⟩, fun s rest hlegal => ⟨fun advance received hinputs => ?iteration,
    fun advance f b tail i hinputs hdata hlen hown hdecoded => ?frame,
    fun advance b0 b1 b2 b3 b4 b5 b6 b7 h l tail hinputs hmotor hfifo => ?reply,
    fun advance hinputs hwaits => ?idle, fun advance call hinputs => ?hostCall, fun advance query hinputs => ?query⟩⟩
  case iteration => exact ⟨step_listed hlegal hinputs, step_listed hlegal hinputs⟩
  case frame =>
    exact (step_listed hlegal hinputs).trans
      (iteration_decoded (s := { s with env := { s.env with inputs := rest } }) hdata hlen hown hdecoded advance)
  case reply =>
    rw [step_listed hlegal hinputs, runInput, iteration_none]
    exact phase3_of_tenBytes (by rw [phase2_cfg]; exact hmotor) (by rw [phase2_rxFifo]; exact hfifo)
  case idle =>
    rw [step_listed hlegal hinputs, runInput, iteration_none]
    exact phase3_waits (by rw [phase2_cfg, phase2_rxFifo]; exact hwaits)
  case hostCall => exact step_listed hlegal hinputs
  case query => exact step_listed hlegal hinputs

end Sys2Proof.Machine
end

section
/-! The environment's record decides no state (R155, R187, R414): two runs of one input from states that differ in that record
alone go on, or stop, alike. -/

namespace Sys2Proof.Machine

/-! ### Two runs side by side -/

theorem OnlyEnv.symm {s t : State} (h : OnlyEnv s t) : OnlyEnv t s := by
  unfold OnlyEnv at *
  rw [h]

/-- States that are each reached by calls only from two alike states are alike. -/
theorem OnlyEnv.both {s s' t t' : State} (h : OnlyEnv s s') (ht : OnlyEnv s t) (ht' : OnlyEnv s' t') : OnlyEnv t t' :=
  (ht.symm.trans h).trans ht'

/-- Both go on, to states that differ in the environment's record alone, or both stop for the same reason. -/
def Alike : Host.Outcome State Fault Refusal → Host.Outcome State Fault Refusal → Prop
  | .next t, .next t' => OnlyEnv t t'
  | .fault r, .fault r' => r = r'
  | .refused r, .refused r' => r = r'
  | _, _ => False

/-- A function of states that is not decided by the environment's record. -/
def IgnoresEnv (f : State → State) : Prop := ∀ s e, OnlyEnv (f s) (f { s with env := e })

/-- An operation whose going on or stopping is not decided by the environment's record. -/
def StepsAlike (f : State → Host.Outcome State Fault Refusal) : Prop := ∀ s e, Alike (f s) (f { s with env := e })

theorem IgnoresEnv.onlyEnv {f : State → State} (hf : IgnoresEnv f) {s s' : State} (h : OnlyEnv s s') :
    OnlyEnv (f s) (f s') := by
  unfold OnlyEnv at h
  rw [h]
  exact hf s s'.env

theorem StepsAlike.alike {f : State → Host.Outcome State Fault Refusal} (hf : StepsAlike f) {s s' : State}
    (h : OnlyEnv s s') : Alike (f s) (f s') := by
  unfold OnlyEnv at h
  rw [h]
  exact hf s s'.env

theorem StepsAlike.of_envs {f : State → Host.Outcome State Fault Refusal} (hf : StepsAlike f) (s : State)
    (e e' : Env) : Alike (f { s with env := e }) (f { s with env := e' }) := hf { s with env := e } e'

theorem IgnoresEnv.comp {f g : State → State} (hf : IgnoresEnv f) (hg : IgnoresEnv g) :
    IgnoresEnv fun s => f (g s) := fun s e => hf.onlyEnv (hg s e)

theorem IgnoresEnv.next {f : State → State} (hf : IgnoresEnv f) : StepsAlike fun s => .next (f s) := hf

theorem Alike.refused (r : Refusal) : Alike (.refused r) (.refused r) := rfl

theorem Alike.andThen {o o' : Host.Outcome State Fault Refusal} (h : Alike o o')
    {k : State → Host.Outcome State Fault Refusal} (hk : StepsAlike k) : Alike (andThen o k) (andThen o' k) := by
  cases o with
  | next t =>
    cases o' with
    | next t' => exact hk.alike h
    | fault r => exact nomatch r
    | refused r => exact absurd h id
  | fault r => exact nomatch r
  | refused r =>
    cases o' with
    | next t' => exact absurd h id
    | fault r' => exact nomatch r'
    | refused r' => exact h

theorem StepsAlike.andThen {f k : State → Host.Outcome State Fault Refusal} (hf : StepsAlike f) (hk : StepsAlike k) :
    StepsAlike fun s => andThen (f s) k := fun s e => (hf s e).andThen hk

/-- A function that only calls: nothing of rule R20 is written. -/
theorem IgnoresEnv.of_onlyEnv {f : State → State} (hf : ∀ s, OnlyEnv s (f s)) : IgnoresEnv f :=
  fun s e => OnlyEnv.both (s := s) (s' := { s with env := e }) rfl (hf s) (hf _)

/-! ### Operations -/

theorem ignoresEnv_self : IgnoresEnv fun s => s := fun _ _ => rfl

theorem replyWith_ignoresEnv {f : State → State} (hf : IgnoresEnv f) (i : State → Instr) :
    IgnoresEnv fun s => replyWith (i s) (f s) :=
  fun s e => (hf s e).both rfl rfl

theorem hostReturn_ignoresEnv {f : State → State} (hf : IgnoresEnv f) (r : State → HostResult) :
    IgnoresEnv fun s => hostReturn (r s) (f s) :=
  fun s e => (hf s e).both rfl rfl

theorem switchOutput_ignoresEnv (port : Byte) (level : Level) (ack : Instr) : IgnoresEnv (switchOutput port level ack) := by
  intro s e
  unfold switchOutput
  dsimp only
  split <;> rfl

theorem readAnalogPin_ignoresEnv (pin : Byte) : IgnoresEnv (readAnalogPin pin) := by
  intro s e
  unfold readAnalogPin
  dsimp only
  split <;> rfl

theorem readDigitalPin_ignoresEnv (pin : Byte) : IgnoresEnv (readDigitalPin pin) := by
  intro s e
  unfold readDigitalPin
  dsimp only
  split <;> rfl

theorem readAllAnalogPins_onlyEnv (s : State) : OnlyEnv s (readAllAnalogPins s) :=
  (sampleAnalogPins_spec _ s).1.trans (replyAll_spec _ _).1

theorem readAllDigitalPins_onlyEnv (s : State) : OnlyEnv s (readAllDigitalPins s) :=
  (sampleDigitalPins_spec _ s).1.trans (replyWith_spec _ _).1

theorem setRpm_ignoresEnv (r : Half) : IgnoresEnv (setRpm r) := by
  intro s e
  unfold setRpm
  dsimp only
  split <;> rfl

theorem setDirection_ignoresEnv (d : Direction) : IgnoresEnv (setDirection d) := fun _ _ => rfl

theorem stopMotor_ignoresEnv : IgnoresEnv stopMotor := fun _ _ => rfl

theorem storeAnalog_ignoresEnv (address : Addr) (pin : Byte) (value : Half) :
    IgnoresEnv (storeAnalog address pin value) := by
  intro s e
  unfold storeAnalog
  dsimp only
  split <;> rfl

theorem storeDigital_ignoresEnv (address : Addr) (pin : Byte) (level : Bool) :
    IgnoresEnv (storeDigital address pin level) := by
  intro s e
  unfold storeDigital
  dsimp only
  split <;> rfl

theorem storeReadings_ignoresEnv (address : Addr) (rs : List AnalogReading) :
    IgnoresEnv (storeReadings address rs) := by
  induction rs with
  | nil => exact fun _ _ => rfl
  | cons r rs ih => exact ih.comp (storeAnalog_ignoresEnv address r.pin r.value)

theorem storeLevels_ignoresEnv (address : Addr) (i : Nat) (ls : List Bool) : IgnoresEnv (storeLevels address i ls) := by
  induction ls generalizing i with
  | nil => exact fun _ _ => rfl
  | cons l ls ih => exact (ih (i + 1)).comp (storeDigital_ignoresEnv address _ l)

theorem rampTick_ignoresEnv : IgnoresEnv rampTick := by
  intro s e
  unfold rampTick rampStep withinOneStep
  dsimp only
  split_ifs <;> rfl

theorem keepAlive_ignoresEnv : IgnoresEnv keepAlive := by
  intro s e
  unfold keepAlive
  dsimp only
  split <;> rfl

theorem statusBeacon_ignoresEnv : IgnoresEnv statusBeacon := by
  intro s e
  unfold statusBeacon
  dsimp only
  split <;> rfl

/-! ### Meanings -/

theorem onPeer_stepsAlike {f : State → State} (hf : IgnoresEnv f) : StepsAlike fun s => onPeer s (f s) := by
  intro s e
  unfold onPeer
  dsimp only
  split
  · exact hf s e
  · exact rfl

theorem onMotorPeer_stepsAlike (op : BusOp) {f : State → State} (hf : IgnoresEnv f) :
    StepsAlike fun s => onMotorPeer op s (f s) := by
  intro s e
  unfold onMotorPeer
  dsimp only
  split_ifs
  · exact hf s e
  · exact rfl
  · exact rfl

theorem onCoordinator_stepsAlike (op : BusOp) {f : State → State} (hf : IgnoresEnv f) :
    StepsAlike fun s => onCoordinator op s (f s) := by
  intro s e
  unfold onCoordinator
  dsimp only
  split
  · exact hf s e
  · exact rfl

theorem responseEvent_stepsAlike (op : BusOp) (r : Response) :
    StepsAlike fun s => onCoordinator op s (responseEvent r s) := onCoordinator_stepsAlike op fun _ _ => rfl

theorem sendCommand_stepsAlike (cmd : Byte) (speed : Half) : StepsAlike (sendCommand cmd speed) := by
  intro s e
  unfold sendCommand
  dsimp only
  split
  · exact rfl
  · exact .refused _

theorem sendQuery_stepsAlike (cmd : Byte) (speed : Half) : StepsAlike (sendQuery cmd speed) := by
  intro s e
  unfold sendQuery
  dsimp only
  split_ifs
  · exact sendCommand_stepsAlike cmd _ s e
  · exact .refused _
  · exact .refused _

theorem execInvReply_stepsAlike (cls echo : Byte) (actual : Half) (byte4 fault byte6 byte7 : Byte) (crc : Half) :
    StepsAlike (execInvReply cls echo actual byte4 fault byte6 byte7 crc) := by
  intro s e
  unfold execInvReply
  dsimp only
  split_ifs
  · exact rfl
  · exact rfl
  · exact .refused _

theorem exec_stepsAlike (i : Instr) : StepsAlike (exec i) := by
  cases i with
  | activate port => exact onPeer_stepsAlike (switchOutput_ignoresEnv _ _ _)
  | deactivate port => exact onPeer_stepsAlike (switchOutput_ignoresEnv _ _ _)
  | readAnalog pin => exact onPeer_stepsAlike (readAnalogPin_ignoresEnv pin)
  | readDigital pin => exact onPeer_stepsAlike (readDigitalPin_ignoresEnv pin)
  | readAllAnalog => exact onPeer_stepsAlike (.of_onlyEnv readAllAnalogPins_onlyEnv)
  | readAllDigital => exact onPeer_stepsAlike (.of_onlyEnv readAllDigitalPins_onlyEnv)
  | motorSetRpm rpm => exact onMotorPeer_stepsAlike _ (replyWith_ignoresEnv (setRpm_ignoresEnv rpm) _)
  | motorSetDir clockwise => exact onMotorPeer_stepsAlike _ (replyWith_ignoresEnv (setDirection_ignoresEnv _) _)
  | motorStop => exact onMotorPeer_stepsAlike _ (replyWith_ignoresEnv stopMotor_ignoresEnv _)
  | motorStatus => exact onMotorPeer_stepsAlike _ (replyWith_ignoresEnv ignoresEnv_self _)
  | ackActivate port status => exact responseEvent_stepsAlike _ _
  | ackDeactivate port status => exact responseEvent_stepsAlike _ _
  | analogData pin value => exact onCoordinator_stepsAlike _ fun s e => storeAnalog_ignoresEnv s.rxAddr pin value s e
  | digitalData pin high => exact onCoordinator_stepsAlike _ fun s e => storeDigital_ignoresEnv s.rxAddr pin high s e
  | allAnalogData first second => exact onCoordinator_stepsAlike _ fun s e => storeReadings_ignoresEnv s.rxAddr _ s e
  | allDigitalData bits => exact onCoordinator_stepsAlike _ fun s e => storeLevels_ignoresEnv s.rxAddr 0 _ s e
  | ackMotorRpm rpm status => exact responseEvent_stepsAlike _ _
  | ackMotorDir dir status => exact responseEvent_stepsAlike _ _
  | ackMotorStop status => exact responseEvent_stepsAlike _ _
  | motorStatusData actualRpm dir setRpm fault => exact responseEvent_stepsAlike _ _
  | errorResponse subject code => exact responseEvent_stepsAlike _ _
  | invCw speed => exact sendCommand_stepsAlike _ speed
  | invCcw speed => exact sendCommand_stepsAlike _ speed
  | invUnbalanceQuery speed => exact sendQuery_stepsAlike _ speed
  | invLoadQuery speed => exact sendQuery_stepsAlike _ speed
  | invAccelProfile speed => exact sendQuery_stepsAlike _ speed
  | invReply cls echo actual byte4 fault byte6 byte7 crc => exact execInvReply_stepsAlike _ _ _ _ _ _ _ _

/-! ### Phases -/

theorem peerSwitch_stepsAlike (data : List Byte) : StepsAlike (peerSwitch data) := by
  intro s e
  unfold peerSwitch
  dsimp only
  split
  · exact exec_stepsAlike _ s e
  · exact rfl
  · split
    · exact rfl
    · exact rfl
  · exact .refused _

theorem coordSwitch_stepsAlike (data : List Byte) : StepsAlike (coordSwitch data) := by
  intro s e
  unfold coordSwitch
  dsimp only
  split
  · exact exec_stepsAlike _ s e
  · exact rfl

theorem dispatch_stepsAlike (f : BusFrame) {switch : List Byte → State → Host.Outcome State Fault Refusal}
    (hswitch : ∀ data, StepsAlike (switch data)) : StepsAlike (dispatch f switch) := by
  intro s e
  unfold dispatch
  split
  · exact .refused _
  · next op rest _ =>
    split
    · exact StepsAlike.andThen (f := fun s => switch f.data (inDispatch f op s))
        (k := fun t => .next { t with dstate := .idle })
        (fun s e => hswitch f.data (inDispatch f op s) e) (fun _ _ => rfl) s e
    · exact .refused _

theorem phase1_stepsAlike (received : Option BusFrame) : StepsAlike (phase1 received) := by
  intro s e
  unfold phase1 peerDispatch
  dsimp only
  split
  · exact rfl
  · next f =>
    split
    · split
      · exact dispatch_stepsAlike f peerSwitch_stepsAlike s e
      · exact rfl
    · exact dispatch_stepsAlike f coordSwitch_stepsAlike s e

theorem phase2_ignoresEnv : IgnoresEnv phase2 := by
  intro s e
  unfold phase2
  dsimp only
  split
  · exact (statusBeacon_ignoresEnv.comp (keepAlive_ignoresEnv.comp rampTick_ignoresEnv)) s e
  · exact rfl

theorem phase3_stepsAlike : StepsAlike phase3 := by
  intro s e
  unfold phase3 rxService
  dsimp only
  split
  · split
    · exact exec_stepsAlike _ { s with rxFifo := s.rxFifo.drop 10 } e
    · exact rfl
  · exact rfl

theorem iteration_stepsAlike (advance : BitVec 31) (received : Option BusFrame) :
    StepsAlike (iteration advance received) :=
  StepsAlike.andThen (fun s e => phase1_stepsAlike received (tick advance s) e)
    (fun s e => phase3_stepsAlike.alike (phase2_ignoresEnv s e))

/-! ### Host calls and the step -/

theorem onCoordinatorHost_stepsAlike {f : State → State} (hf : IgnoresEnv f) :
    StepsAlike fun s => onCoordinatorHost s (f s) := by
  intro s e
  unfold onCoordinatorHost
  dsimp only
  split
  · exact hf s e
  · exact .refused _

theorem onMotorHost_stepsAlike {f : State → State} (hf : IgnoresEnv f) :
    StepsAlike fun s => onMotorHost s (f s) := by
  intro s e
  unfold onMotorHost
  dsimp only
  split
  · exact hf s e
  · exact .refused _

theorem clientSend_stepsAlike (address : Addr) (command : Instr) :
    StepsAlike fun s => onCoordinatorHost s (clientSend address command s) :=
  onCoordinatorHost_stepsAlike fun _ _ => rfl

theorem hostCall_stepsAlike (call : HostCall) : StepsAlike (hostCall call) := by
  cases call with
  | get address pin isAnalog => exact onCoordinatorHost_stepsAlike (hostReturn_ignoresEnv ignoresEnv_self _)
  | requestAnalog address pin => exact clientSend_stepsAlike _ _
  | requestDigital address pin => exact clientSend_stepsAlike _ _
  | requestAllAnalog address => exact clientSend_stepsAlike _ _
  | requestAllDigital address => exact clientSend_stepsAlike _ _
  | setOutput address port on => exact clientSend_stepsAlike _ _
  | setMotorRpm address rpm => exact clientSend_stepsAlike _ _
  | setMotorDirection address clockwise => exact clientSend_stepsAlike _ _
  | stopMotor address => exact clientSend_stepsAlike _ _
  | requestMotorStatus address => exact clientSend_stepsAlike _ _
  | setRpm rpm => exact onMotorHost_stepsAlike (hostReturn_ignoresEnv (setRpm_ignoresEnv rpm) _)
  | setDirection direction => exact onMotorHost_stepsAlike (hostReturn_ignoresEnv (setDirection_ignoresEnv direction) _)
  | stop => exact onMotorHost_stepsAlike (hostReturn_ignoresEnv stopMotor_ignoresEnv _)
  | status => exact onMotorHost_stepsAlike (hostReturn_ignoresEnv ignoresEnv_self _)
  | inverterQuery query => exact StepsAlike.andThen (exec_stepsAlike (queryInstr query)) (fun _ _ => rfl)

theorem receiveByte_stepsAlike (b : Byte) : StepsAlike (receiveByte b) := by
  intro s e
  unfold receiveByte
  dsimp only
  split
  · rw [rxPush_spec, rxPush_spec]; exact rfl
  · exact .refused _

theorem runInput_stepsAlike (i : Input) : StepsAlike (runInput i) := by
  cases i with
  | iteration advance received => exact iteration_stepsAlike advance received
  | hostCall advance call => exact fun s e => hostCall_stepsAlike call (tick advance s) e
  | rxPush b => exact receiveByte_stepsAlike b
  | boot t0 => exact fun _ _ => rfl

/-- The listed outcomes of `BusSend` do not decide what happens next. -/
theorem Env.nextInput_sendAnswers (e : Env) (answers : List SendOutcome) :
    ({ e with sendAnswers := answers }.nextInput).1 = e.nextInput.1 := by
  cases hinputs : e.inputs <;> simp [Env.nextInput, hinputs]

/-- A legal node runs the next input of its environment. -/
theorem step_of_legal {s : State} (hlegal : s.cfg.Legal) (e : Env) :
    step { s with env := e } = runInput e.nextInput.1 { s with env := e.nextInput.2 } := if_pos hlegal

/-- Two nodes that differ in the listed outcomes of `BusSend` alone step alike. -/
theorem step_alike (s : State) (answers : List SendOutcome) :
    Alike (step s) (step { s with env := { s.env with sendAnswers := answers } }) := by
  by_cases hlegal : s.cfg.Legal
  · have hself : step s = runInput s.env.nextInput.1 { s with env := s.env.nextInput.2 } := step_of_legal hlegal s.env
    rw [hself, step_of_legal hlegal, Env.nextInput_sendAnswers s.env answers]
    exact (runInput_stepsAlike s.env.nextInput.1).of_envs s _ _
  · rw [step_illegal hlegal, step_illegal (s := { s with env := { s.env with sendAnswers := answers } }) hlegal]
    exact .refused _

/-- Settles O37, reading `step_alike` from the outcome of the one node. -/
theorem sendOutcomesChangeNoState : Obligations.SendOutcomesChangeNoState := by
  intro s answers s'
  have halike : Alike (step s) (step s') := step_alike s answers
  refine ⟨fun t hnext => ?next, fun r hrefused => ?refused⟩
  case next =>
    rw [hnext] at halike
    cases hother : step s' with
    | next t' => rw [hother] at halike; exact ⟨t', rfl, halike⟩
    | fault r => exact nomatch r
    | refused r => rw [hother] at halike; exact absurd halike id
  case refused =>
    rw [hrefused] at halike
    cases hother : step s' with
    | next t' => rw [hother] at halike; exact absurd halike id
    | fault r => exact nomatch r
    | refused r' => rw [hother] at halike; exact congrArg _ (Eq.symm halike)

end Sys2Proof.Machine
end

section
/-! The calls of a step (R131, R152, R188, R335): how many frames it hands to the bus and to the serial line, and which. Bounds
are added up over the operations and the phases of an iteration. -/

namespace Sys2Proof.Machine

/-! ### Calls within bounds -/

/-- A frame and a timeout that a node hands to the bus: an encoded operation of its role's direction, a peer's under its own
address (R101, R113, R188). -/
def MaySend (c : Config) (f : BusFrame) (timeout : Nat) : Prop :=
  timeout = c.sendTimeout ∧ ∃ i op, i.busOp = some op ∧ f.data = encode c i ∧ 1 ≤ f.data.length ∧ f.data.length ≤ 7 ∧
    (c.role = .peer → f.address = c.selfAddress ∧ op.isCommand = false) ∧
    (c.role = .coordinator → op.isCommand = true)

/-- Bytes that a node hands to the serial line: a command frame of a node with a motor (R131, R277). -/
def MayEmit (c : Config) (bytes : List Byte) : Prop :=
  c.hasMotor = true ∧ ∃ cmd speed, bytes = buildCommandFrame c cmd speed ∧
    (cmd = 0x14#8 ∨ cmd = 0x18#8 ∨
      (c.hostInverterQueries = true ∧ speed = 0#16 ∧ (cmd = 0x27#8 ∨ cmd = 0xB0#8 ∨ cmd = 0xA0#8)))

/-- At most `bus` transmit attempts and `serial` serial frames, all of them of the kinds a node makes. -/
structure CallsWithin (c : Config) (bus serial : Nat) (calls : List Observation) : Prop where
  bus_count : calls.countP Observation.isBusSend ≤ bus
  serial_count : calls.countP Observation.isSerialSend ≤ serial
  sends : ∀ f timeout outcome, Observation.busSend f timeout outcome ∈ calls → MaySend c f timeout
  emits : ∀ bytes, Observation.serialSend bytes ∈ calls → MayEmit c bytes

theorem CallsWithin.append {c : Config} {bus bus' serial serial' : Nat} {calls calls' : List Observation}
    (h : CallsWithin c bus serial calls) (h' : CallsWithin c bus' serial' calls') :
    CallsWithin c (bus + bus') (serial + serial') (calls ++ calls') where
  bus_count := by rw [List.countP_append]; exact Nat.add_le_add h.bus_count h'.bus_count
  serial_count := by rw [List.countP_append]; exact Nat.add_le_add h.serial_count h'.serial_count
  sends f timeout outcome hmem := (List.mem_append.1 hmem).elim (h.sends f timeout outcome) (h'.sends f timeout outcome)
  emits bytes hmem := (List.mem_append.1 hmem).elim (h.emits bytes) (h'.emits bytes)

theorem CallsWithin.mono {c : Config} {bus bus' serial serial' : Nat} {calls : List Observation}
    (h : CallsWithin c bus serial calls) (hbus : bus ≤ bus') (hserial : serial ≤ serial') :
    CallsWithin c bus' serial' calls :=
  ⟨h.bus_count.trans hbus, h.serial_count.trans hserial, h.sends, h.emits⟩

/-- Calls of other kinds count nothing. -/
theorem CallsWithin.of_other {c : Config} {calls : List Observation}
    (h : ∀ o ∈ calls, o.isBusSend = false ∧ o.isSerialSend = false) : CallsWithin c 0 0 calls where
  bus_count := (List.countP_eq_zero.2 fun o ho => by simp [(h o ho).1]).le
  serial_count := (List.countP_eq_zero.2 fun o ho => by simp [(h o ho).2]).le
  sends _ _ _ hmem := Bool.noConfusion (h _ hmem).1
  emits _ hmem := Bool.noConfusion (h _ hmem).2

theorem CallsWithin.nil (c : Config) : CallsWithin c 0 0 [] := .of_other nofun

theorem CallsWithin.emit {c : Config} {bytes : List Byte} (h : MayEmit c bytes) :
    CallsWithin c 0 1 [.serialSend bytes] where
  bus_count := le_rfl
  serial_count := le_rfl
  sends _ _ _ hmem := by simp at hmem
  emits _ hmem := by
    obtain rfl : _ = bytes := by simpa using hmem
    exact h

/-- One `SendWithRetry` is at most two attempts of its frame (R154). -/
theorem SendTrace.within {c : Config} {f : BusFrame} {tr : List Observation} {r : SendResult}
    (h : SendTrace f c.sendTimeout tr r) (hf : MaySend c f c.sendTimeout) : CallsWithin c 2 0 tr where
  bus_count := h.countP_isBusSend_le
  serial_count := by
    obtain ⟨rfl, -⟩ | ⟨rfl, -⟩ | ⟨rfl, -⟩ | ⟨r2, -, -, rfl⟩ | ⟨r2, -, -, rfl⟩ := h <;> exact le_rfl
  sends g timeout outcome hmem := by
    obtain ⟨rfl, rfl⟩ : g = f ∧ timeout = c.sendTimeout := by
      obtain ⟨rfl, -⟩ | ⟨rfl, -⟩ | ⟨rfl, -⟩ | ⟨r2, -, -, rfl⟩ | ⟨r2, -, -, rfl⟩ := h <;> simp at hmem <;> tauto
    exact hf
  emits bytes hmem := by
    obtain ⟨rfl, -⟩ | ⟨rfl, -⟩ | ⟨rfl, -⟩ | ⟨r2, -, -, rfl⟩ | ⟨r2, -, -, rfl⟩ := h <;> simp at hmem

/-- Several frames, each by its own `SendWithRetry` (R172). -/
theorem SendTraces.within {c : Config} {fs : List BusFrame} {trs : List Observation}
    (h : SendTraces c.sendTimeout fs trs) (hfs : ∀ f ∈ fs, MaySend c f c.sendTimeout) :
    CallsWithin c (2 * fs.length) 0 trs := by
  induction h with
  | nil => exact .nil c
  | cons f fs tr trs r htrace _ ih =>
    have hfirst := htrace.within (hfs f List.mem_cons_self)
    exact (hfirst.append (ih fun g hg => hfs g (List.mem_cons_of_mem f hg))).mono
      (by rw [List.length_cons]; omega) le_rfl

/-! ### Operations that make calls -/

/-- From `s` to `t`, on one configuration, calls within the bounds were made. -/
def Makes (bus serial : Nat) (s t : State) : Prop :=
  t.cfg = s.cfg ∧ ∃ calls, t.env.trace = s.env.trace ++ calls ∧ CallsWithin s.cfg bus serial calls

theorem Makes.of_observed {bus serial : Nat} {s t : State} {calls : List Observation}
    (h : Observed s t calls) (hcfg : t.cfg = s.cfg) (hcalls : CallsWithin s.cfg bus serial calls) : Makes bus serial s t :=
  ⟨hcfg, calls, h.1, hcalls⟩

/-- Nothing was called. -/
theorem Makes.silent {s t : State} (hcfg : t.cfg = s.cfg) (htrace : t.env.trace = s.env.trace) : Makes 0 0 s t :=
  ⟨hcfg, [], by rw [htrace, List.append_nil], .nil s.cfg⟩

theorem Makes.trans {bus bus' serial serial' : Nat} {s u t : State} (h : Makes bus serial s u)
    (h' : Makes bus' serial' u t) : Makes (bus + bus') (serial + serial') s t := by
  obtain ⟨hcfg, calls, htrace, hcalls⟩ := h
  obtain ⟨hcfg', calls', htrace', hcalls'⟩ := h'
  exact ⟨hcfg'.trans hcfg, calls ++ calls', by rw [htrace', htrace, List.append_assoc],
    hcalls.append (hcfg ▸ hcalls')⟩

/-- What was called after nothing. -/
theorem Makes.after_silent {bus serial : Nat} {s u t : State} (h : Makes 0 0 s u) (h' : Makes bus serial u t) :
    Makes bus serial s t := by simpa using h.trans h'

theorem Makes.mono {bus bus' serial serial' : Nat} {s t : State} (h : Makes bus serial s t) (hbus : bus ≤ bus')
    (hserial : serial ≤ serial') : Makes bus' serial' s t := by
  obtain ⟨hcfg, calls, htrace, hcalls⟩ := h
  exact ⟨hcfg, calls, htrace, hcalls.mono hbus hserial⟩

/-- One call of another kind. -/
theorem observe_makes {o : Observation} (hbus : o.isBusSend = false) (hserial : o.isSerialSend = false) (s : State) :
    Makes 0 0 s (observe o s) := by
  refine .of_observed (observe_observed o s) rfl (.of_other fun o' ho' => ?_)
  obtain rfl : o' = o := by simpa using ho'
  exact ⟨hbus, hserial⟩

/-- A peer's frame: a response under its own address. -/
theorem maySend_response {c : Config} (hpeer : c.role = .peer) {i : Instr} {op : BusOp} (hop : i.busOp = some op)
    (hresponse : op.isCommand = false) : MaySend c ⟨c.selfAddress, encode c i⟩ c.sendTimeout := by
  obtain ⟨hcons, -, hmax⟩ := encode_bus c hop
  exact ⟨rfl, i, op, hop, rfl, by rw [hcons]; simp, hmax, fun _ => ⟨rfl, hresponse⟩, by simp [hpeer]⟩

/-- A coordinator's frame: a command. -/
theorem maySend_command {c : Config} (hcoord : c.role = .coordinator) {i : Instr} {op : BusOp}
    (hop : i.busOp = some op) (hcommand : op.isCommand = true) (address : Addr) :
    MaySend c ⟨address, encode c i⟩ c.sendTimeout := by
  obtain ⟨hcons, -, hmax⟩ := encode_bus c hop
  exact ⟨rfl, i, op, hop, rfl, by rw [hcons]; simp, hmax, by simp [hcoord], fun _ => hcommand⟩

theorem replyWith_makes {s : State} (hpeer : s.cfg.role = .peer) {i : Instr} {op : BusOp} (hop : i.busOp = some op)
    (hresponse : op.isCommand = false) : Makes 2 0 s (replyWith i s) := by
  obtain ⟨-, tr, r, htrace, hobserved⟩ := replyWith_spec i s
  exact .of_observed hobserved rfl (htrace.within (maySend_response hpeer hop hresponse))

/-- A reply after other calls. -/
theorem Makes.then_reply {serial : Nat} {s u : State} (h : Makes 0 serial s u) (hpeer : s.cfg.role = .peer) {i : Instr}
    {op : BusOp} (hop : i.busOp = some op) (hresponse : op.isCommand = false) : Makes 2 serial s (replyWith i u) := by
  have hreply := replyWith_makes (s := u) (by rw [h.1, hpeer]) hop hresponse
  simpa using h.trans hreply

theorem raiseProtocolError_makes {s : State} (hpeer : s.cfg.role = .peer) (subject code : Byte) :
    Makes 2 0 s (raiseProtocolError subject code s) :=
  replyWith_makes (i := .errorResponse subject code) hpeer rfl rfl

theorem replyAll_packAllAnalog_makes {s : State} (hpeer : s.cfg.role = .peer) (readings : List AnalogReading) :
    Makes (2 * ((readings.length + 1) / 2)) 0 s (replyAll (packAllAnalog readings) s) := by
  obtain ⟨honly, trs, htraces, hobserved⟩ := replyAll_spec (packAllAnalog readings) s
  have hcalls := htraces.within (c := s.cfg) fun f hf => by
    obtain ⟨i, hi, rfl⟩ := List.mem_map.1 hf
    obtain ⟨a, second, rfl⟩ := mem_packAllAnalog hi
    exact maySend_response hpeer (i := .allAnalogData a second) rfl rfl
  rw [List.length_map, length_packAllAnalog] at hcalls
  exact .of_observed hobserved (by rw [honly]) hcalls

/-- A command byte of rule R301 may be sent with any speed. -/
theorem mayEmit_direction {c : Config} (hmotor : c.hasMotor = true) (d : Direction) (speed : Half) :
    MayEmit c (buildCommandFrame c (commandByte d) speed) := by
  refine ⟨hmotor, commandByte d, speed, rfl, ?_⟩
  cases d with
  | cw => exact .inl rfl
  | ccw => exact .inr (.inl rfl)

theorem emitInverterCommand_makes {s : State} (hmotor : s.cfg.hasMotor = true) :
    Makes 0 1 s (emitInverterCommand s) :=
  .of_observed (emitInverterCommand_spec s).2 rfl (.emit (mayEmit_direction hmotor _ _))

theorem MotorCall.makes {s t : State} (h : MotorCall s t) (hmotor : s.cfg.hasMotor = true) : Makes 0 1 s t := by
  cases h with
  | setRpm r =>
    unfold Machine.setRpm
    split
    · exact emitInverterCommand_makes hmotor
    · exact (Makes.silent rfl rfl).mono le_rfl (Nat.zero_le 1)
  | setDirection d => exact emitInverterCommand_makes hmotor
  | stop => exact emitInverterCommand_makes hmotor

theorem sampleAnalog_makes (pin : Byte) (s : State) : Makes 0 0 s (sampleAnalog pin s).2 :=
  .of_observed (sampleAnalog_observed pin s) rfl (.of_other (by simp [Observation.isBusSend, Observation.isSerialSend]))

theorem sampleDigital_makes (pin : Byte) (s : State) : Makes 0 0 s (sampleDigital pin s).2 :=
  .of_observed (sampleDigital_observed pin s) rfl (.of_other (by simp [Observation.isBusSend, Observation.isSerialSend]))

theorem sampleAnalogPins_makes (pins : List Byte) (s : State) : Makes 0 0 s (sampleAnalogPins pins s).2 := by
  induction pins generalizing s with
  | nil => exact .silent rfl rfl
  | cons pin pins ih => exact (sampleAnalog_makes pin s).trans (ih (sampleAnalog pin s).2)

theorem sampleDigitalPins_makes (pins : List Byte) (s : State) : Makes 0 0 s (sampleDigitalPins pins s).2 := by
  induction pins generalizing s with
  | nil => exact .silent rfl rfl
  | cons pin pins ih => exact (sampleDigital_makes pin s).trans (ih (sampleDigital pin s).2)

/-! ### Meanings -/

/-- A bound on attempts that is a peer's alone: a coordinator sends nothing on its own (R220). -/
def peerBound (c : Config) (n : Nat) : Nat := if c.role = .peer then n else 0

theorem peerBound_peer {c : Config} (hpeer : c.role = .peer) (n : Nat) : peerBound c n = n := if_pos hpeer

/-- The attempts of one meaning: one reply, or the frames of `READ_ALL_ANALOG`, each tried at most twice (R335). -/
def replyBound (c : Config) : Nat := peerBound c (2 * max 1 ((c.nAnalog + 1) / 2))

theorem two_le_replyBound {c : Config} (hpeer : c.role = .peer) : 2 ≤ replyBound c := by
  rw [replyBound, peerBound_peer hpeer]
  omega

/-- One reply is within the bounds of a meaning. -/
theorem Makes.reply {serial : Nat} {s t : State} (h : Makes 2 serial s t) (hpeer : s.cfg.role = .peer)
    (hserial : serial ≤ 1) : Makes (replyBound s.cfg) 1 s t := h.mono (two_le_replyBound hpeer) hserial

theorem Makes.none {s t : State} (h : Makes 0 0 s t) : Makes (replyBound s.cfg) 1 s t :=
  h.mono (Nat.zero_le _) (Nat.zero_le 1)

theorem onPeer_makes {s body t : State} (h : onPeer s body = .next t)
    (hb : s.cfg.role = .peer → Makes (replyBound s.cfg) 1 s body) : Makes (replyBound s.cfg) 1 s t := by
  cases h
  split
  · next hpeer => exact hb hpeer
  · exact (Makes.silent rfl rfl).none

theorem onMotorPeer_makes {op : BusOp} {s body t : State} (h : onMotorPeer op s body = .next t)
    (hb : s.cfg.role = .peer → s.cfg.hasMotor = true → Makes 2 1 s body) : Makes (replyBound s.cfg) 1 s t := by
  cases h
  split
  · next hpeer =>
    split
    · next hmotor => exact (hb hpeer hmotor).reply hpeer le_rfl
    · exact (raiseProtocolError_makes hpeer _ _).reply hpeer (Nat.zero_le 1)
  · exact (Makes.silent rfl rfl).none

theorem onCoordinator_makes {op : BusOp} {s body t : State} (h : onCoordinator op s body = .next t)
    (hb : Makes 0 0 s body) : Makes (replyBound s.cfg) 1 s t := by
  cases h
  split
  · exact hb.none
  · next hrole =>
    have hpeer : s.cfg.role = .peer := by
      cases hr : s.cfg.role with
      | peer => rfl
      | coordinator => exact absurd hr hrole
    exact (raiseProtocolError_makes hpeer _ _).reply hpeer (Nat.zero_le 1)

theorem switchOutput_makes {s : State} (hpeer : s.cfg.role = .peer) (port : Byte) (level : Level) {ack : Instr}
    {op : BusOp} (hop : ack.busOp = some op) (hresponse : op.isCommand = false) :
    Makes (replyBound s.cfg) 1 s (switchOutput port level ack s) := by
  unfold switchOutput
  split
  · have hdrive : Makes 0 0 s (driveOutput port level s) :=
      .of_observed (driveOutput_spec port level s).1 rfl
        (.of_other (by simp [Observation.isBusSend, Observation.isSerialSend]))
    exact (hdrive.then_reply hpeer hop hresponse).reply hpeer (Nat.zero_le 1)
  · exact (raiseProtocolError_makes hpeer _ _).reply hpeer (Nat.zero_le 1)

theorem readAnalogPin_makes {s : State} (hpeer : s.cfg.role = .peer) (pin : Byte) :
    Makes (replyBound s.cfg) 1 s (readAnalogPin pin s) := by
  unfold readAnalogPin
  split
  · exact ((sampleAnalog_makes pin s).then_reply hpeer rfl rfl).reply hpeer (Nat.zero_le 1)
  · exact (raiseProtocolError_makes hpeer _ _).reply hpeer (Nat.zero_le 1)

theorem readDigitalPin_makes {s : State} (hpeer : s.cfg.role = .peer) (pin : Byte) :
    Makes (replyBound s.cfg) 1 s (readDigitalPin pin s) := by
  unfold readDigitalPin
  split
  · exact ((sampleDigital_makes pin s).then_reply hpeer rfl rfl).reply hpeer (Nat.zero_le 1)
  · exact (raiseProtocolError_makes hpeer _ _).reply hpeer (Nat.zero_le 1)

theorem readAllAnalogPins_makes {s : State} (hpeer : s.cfg.role = .peer) :
    Makes (replyBound s.cfg) 1 s (readAllAnalogPins s) := by
  have hsample := sampleAnalogPins_makes (pinsBelow s.cfg.nAnalog) s
  have hsend := replyAll_packAllAnalog_makes (s := (sampleAnalogPins (pinsBelow s.cfg.nAnalog) s).2)
    (by rw [hsample.1, hpeer]) (sampleAnalogPins (pinsBelow s.cfg.nAnalog) s).1
  refine (hsample.after_silent hsend).mono ?_ (Nat.zero_le 1)
  rw [sampleAnalogPins_readings, replyBound, peerBound_peer hpeer]
  simp

theorem readAllDigitalPins_makes {s : State} (hpeer : s.cfg.role = .peer) :
    Makes (replyBound s.cfg) 1 s (readAllDigitalPins s) := by
  exact ((sampleDigitalPins_makes (pinsBelow s.cfg.nDigital) s).then_reply hpeer rfl rfl).reply hpeer (Nat.zero_le 1)

theorem responseEvent_makes (r : Response) (s : State) : Makes 0 0 s (responseEvent r s) :=
  observe_makes rfl rfl s

theorem sendCommand_makes {cmd : Byte} {speed : Half} {s t : State} (h : sendCommand cmd speed s = .next t)
    (hcmd : s.cfg.hasMotor = true → MayEmit s.cfg (buildCommandFrame s.cfg cmd speed)) :
    Makes (replyBound s.cfg) 1 s t := by
  by_cases hmotor : s.cfg.hasMotor = true
  · rw [sendCommand_of_hasMotor hmotor] at h
    cases h
    exact (Makes.of_observed (observe_observed _ s) rfl (.emit (hcmd hmotor))).mono (Nat.zero_le _) le_rfl
  · rw [sendCommand_of_no_motor (by simpa using hmotor)] at h
    cases h

theorem sendQuery_makes {cmd : Byte} {speed : Half} {s t : State} (h : sendQuery cmd speed s = .next t)
    (hcmd : cmd = 0x27#8 ∨ cmd = 0xB0#8 ∨ cmd = 0xA0#8) : Makes (replyBound s.cfg) 1 s t := by
  unfold sendQuery at h
  split at h
  · next hgiven =>
    split at h
    · exact sendCommand_makes h fun hmotor => ⟨hmotor, cmd, 0#16, rfl, .inr (.inr ⟨hgiven, rfl, hcmd⟩)⟩
    · cases h
  · cases h

/-- The calls of a meaning: at most one inverter frame, and at a peer the attempts of `replyBound`. -/
theorem exec_makes {i : Instr} {s t : State} (h : exec i s = .next t) : Makes (replyBound s.cfg) 1 s t := by
  cases i with
  | activate port => exact onPeer_makes h fun hpeer => switchOutput_makes hpeer port .on rfl rfl
  | deactivate port => exact onPeer_makes h fun hpeer => switchOutput_makes hpeer port .off rfl rfl
  | readAnalog pin => exact onPeer_makes h fun hpeer => readAnalogPin_makes hpeer pin
  | readDigital pin => exact onPeer_makes h fun hpeer => readDigitalPin_makes hpeer pin
  | readAllAnalog => exact onPeer_makes h readAllAnalogPins_makes
  | readAllDigital => exact onPeer_makes h readAllDigitalPins_makes
  | motorSetRpm rpm =>
    exact onMotorPeer_makes h fun hpeer hmotor =>
      ((MotorCall.setRpm rpm).makes hmotor).then_reply hpeer (i := .ackMotorRpm _ ackStatus) rfl rfl
  | motorSetDir clockwise =>
    exact onMotorPeer_makes h fun hpeer hmotor =>
      ((MotorCall.setDirection _).makes hmotor).then_reply hpeer (i := .ackMotorDir _ ackStatus) rfl rfl
  | motorStop =>
    exact onMotorPeer_makes h fun hpeer hmotor =>
      (MotorCall.stop.makes hmotor).then_reply hpeer (i := .ackMotorStop ackStatus) rfl rfl
  | motorStatus =>
    exact onMotorPeer_makes h fun hpeer _ =>
      (replyWith_makes (i := statusInstr s) hpeer rfl rfl).mono le_rfl (Nat.zero_le 1)
  | ackActivate port status => exact onCoordinator_makes h (responseEvent_makes _ s)
  | ackDeactivate port status => exact onCoordinator_makes h (responseEvent_makes _ s)
  | analogData pin value =>
    exact onCoordinator_makes h (by rw [storeAnalog_frame]; exact .silent rfl rfl)
  | digitalData pin high =>
    exact onCoordinator_makes h (by rw [storeDigital_frame]; exact .silent rfl rfl)
  | allAnalogData first second =>
    exact onCoordinator_makes h (by rw [storeReadings_frame]; exact .silent rfl rfl)
  | allDigitalData bits =>
    exact onCoordinator_makes h (by rw [storeLevels_frame]; exact .silent rfl rfl)
  | ackMotorRpm rpm status => exact onCoordinator_makes h (responseEvent_makes _ s)
  | ackMotorDir dir status => exact onCoordinator_makes h (responseEvent_makes _ s)
  | ackMotorStop status => exact onCoordinator_makes h (responseEvent_makes _ s)
  | motorStatusData actualRpm dir setRpm fault => exact onCoordinator_makes h (responseEvent_makes _ s)
  | errorResponse subject code => exact onCoordinator_makes h (responseEvent_makes _ s)
  | invCw speed => exact sendCommand_makes h fun hmotor => mayEmit_direction hmotor .cw speed
  | invCcw speed => exact sendCommand_makes h fun hmotor => mayEmit_direction hmotor .ccw speed
  | invUnbalanceQuery speed => exact sendQuery_makes h (.inl rfl)
  | invLoadQuery speed => exact sendQuery_makes h (.inr (.inl rfl))
  | invAccelProfile speed => exact sendQuery_makes h (.inr (.inr rfl))
  | invReply cls echo actual byte4 fault byte6 byte7 crc =>
    simp only [exec, execInvReply] at h
    split at h
    · cases h
      split
      · exact (Makes.silent rfl rfl).none
      · exact (Makes.silent rfl rfl).none
    · cases h

/-! ### Phases -/

theorem peerSwitch_makes {data : List Byte} {s t : State} (hpeer : s.cfg.role = .peer)
    (h : peerSwitch data s = .next t) : Makes (replyBound s.cfg) 1 s t := by
  have herror := fun subject code => (raiseProtocolError_makes hpeer subject code).reply hpeer (Nat.zero_le 1)
  unfold peerSwitch at h
  split at h
  · exact exec_makes h
  · cases h; exact herror _ _
  · cases h
    split
    · exact herror _ _
    · exact herror _ _
  · cases h

theorem coordSwitch_makes {data : List Byte} {s t : State} (h : coordSwitch data s = .next t) :
    Makes (replyBound s.cfg) 1 s t := by
  unfold coordSwitch at h
  split at h
  · exact exec_makes h
  · cases h; exact (Makes.silent rfl rfl).none

theorem phase1_makes {received : Option BusFrame} {s t : State} (h : phase1 received s = .next t) :
    Makes (replyBound s.cfg) 1 s t := by
  cases received with
  | none => cases h; exact (Makes.silent rfl rfl).none
  | some f =>
    cases hrole : s.cfg.role with
    | peer =>
      by_cases hown : f.address = s.cfg.selfAddress
      · rw [phase1_own_address hrole hown, dispatch_next] at h
        obtain ⟨op, rest, u, -, -, hswitch, rfl⟩ := h
        exact peerSwitch_makes (s := inDispatch f op s) (t := u) hrole hswitch
      · rw [phase1_other_address hrole hown] at h
        cases h
        exact (Makes.silent rfl rfl).none
    | coordinator =>
      rw [phase1_coordinator hrole, dispatch_next] at h
      obtain ⟨op, rest, u, -, -, hswitch, rfl⟩ := h
      exact coordSwitch_makes (s := inDispatch f op s) (t := u) hswitch

theorem rampTick_makes {s : State} (hmotor : s.cfg.hasMotor = true) : Makes 0 1 s (rampTick s) := by
  by_cases hdue : s.decelerating = true ∧ s.cfg.decelInterval ≤ elapsed s.now s.lastStepTime
  · rw [rampTick_due hdue.1 hdue.2, rampStep]
    split
    · exact emitInverterCommand_makes hmotor
    · exact emitInverterCommand_makes hmotor
  · rw [rampTick_not_due (by simpa [imp_iff_not_or] using hdue)]
    exact (Makes.silent rfl rfl).mono le_rfl (Nat.zero_le 1)

theorem keepAlive_makes {s : State} (hmotor : s.cfg.hasMotor = true) : Makes 0 1 s (keepAlive s) := by
  unfold keepAlive
  split
  · exact emitInverterCommand_makes hmotor
  · exact (Makes.silent rfl rfl).mono le_rfl (Nat.zero_le 1)

theorem statusBeacon_makes {s : State} (hpeer : s.cfg.role = .peer) : Makes 2 0 s (statusBeacon s) := by
  unfold statusBeacon
  split
  · exact replyWith_makes (i := statusInstr s) (s := { s with lastStatus := s.now }) hpeer rfl rfl
  · exact (Makes.silent rfl rfl).mono (Nat.zero_le 2) le_rfl

/-- A node with a motor is a peer (R371). -/
theorem legal_peer_of_hasMotor {c : Config} (h : c.Legal) (hmotor : c.hasMotor = true) : c.role = .peer := by
  cases hrole : c.role with
  | peer => rfl
  | coordinator =>
    obtain ⟨-, -, -, hnone⟩ := legal_coordinator h hrole
    rw [hmotor] at hnone
    cases hnone

/-- Phase 2: a ramp step, a keep-alive and a status frame at most. -/
theorem phase2_makes {s : State} (hlegal : s.cfg.Legal) : Makes (peerBound s.cfg 2) 2 s (phase2 s) := by
  by_cases hmotor : s.cfg.hasMotor = true
  · have hpeer := legal_peer_of_hasMotor hlegal hmotor
    have hramp := rampTick_makes hmotor
    have halive := keepAlive_makes (s := rampTick s) (by rwa [hramp.1])
    have hbeacon := statusBeacon_makes (s := keepAlive (rampTick s)) (by rwa [halive.1, hramp.1])
    rw [phase2_of_hasMotor hmotor, peerBound_peer hpeer]
    exact (hramp.trans halive).trans hbeacon
  · rw [phase2_of_no_motor (by simpa using hmotor)]
    exact (Makes.silent rfl rfl).mono (Nat.zero_le _) (Nat.zero_le 2)

theorem phase3_makes {s t : State} (h : phase3 s = .next t) : Makes 0 0 s t := by
  obtain hwaits | ⟨-, -, hdropped | ⟨_, _, _, _, haccepted⟩⟩ := phase3_cases s
  · cases h.symm.trans hwaits; exact .silent rfl rfl
  · cases h.symm.trans hdropped; exact .silent rfl rfl
  · cases h.symm.trans haccepted; exact .silent rfl rfl

/-- The calls of an iteration: those of its frame's meaning and of phase 2. -/
theorem iteration_makes {advance : BitVec 31} {received : Option BusFrame} {s t : State} (hlegal : s.cfg.Legal)
    (h : iteration advance received s = .next t) : Makes (replyBound s.cfg + peerBound s.cfg 2) 3 s t := by
  obtain ⟨u, hphase1, hphase3⟩ := iteration_next.1 h
  have hfirst : Makes (replyBound s.cfg) 1 s u := phase1_makes (s := tick advance s) hphase1
  have hsecond := phase2_makes (s := u) (by rwa [hfirst.1])
  rw [hfirst.1] at hsecond
  exact (hfirst.trans hsecond).trans (phase3_makes hphase3)

/-- Without a frame, those of phase 2 alone. -/
theorem iteration_none_makes {advance : BitVec 31} {s t : State} (hlegal : s.cfg.Legal)
    (h : iteration advance none s = .next t) : Makes (peerBound s.cfg 2) 2 s t := by
  rw [iteration_none] at h
  exact (phase2_makes (s := tick advance s) hlegal).trans (phase3_makes h)

/-! ### Host calls and the step -/

theorem hostReturn_makes {bus serial : Nat} {s t : State} (h : Makes bus serial s t) (r : HostResult) :
    Makes bus serial s (hostReturn r t) :=
  h.trans (observe_makes rfl rfl t)

theorem onCoordinatorHost_makes {s body t : State} (h : onCoordinatorHost s body = .next t)
    (hb : s.cfg.role = .coordinator → Makes 2 0 s body) : ∃ bus serial, Makes bus serial s t := by
  obtain ⟨hcoord, rfl⟩ := onCoordinatorHost_next.1 h
  exact ⟨2, 0, hb hcoord⟩

theorem onMotorHost_makes {s body t : State} (h : onMotorHost s body = .next t)
    (hb : s.cfg.hasMotor = true → Makes 0 1 s body) : ∃ bus serial, Makes bus serial s t := by
  obtain ⟨⟨-, hmotor⟩, rfl⟩ := onMotorHost_next.1 h
  exact ⟨0, 1, hb hmotor⟩

theorem clientSend_makes {s : State} (hcoord : s.cfg.role = .coordinator) (address : Addr) {i : Instr} {op : BusOp}
    (hop : i.busOp = some op) (hcommand : op.isCommand = true) : Makes 2 0 s (clientSend address i s) := by
  obtain ⟨tr, htrace, hobserved⟩ := sendFrame_spec ⟨address, encode s.cfg i⟩ s
  have hsent : Makes 2 0 s (sendFrame ⟨address, encode s.cfg i⟩ s) :=
    .of_observed hobserved rfl (htrace.within (maySend_command hcoord hop hcommand address))
  exact hostReturn_makes hsent _

theorem hostCall_makes {call : HostCall} {s t : State} (h : hostCall call s = .next t) :
    ∃ bus serial, Makes bus serial s t := by
  cases call with
  | get address pin isAnalog =>
    exact onCoordinatorHost_makes h fun _ =>
      hostReturn_makes ((Makes.silent rfl rfl).mono (Nat.zero_le 2) le_rfl) _
  | requestAnalog address pin => exact onCoordinatorHost_makes h fun hcoord => clientSend_makes hcoord address rfl rfl
  | requestDigital address pin => exact onCoordinatorHost_makes h fun hcoord => clientSend_makes hcoord address rfl rfl
  | requestAllAnalog address => exact onCoordinatorHost_makes h fun hcoord => clientSend_makes hcoord address rfl rfl
  | requestAllDigital address => exact onCoordinatorHost_makes h fun hcoord => clientSend_makes hcoord address rfl rfl
  | setOutput address port on =>
    refine onCoordinatorHost_makes h fun hcoord => ?_
    cases on with
    | true => exact clientSend_makes hcoord address (i := .activate port) rfl rfl
    | false => exact clientSend_makes hcoord address (i := .deactivate port) rfl rfl
  | setMotorRpm address rpm => exact onCoordinatorHost_makes h fun hcoord => clientSend_makes hcoord address rfl rfl
  | setMotorDirection address clockwise =>
    exact onCoordinatorHost_makes h fun hcoord => clientSend_makes hcoord address rfl rfl
  | stopMotor address => exact onCoordinatorHost_makes h fun hcoord => clientSend_makes hcoord address rfl rfl
  | requestMotorStatus address => exact onCoordinatorHost_makes h fun hcoord => clientSend_makes hcoord address rfl rfl
  | setRpm rpm => exact onMotorHost_makes h fun hmotor => hostReturn_makes ((MotorCall.setRpm rpm).makes hmotor) _
  | setDirection d => exact onMotorHost_makes h fun hmotor => hostReturn_makes ((MotorCall.setDirection d).makes hmotor) _
  | stop => exact onMotorHost_makes h fun hmotor => hostReturn_makes (MotorCall.stop.makes hmotor) _
  | status =>
    exact onMotorHost_makes h fun _ => hostReturn_makes ((Makes.silent rfl rfl).mono le_rfl (Nat.zero_le 1)) _
  | inverterQuery query =>
    obtain ⟨u, hu, hreturn⟩ := andThen_next.1 h
    cases hreturn
    exact ⟨_, _, hostReturn_makes (exec_makes hu) _⟩

/-- The calls of a step are of the kinds a node makes; a coordinator's iteration makes no transmit attempt (R220). -/
theorem step_makes {s t : State} (h : step s = .next t) : ∃ bus serial, Makes bus serial s t ∧
    (s.cfg.role = .coordinator → ∀ advance received, s.env.nextInput.1 = .iteration advance received → bus = 0) := by
  obtain ⟨hlegal, hrun⟩ := step_next.1 h
  have hinput : Makes 0 0 s { s with env := s.env.nextInput.2 } := .silent rfl s.env.nextInput_keeps.1
  cases hi : s.env.nextInput.1 with
  | iteration advance received =>
    rw [hi] at hrun
    have hmakes := iteration_makes (s := { s with env := s.env.nextInput.2 }) hlegal hrun
    refine ⟨_, _, hinput.trans hmakes, fun hcoord _ _ _ => ?_⟩
    simp [replyBound, peerBound, hcoord]
  | hostCall advance call =>
    rw [hi] at hrun
    obtain ⟨bus, serial, hmakes⟩ := hostCall_makes hrun
    exact ⟨_, _, hinput.trans hmakes, fun _ _ _ hne => nomatch hne⟩
  | rxPush b =>
    rw [hi] at hrun
    obtain ⟨-, rfl⟩ := receiveByte_next hrun
    refine ⟨_, _, hinput.trans (Makes.silent ?_ ?_), fun _ _ _ hne => nomatch hne⟩
    · rw [rxPush_spec]
    · rw [rxPush_spec]
  | boot t0 =>
    rw [step_boot h hi]
    exact ⟨_, _, Makes.silent rfl s.env.nextInput_keeps.1, fun _ _ _ hne => nomatch hne⟩

/-- Settles O55: what every call of a step on the serial line is. -/
theorem serialFramesAreCommands : Obligations.SerialFramesAreCommands := by
  intro s t hstep
  obtain ⟨_, _, ⟨-, calls, htrace, hcalls⟩, -⟩ := step_makes hstep
  exact ⟨calls, htrace, hcalls.emits⟩

/-- Settles O56: what every call of a step on the bus is, and that the bound of a coordinator's iteration is 0. -/
theorem busFramesByRole : Obligations.BusFramesByRole := by
  intro s t hstep
  obtain ⟨bus, _, ⟨-, calls, htrace, hcalls⟩, hnone⟩ := step_makes hstep
  refine ⟨calls, htrace, hcalls.sends, fun hcoord advance received hinput => ?_⟩
  have hzero := hcalls.bus_count
  rw [hnone hcoord advance received hinput] at hzero
  exact Nat.le_zero.1 hzero

/-! ### The receive FIFO in an iteration -/

theorem Effect.rxFifo {s t : State} (h : Effect s t) : t.rxFifo = s.rxFifo := by
  cases h with
  | calls env d _ => rfl
  | latch port level env _ _ => rfl
  | readings rs _ => rw [storeReadings_frame]
  | levels ls i _ => rw [storeLevels_frame]
  | motor u env _ _ hcall => exact hcall.rxFifo
  | link cls echo actual fault _ => rfl

theorem phase1_rxFifo {received : Option BusFrame} {s t : State} (h : phase1 received s = .next t) :
    t.rxFifo = s.rxFifo := by
  obtain rfl | ⟨f, op, u, -, -, heffect, rfl⟩ := phase1_next h
  · rfl
  · exact heffect.rxFifo

/-- An iteration takes ten bytes or none (R308, R335). -/
theorem iteration_rxFifo {advance : BitVec 31} {received : Option BusFrame} {s t : State}
    (h : iteration advance received s = .next t) :
    t.rxFifo = s.rxFifo ∨ (10 ≤ s.rxFifo.length ∧ t.rxFifo = s.rxFifo.drop 10) := by
  obtain ⟨u, hphase1, hphase3⟩ := iteration_next.1 h
  have hfifo : (phase2 u).rxFifo = s.rxFifo := by
    rw [phase2_rxFifo]; exact phase1_rxFifo (s := tick advance s) hphase1
  obtain hwaits | ⟨-, hten, hdropped | ⟨_, _, _, _, haccepted⟩⟩ := phase3_cases (phase2 u)
  · cases hphase3.symm.trans hwaits; exact .inl hfifo
  · cases hphase3.symm.trans hdropped; rw [hfifo] at hten ⊢; exact .inr ⟨hten, rfl⟩
  · cases hphase3.symm.trans haccepted; rw [hfifo] at hten; exact .inr ⟨hten, by rw [← hfifo]; rfl⟩

theorem peerBound_le (c : Config) (n : Nat) : peerBound c n ≤ n := by
  unfold peerBound
  split <;> omega

/-- Settles O57, from the bounds of an iteration; its calls are what the trace of `t` adds to that of `s`. -/
theorem iterationIsBounded : Obligations.IterationIsBounded := by
  intro s t advance received hlegal h
  obtain ⟨-, calls, htrace, hcalls⟩ := iteration_makes hlegal h
  have hbound : replyBound s.cfg + peerBound s.cfg 2 ≤ 2 * (max 1 ((s.cfg.nAnalog + 1) / 2) + 1) :=
    Nat.add_le_add (peerBound_le _ _) (peerBound_le _ _)
  refine ⟨calls, htrace, hcalls.bus_count.trans hbound, hcalls.serial_count, fun hnone => ?_, iteration_rxFifo h⟩
  subst hnone
  obtain ⟨-, calls', htrace', hcalls'⟩ := iteration_none_makes hlegal h
  obtain rfl : calls' = calls := List.append_cancel_left (htrace'.symm.trans htrace)
  exact ⟨hcalls'.bus_count.trans (peerBound_le _ _), hcalls'.serial_count⟩

end Sys2Proof.Machine
end

section
/-! Several nodes on one bus: who acts on a frame (R185, R379), and one exchange between a coordinator and a peer, from the
request to `get` (R191, R224, R233, R252). -/

namespace Sys2Proof.Machine

/-! ### At most one peer -/

/-- A peer that a frame does not leave as it was has the frame's address (R185). -/
theorem address_of_phase1_ne {s : State} {f : BusFrame} (hpeer : s.cfg.role = .peer)
    (hacts : phase1 (some f) s ≠ .next s) : f.address = s.cfg.selfAddress := by
  by_contra hother
  exact hacts (phase1_other_address hpeer hother)

/-- Settles O59. Both peers have the frame's address, and no two places of the list share one. -/
theorem atMostOnePeerActs : Obligations.AtMostOnePeerActs := by
  intro nodes f hunique i j s t hi hj hs ht hsacts htacts
  have hsame : s.cfg.selfAddress = t.cfg.selfAddress :=
    (address_of_phase1_ne hs hsacts).symm.trans (address_of_phase1_ne ht htacts)
  have hlen : i < (nodes.map fun s => s.cfg.selfAddress).length := by
    rw [List.length_map]
    exact (List.getElem?_eq_some_iff.1 hi).1
  exact (List.getElem?_inj hlen hunique).1 (by simp [hi, hj, hsame])

/-! ### The peer's half of an exchange -/

/-- The sample does not depend on what is listed to happen next. -/
theorem Env.nextAnalog_inputs (e : Env) (inputs : List Input) (pin : Byte) :
    ({ e with inputs := inputs }.nextAnalog pin).1 = (e.nextAnalog pin).1 := by
  cases hanswers : e.analogAnswers <;> simp [Env.nextAnalog, hanswers]

/-- Reading a valid pin with the bus answering `Ok`: the sample, then one frame with its transformed value. -/
theorem readAnalogPin_trace_ok {s : State} {pin : Byte} {answers : List SendOutcome}
    (hpin : pin.toNat < s.cfg.nAnalog) (hok : s.env.sendAnswers = .ok :: answers) :
    (readAnalogPin pin s).env.trace = s.env.trace ++
      [.gpioReadAnalog pin (s.env.nextAnalog pin).1,
        .busSend ⟨s.cfg.selfAddress,
          encode s.cfg (.analogData pin (analogValue s.cfg pin (s.env.nextAnalog pin).1))⟩ s.cfg.sendTimeout .ok] := by
  obtain ⟨hsampled, -⟩ := sampleAnalog_observed pin s
  obtain ⟨-, -, hkept, -⟩ := s.env.nextAnalog_keeps pin
  have hanswers : (sampleAnalog pin s).2.env.sendAnswers = .ok :: answers := hkept.trans hok
  rw [readAnalogPin, if_pos (by simpa [analogPinValid] using hpin), replyWith_eq, sendFrame_env,
    Env.sendWithRetry_ok hanswers]
  simp only [hsampled, List.append_assoc, sampleAnalog_cfg]
  rfl

/-- Phases 2 and 3 of a legal node go on, and add their calls to the trace. -/
theorem phases23_next {s : State} (hlegal : s.cfg.Legal) :
    ∃ t calls, phase3 (phase2 s) = .next t ∧ t.env.trace = s.env.trace ++ calls := by
  obtain ⟨t, ht⟩ : ∃ t, phase3 (phase2 s) = .next t := by
    obtain hwaits | ⟨-, -, hdropped | ⟨_, _, _, _, haccepted⟩⟩ := phase3_cases (phase2 s)
    · exact ⟨_, hwaits⟩
    · exact ⟨_, hdropped⟩
    · exact ⟨_, haccepted⟩
  obtain ⟨-, calls, htrace, -⟩ := (phase2_makes hlegal).trans (phase3_makes ht)
  exact ⟨t, calls, ht, htrace⟩

/-- A node when the clock has been read for the next input, with `rest` listed after it. -/
abbrev afterInput (advance : BitVec 31) (rest : List Input) (s : State) : State :=
  tick advance { s with env := { s.env with inputs := rest } }

/-- A peer while `READ_ANALOG` under its own address is in dispatch (R33). -/
abbrev inReadAnalog (s : State) : State :=
  { s with dstate := .processing 0x03#8, rxAddr := s.cfg.selfAddress }

/-- A peer's iteration with `READ_ANALOG` for it reads the pin and goes on to phases 2 and 3. -/
theorem iteration_readAnalog {s : State} (hpeer : s.cfg.role = .peer) (c : Config) (pin : Byte) (advance : BitVec 31) :
    iteration advance (some ⟨s.cfg.selfAddress, encode c (.readAnalog pin)⟩) s =
      phase3 (phase2 { readAnalogPin pin (inReadAnalog (tick advance s)) with dstate := .idle }) := by
  rw [iteration_decoded (f := ⟨s.cfg.selfAddress, encode c (.readAnalog pin)⟩) (i := .readAnalog pin)
    (b := 0x03#8) (rest := [pin]) rfl (by simp [encode]) (fun _ => rfl) (decodeBus_encode s.cfg (i := .readAnalog pin) rfl)]
  rw [exec, execReadAnalog, onPeer_next (by exact hpeer), andThen]
  rfl

/-- A step on such a request: the sample, one frame with the transformed value, and the calls of phases 2 and 3. -/
theorem step_readAnalog {s : State} {c : Config} {pin : Byte} {advance : BitVec 31} {rest : List Input}
    {answers : List SendOutcome} (hlegal : s.cfg.Legal) (hpeer : s.cfg.role = .peer) (hpin : pin.toNat < s.cfg.nAnalog)
    (hok : s.env.sendAnswers = .ok :: answers)
    (hinputs : s.env.inputs = .iteration advance (some ⟨s.cfg.selfAddress, encode c (.readAnalog pin)⟩) :: rest) :
    ∃ t calls, step s = .next t ∧ t.env.trace = s.env.trace ++
      ([.gpioReadAnalog pin (s.env.nextAnalog pin).1,
        .busSend ⟨s.cfg.selfAddress,
          encode s.cfg (.analogData pin (analogValue s.cfg pin (s.env.nextAnalog pin).1))⟩ s.cfg.sendTimeout .ok] ++
        calls) := by
  have hsample : ((inReadAnalog (afterInput advance rest s)).env.nextAnalog pin).1 = (s.env.nextAnalog pin).1 :=
    s.env.nextAnalog_inputs rest pin
  have hread := readAnalogPin_trace_ok hpin hok (s := inReadAnalog (afterInput advance rest s))
  have hcfg := (readAnalogPin_makes hpeer pin (s := inReadAnalog (afterInput advance rest s))).1
  obtain ⟨t, calls, hphases, htrace⟩ := phases23_next
    (s := { readAnalogPin pin (inReadAnalog (afterInput advance rest s)) with dstate := .idle })
    (by rw [hcfg]; exact hlegal)
  refine ⟨t, calls, ?_, ?_⟩
  · rw [step_listed hlegal hinputs, runInput, ← hphases]
    exact iteration_readAnalog (s := { s with env := { s.env with inputs := rest } }) hpeer c pin advance
  · rw [htrace, hread, hsample, List.append_assoc]
    rfl

/-! ### The coordinator's half -/

/-- A coordinator's iteration with a reading stores it under the frame's address at its time, and does no more. -/
theorem iteration_analogData {s : State} (hlegal : s.cfg.Legal) (hcoord : s.cfg.role = .coordinator) {f : BusFrame}
    {b : Byte} {rest : List Byte} (hdata : f.data = b :: rest) (hlen : f.data.length ≤ 8) {pin : Byte} {value : Half}
    (hdecoded : decodeBus s.cfg.busU16HighFirst f.data = .decoded (.analogData pin value)) (advance : BitVec 31) :
    iteration advance (some f) s =
      .next { storeAnalog f.address pin value (inDispatch f b (tick advance s)) with dstate := .idle } := by
  obtain ⟨-, -, -, hmotor⟩ := legal_coordinator hlegal hcoord
  have hstays : (storeAnalog f.address pin value (inDispatch f b (tick advance s))).cfg.hasMotor = false := by
    rw [storeAnalog_cfg]; exact hmotor
  rw [iteration_decoded hdata hlen (by simp [hcoord]) hdecoded, exec, execAnalogData,
    onCoordinator_next (by exact hcoord), andThen, phase2_of_no_motor (by exact hstays),
    phase3_waits (.inl (by exact hstays))]

/-- A step on a reading of a table pin: `get` then finds it under the frame's address, with the time of the step. -/
theorem step_analogData {s : State} {c : Config} {address : Addr} {pin : Byte} {value : Half} {advance : BitVec 31}
    {rest : List Input} (hlegal : s.cfg.Legal) (hcoord : s.cfg.role = .coordinator)
    (hpin : pin.toNat < s.cfg.tablePins) (horder : s.cfg.busU16HighFirst = c.busU16HighFirst)
    (hinputs : s.env.inputs = .iteration advance (some ⟨address, encode c (.analogData pin value)⟩) :: rest) :
    ∃ t, step s = .next t ∧ t.now = s.now + advance.setWidth 32 ∧
      getReading t address pin true = .analog value t.now := by
  obtain ⟨hcons, -, hmax⟩ := encode_bus c (i := .analogData pin value) rfl
  have hdecoded : decodeBus s.cfg.busU16HighFirst (encode c (.analogData pin value)) = .decoded (.analogData pin value) := by
    rw [horder]
    exact decodeBus_encode c (i := .analogData pin value) rfl
  have hstored := iteration_analogData (s := { s with env := { s.env with inputs := rest } })
    (f := ⟨address, encode c (.analogData pin value)⟩) hlegal hcoord hcons (hmax.trans (by decide)) hdecoded advance
  refine ⟨_, (step_listed hlegal hinputs).trans hstored, by rw [storeAnalog_now]; rfl, ?_⟩
  rw [storeAnalog_now]
  exact getReading_storeAnalog_congruent (a := address) (b := address)
    (s := inDispatch ⟨address, encode c (.analogData pin value)⟩ _ (afterInput advance rest s)) hpin rfl value

/-- Settles O60. The peer's frame is the encoding of its reading, which the coordinator decodes in the same byte order. -/
theorem analogRequestEndToEnd : Obligations.AnalogRequestEndToEnd := by
  intro peer coordinator pin advance advance' rest rest' answers hlegal hpeer hpin hok hlegal' hcoord hpin' horder
    hinputs
  obtain ⟨peer', calls, hstep, htrace⟩ := step_readAnalog hlegal hpeer hpin hok hinputs
  refine ⟨peer', _, calls, hstep, htrace, fun hinputs' => ?_⟩
  obtain ⟨coordinator', hstep', hnow, hget⟩ := step_analogData hlegal' hcoord hpin' horder hinputs'
  exact ⟨coordinator', hstep', hnow, hget⟩

end Sys2Proof.Machine
end
